-- ==== Sys2Proof/Word.lean ====
section
/-! DEFINITION. The widths of the EDS core's values (00_scope.md R6, R8): every value is unsigned. -/

namespace Sys2Proof

/-- A byte of the block buffer or of the digest buffer (00_scope.md R8). -/
abbrev Byte := BitVec 8

/-- `WORD`: the width of every host bus access and of a command word (00_scope.md R6). -/
abbrev Word := BitVec 32

/-- One lane of the sponge state (00_scope.md R6: lane width 64). -/
abbrev Lane := BitVec 64

/-- `OPW`: the width of every operand register (00_scope.md R6). -/
abbrev U256 := BitVec 256

/-- A byte offset into the 4 KiB register window, 0x000..0xFFF (20_memory.md R33). -/
abbrev Offset := BitVec 12

end Sys2Proof
end

