-- ==== Sys2Proof/Syntax.lean ====
section
/-! DEFINITION. The eleven commands (30_encoding.md R57, R58): the core's instruction set. -/

namespace Sys2Proof

/-- The KSRC field of SIGN: where each attempt's nonce comes from (30_encoding.md R61). -/
inductive NonceSource where
  /-- KSRC = 0: the entropy source. -/
  | entropy
  /-- KSRC = 1: the operand register K. -/
  | registerK
  deriving DecidableEq, Repr

/-- A decoded command. No command carries a register number or a data immediate: the only operands in the word are
HFINAL's LEN and SIGN's KSRC (30_encoding.md R64). -/
inductive Instr where
  /-- Modular product (40_modular.md R71). -/
  | modmul
  /-- Modular inverse (40_modular.md R72). -/
  | modinv
  /-- Point addition (41_ecc.md R80). -/
  | padd
  /-- Point doubling (41_ecc.md R81). -/
  | pdbl
  /-- Scalar multiplication (41_ecc.md R84). -/
  | pmul
  /-- The 24-round permutation (42_keccak.md R94). -/
  | keccakf
  /-- Clear the sponge state (43_sponge.md R99). -/
  | hinit
  /-- Absorb one full block (43_sponge.md R100). -/
  | habsorb
  /-- Pad and absorb the last block, squeeze the digest (43_sponge.md R104). `len` is the LEN field. -/
  | hfinal (len : BitVec 8)
  /-- Sign (44_ecdsa.md R111). `ksrc` is the KSRC field. -/
  | sign (ksrc : NonceSource)
  /-- Verify (44_ecdsa.md R114). -/
  | verify
  deriving DecidableEq, Repr

end Sys2Proof
end

