-- ==== Sys2Proof/WellFormed.lean ====
section
/-! DEFINITION. Which commands a legal word can stand for (30_encoding.md R59, R60). -/

namespace Sys2Proof

/-- The one check on a command's fields: LEN counts the valid bytes of a partial block, 0 ≤ LEN ≤ 135
(30_encoding.md R60). Every other command is well formed whatever its fields hold. -/
def Instr.wellFormed : Instr → Bool
  | .modmul => true
  | .modinv => true
  | .padd => true
  | .pdbl => true
  | .pmul => true
  | .keccakf => true
  | .hinit => true
  | .habsorb => true
  | .hfinal len => decide (len.toNat ≤ 135)
  | .sign _ => true
  | .verify => true

end Sys2Proof
end

