-- ==== Sys2Proof/Decode.lean ====
section
/-! DEFINITION. Decoding and encoding of the one command format, CMD32 (30_encoding.md R57–R63). -/

namespace Sys2Proof

/-- Why a command word is not legal (30_encoding.md R59). To the core these are ONE class, ILLEGAL (R63): the names
are the model's, and no register tells them apart. -/
inductive Illegal where
  /-- A bit of RSV is set (R62). -/
  | reservedBits
  /-- OP is 0x00 or 0x0C..0xFF (R58). -/
  | unassignedOp
  /-- LEN is not 0 for a command other than HFINAL (R60). -/
  | strayLen
  /-- LEN exceeds 135 for HFINAL (R60). -/
  | lenTooLarge
  /-- KSRC is 1 for a command other than SIGN (R61). -/
  | strayKsrc
  deriving DecidableEq, Repr

/-- OP, bits [7:0] (R57). -/
def opField (w : Word) : BitVec 8 := w.extractLsb' 0 8

/-- LEN, bits [15:8] (R57). -/
def lenField (w : Word) : BitVec 8 := w.extractLsb' 8 8

/-- KSRC, bit [16] (R57). -/
def ksrcField (w : Word) : BitVec 1 := w.extractLsb' 16 1

/-- RSV, bits [31:17] (R57). -/
def rsvField (w : Word) : BitVec 15 := w.extractLsb' 17 15

/-- `legal(w)`, as 30_encoding.md R59 writes it. -/
def legal (w : Word) : Prop :=
  rsvField w = 0 ∧ (1 ≤ (opField w).toNat ∧ (opField w).toNat ≤ 0x0B) ∧
    (opField w = 0x09#8 ∨ lenField w = 0) ∧ (opField w ≠ 0x09#8 ∨ (lenField w).toNat ≤ 135) ∧
    (opField w = 0x0A#8 ∨ ksrcField w = 0)

/-- A command that takes neither LEN nor KSRC: both must be 0 (R57). -/
def decodePlain (w : Word) (i : Instr) : Except Illegal Instr :=
  if lenField w ≠ 0 then .error .strayLen else if ksrcField w ≠ 0 then .error .strayKsrc else .ok i

/-- HFINAL: KSRC must be 0, and LEN at most 135 (R59, R60). -/
def decodeHfinal (w : Word) : Except Illegal Instr :=
  if 135 < (lenField w).toNat then .error .lenTooLarge
  else if ksrcField w ≠ 0 then .error .strayKsrc
  else .ok (.hfinal (lenField w))

/-- SIGN: LEN must be 0, and KSRC selects the nonce source (R61). -/
def decodeSign (w : Word) : Except Illegal Instr :=
  if lenField w ≠ 0 then .error .strayLen
  else .ok (.sign (if ksrcField w = 0 then .entropy else .registerK))

/-- The decoder: total on all 2³² words, each either one of the 11 commands with its fields or ILLEGAL (R59). -/
def decode (w : Word) : Except Illegal Instr :=
  if rsvField w ≠ 0 then .error .reservedBits
  else
    match (opField w).toNat with
    | 0x01 => decodePlain w .modmul
    | 0x02 => decodePlain w .modinv
    | 0x03 => decodePlain w .padd
    | 0x04 => decodePlain w .pdbl
    | 0x05 => decodePlain w .pmul
    | 0x06 => decodePlain w .keccakf
    | 0x07 => decodePlain w .hinit
    | 0x08 => decodePlain w .habsorb
    | 0x09 => decodeHfinal w
    | 0x0A => decodeSign w
    | 0x0B => decodePlain w .verify
    | _ => .error .unassignedOp

/-- The word with the given fields and RSV = 0: CMD32 of R57. -/
def cmdWord (op len : BitVec 8) (ksrc : BitVec 1) : Word :=
  op.setWidth 32 ||| len.setWidth 32 <<< 8 ||| ksrc.setWidth 32 <<< 16

/-- The operation code of a command (R58). -/
def opcode : Instr → BitVec 8
  | .modmul => 0x01#8
  | .modinv => 0x02#8
  | .padd => 0x03#8
  | .pdbl => 0x04#8
  | .pmul => 0x05#8
  | .keccakf => 0x06#8
  | .hinit => 0x07#8
  | .habsorb => 0x08#8
  | .hfinal _ => 0x09#8
  | .sign _ => 0x0A#8
  | .verify => 0x0B#8

/-- The LEN field of a command: 0 but for HFINAL (R57). -/
def lenOf : Instr → BitVec 8
  | .hfinal len => len
  | _ => 0#8

/-- The KSRC field of a command: 0 but for SIGN with the nonce in K (R57, R61). -/
def ksrcOf : Instr → BitVec 1
  | .sign .registerK => 1#1
  | _ => 0#1

/-- The command word of a command. -/
def encode (i : Instr) : Word := cmdWord (opcode i) (lenOf i) (ksrcOf i)

/-- The command read from an instruction whose bits are `w`, numbered as spec/opcode_table.json numbers them. A
command is exactly one 32-bit word (R57), so a number that needs more is no command. -/
def decodeTableWord (nbits w : Nat) : Option Instr :=
  if w % 2 ^ nbits < 2 ^ 32 then (decode (BitVec.ofNat 32 (w % 2 ^ nbits))).toOption else none

end Sys2Proof
end

