-- ==== Sys2Proof/Machine/Bits.lean ====
section
/-! DEFINITION. Bit fields and byte orders (00_scope.md R8; 20_memory.md R39–R44). -/

namespace Sys2Proof.Machine

/-- One bit, in place i of a word. -/
def bitAt (b : Bool) (i : Nat) : Word := (BitVec.ofBool b).setWidth 32 <<< i

/-- Word i of a wider value: bits [32i+31:32i] (20_memory.md R40, R41). -/
def getWord {n : Nat} (v : BitVec n) (i : Nat) : Word := v.extractLsb' (32 * i) 32

/-- The value with bits [32i+31:32i] replaced and every other bit kept (20_memory.md R40). -/
def putWord {n : Nat} (v : BitVec n) (i : Nat) (w : Word) : BitVec n :=
  (v &&& ~~~((BitVec.allOnes 32).setWidth n <<< (32 * i))) ||| (w.setWidth n <<< (32 * i))

/-- Byte k of a bus word, bits [8k+7:8k] (20_memory.md R39). -/
def busByte (w : Word) (k : Nat) : Byte := w.extractLsb' (8 * k) 8

/-- The bus word of four bytes, the first least significant (20_memory.md R39, R42). -/
def busWord (b0 b1 b2 b3 : Byte) : Word := b3 ++ b2 ++ b1 ++ b0

/-- `BE64(b0..b7)`, most significant byte first (00_scope.md R8; 43_sponge.md R97). -/
def be64 (bytes : List Byte) : Lane :=
  BitVec.ofNat 64 (bytes.foldl (fun acc b => acc * 256 + b.toNat) 0)

/-- The eight bytes of a lane, most significant first (43_sponge.md R102). -/
def laneBytes (v : Lane) : List Byte :=
  [v.extractLsb' 56 8, v.extractLsb' 48 8, v.extractLsb' 40 8, v.extractLsb' 32 8,
   v.extractLsb' 24 8, v.extractLsb' 16 8, v.extractLsb' 8 8, v.extractLsb' 0 8]

/-- `LE256(b0..b31)`, least significant byte first (00_scope.md R8). -/
def le256 (bytes : List Byte) : U256 :=
  BitVec.ofNat 256 (bytes.foldr (fun b acc => b.toNat + 256 * acc) 0)

end Sys2Proof.Machine
end

