-- ==== Sys2Proof/Config.lean ====
section
/-! DEFINITION. What an implementation of the core fixes (00_scope.md R6), and the free values: constants
without a body, of which nothing can be proved but their type. -/

namespace Sys2Proof

/-- The implementation parameters of 00_scope.md R6 that have an effect on a command or on a register. They are
carried by the state and no step changes them, so that a statement about every state quantifies over every
admitted value (93_implementation_defined.md U4, U6). The range of MAX_ATTEMPTS is part of the type. -/
structure Params where
  /-- `MAX_ATTEMPTS`: the cap on the nonce attempts of SIGN, readable in CFG. -/
  maxAttempts : Nat
  maxAttempts_pos : 1 ≤ maxAttempts
  maxAttempts_le : maxAttempts ≤ 65535
  /-- `KECCAK_RHO[x][y]` at index x + 5y (42_keccak.md R92): values 0..63. -/
  rho : Vector (Fin 64) 25
  /-- `KECCAK_RC[i]` (42_keccak.md R93). -/
  rc : Vector Lane 24
  deriving DecidableEq, Repr

/-- FREE VALUE (log 1): the raw output of the entropy source for the nonce attempt of the given number (second
argument, from 0) of the command that completes at the given point of the run (first argument). 44_ecdsa.md R110
and 93_implementation_defined.md U3 give it no law but the range, which `Sys2Proof.Machine.draw` imposes. -/
opaque Config.entropy : Nat → Nat → Nat

/-- FREE VALUE (log 2): what a host read inside the running command's write set returns while BUSY = 1
(20_memory.md R48, 93_implementation_defined.md U1). It is an unknown function of the whole state (of the type σ, which
the machine's state is declared after) and of the offset: nothing that the machine holds, and no word of the window, is
assumed to be without influence on it, and every point of the run has a state of its own. -/
opaque Config.busyRead (σ : Type) : σ → Offset → Word

/-- FREE VALUE (log 3): the number of the 4 KiB page at which the platform places the window. -/
opaque Config.basePage : Nat

/-- `BASE`: the base address of the window in the host address space, aligned to 4 KiB (00_scope.md R6). -/
def Config.base : Nat := Config.basePage * 4096

end Sys2Proof
end

