-- ==== Sys2Proof/Machine/Defaults.lean ====
section
/-! DEFINITION. The values this hardware takes for the parameters of 00_scope.md R6 that have one. -/

namespace Sys2Proof.Machine

/-- The default of MAX_ATTEMPTS (00_scope.md R6). -/
def defaultMaxAttempts : Nat := 64

/-- The default rotation offsets, row y after row y, x from 0 to 4 within a row (42_keccak.md R92). -/
def defaultRho : Vector (Fin 64) 25 :=
  #v[0, 1, 62, 28, 27,
     36, 44, 6, 55, 20,
     3, 10, 43, 25, 39,
     41, 45, 15, 21, 8,
     18, 2, 61, 56, 14]

/-- The default round constants (42_keccak.md R93). -/
def defaultRc : Vector Lane 24 :=
  #v[0x0000000000000001#64, 0x0000000000008082#64, 0x800000000000808A#64, 0x8000000080008000#64,
     0x000000000000808B#64, 0x0000000080000001#64, 0x8000000080008081#64, 0x8000000000008009#64,
     0x000000000000008A#64, 0x0000000000000088#64, 0x0000000080008009#64, 0x000000008000000A#64,
     0x000000008000808B#64, 0x800000000000008B#64, 0x8000000000008089#64, 0x8000000000008003#64,
     0x8000000000008002#64, 0x8000000000000080#64, 0x000000000000800A#64, 0x800000008000000A#64,
     0x8000000080008081#64, 0x8000000000008080#64, 0x0000000080000001#64, 0x8000000080008008#64]

/-- The parameters of the hardware of this spec. -/
def defaultParams : Params where
  maxAttempts := defaultMaxAttempts
  maxAttempts_pos := by decide
  maxAttempts_le := by decide
  rho := defaultRho
  rc := defaultRc

end Sys2Proof.Machine
end

