-- ==== Sys2Proof/Machine/HostLang.lean ====
section
/-! DEFINITION. What the outside world can do to the core: the host's statements (30_encoding.md R65), a bus master
that runs them, the bus responses, and whose turn it is. -/

namespace Sys2Proof.Machine

/-- The width of a host access. Only 32 bits is served; the others get BUSERR (20_memory.md R35). -/
inductive AccessSize where
  | b8
  | b16
  | b32
  | b64
  deriving DecidableEq, Repr

/-- The two bus responses (20_memory.md R34, R36). -/
inductive BusResp where
  | okay
  | buserr
  deriving DecidableEq, Repr

/-- What the bus answers to an access: read data (0 for a write) and the response. -/
structure BusAnswer where
  data : Word
  resp : BusResp
  deriving DecidableEq, Repr

/-- A value V32 of the host language: a number, or a host temporary bound by an earlier `rd` (30_encoding.md R65). -/
inductive HostVal where
  | num (v : Word)
  | temp (t : Nat)
  deriving DecidableEq, Repr

/-- A statement of the host language of 30_encoding.md R65. `wr` and `rd` there are the 32-bit accesses; the size is
here so that a host can also perform the accesses that 20_memory.md R35 answers with BUSERR. -/
inductive HostStmt where
  /-- `wr OFF, V32` -/
  | wr (size : AccessSize) (off : Offset) (v : HostVal)
  /-- `rd OFF` or `rd OFF -> %t` -/
  | rd (size : AccessSize) (off : Offset) (dst : Option Nat)
  /-- `label:` -/
  | label (l : Nat)
  /-- `bnz %t, MASK, label` -/
  | bnz (t : Nat) (mask : Word) (l : Nat)
  /-- `bz %t, MASK, label` -/
  | bz (t : Nat) (mask : Word) (l : Nat)
  deriving DecidableEq, Repr

/-- A bus master: the host of 00_scope.md R3(a), running a host program. -/
structure Master where
  /-- its program -/
  program : List HostStmt
  /-- the position of its next statement -/
  pos : Nat
  /-- its bound temporaries and their values, temporaries strictly rising -/
  temps : List (Nat × Word)
  /-- the answer to its latest access -/
  answer : Option BusAnswer
  deriving DecidableEq, Repr

/-- Who moves next (00_scope.md R3; 70_reset_and_hazards.md R141; 20_memory.md R52). -/
inductive Turn where
  /-- bus master number n runs one statement -/
  | master (n : Nat)
  /-- the core engine performs the completion step of the running command, if there is one -/
  | engine
  /-- the platform asserts the core's reset (70_reset_and_hazards.md R134) -/
  | reset
  deriving DecidableEq, Repr

end Sys2Proof.Machine
end

