-- ==== Sys2Proof/Machine/Registers.lean ====
section
/-! DEFINITION. The names and numbers of the 24 operand registers (10_state.md R21). -/

namespace Sys2Proof.Machine

/-- The operand registers of 10_state.md R21, each 256 bits wide. -/
inductive OpReg where
  /-- operand a; the scalar of PMUL -/
  | a
  /-- operand b -/
  | b
  /-- modulus -/
  | m
  /-- modular result -/
  | z
  | p1x
  | p1y
  | p2x
  | p2y
  | rx
  | ry
  /-- field prime p -/
  | cp
  /-- curve coefficient a -/
  | ca
  /-- curve coefficient b: no command reads it (R24) -/
  | cb
  /-- subgroup order q -/
  | cq
  | gx
  | gy
  /-- private scalar d: write-only to the host (R23) -/
  | d
  | qx
  | qy
  /-- signature r -/
  | sr
  /-- signature s -/
  | ss
  /-- the host's nonce -/
  | k
  /-- reduced digest: read-only to the host (R25) -/
  | e
  /-- digest integer -/
  | h
  deriving DecidableEq, Repr

/-- The number n of a register in 10_state.md R21; its window offset is 0x100 + 0x20·n (20_memory.md R40). -/
def OpReg.index : OpReg → Fin 24
  | .a => 0
  | .b => 1
  | .m => 2
  | .z => 3
  | .p1x => 4
  | .p1y => 5
  | .p2x => 6
  | .p2y => 7
  | .rx => 8
  | .ry => 9
  | .cp => 10
  | .ca => 11
  | .cb => 12
  | .cq => 13
  | .gx => 14
  | .gy => 15
  | .d => 16
  | .qx => 17
  | .qy => 18
  | .sr => 19
  | .ss => 20
  | .k => 21
  | .e => 22
  | .h => 23

/-- The registers in the order of their numbers. -/
def OpReg.inOrder : Vector OpReg 24 :=
  #v[.a, .b, .m, .z, .p1x, .p1y, .p2x, .p2y, .rx, .ry, .cp, .ca, .cb, .cq, .gx, .gy, .d, .qx, .qy, .sr, .ss, .k, .e, .h]

/-- The register of a number. -/
def OpReg.ofIndex (n : Fin 24) : OpReg := OpReg.inOrder[n]

end Sys2Proof.Machine
end

