-- ==== Sys2Proof/Machine/State.lean ====
section
/-! DEFINITION. The state of the machine: everything 10_state.md gives the core, the parameters, and the model's own
fields for the agents outside it (00_scope.md R3). -/

namespace Sys2Proof.Machine

/-- The error codes of 60_exceptions.md R119. The codes 0x08..0xFF are never written, so the register's content is
one of these eight (93_implementation_defined.md U13). -/
inductive ErrCode where
  /-- NONE, 0x00 -/
  | noError
  /-- ILLEGAL_CMD, 0x01 -/
  | illegalCmd
  /-- RANGE, 0x02 -/
  | range
  /-- NOT_INVERTIBLE, 0x03 -/
  | notInvertible
  /-- SCALAR_ZERO, 0x04 -/
  | scalarZero
  /-- MALFORMED_SIGNATURE, 0x05 -/
  | malformedSignature
  /-- NONCE_REJECTED, 0x06 -/
  | nonceRejected
  /-- RETRY_LIMIT, 0x07 -/
  | retryLimit
  deriving DecidableEq, Repr

/-- The 25 lanes of the sponge state: S[x][y] at index x + 5y (20_memory.md R41). -/
abbrev Lanes := Vector Lane 25

/-- The state of the core (10_state.md) and of what stands around it. -/
structure State where
  /-- the implementation parameters (00_scope.md R6); no step changes them, and CFG shows one (10_state.md R19) -/
  params : Params
  /-- CTRL.IE (10_state.md R14) -/
  ie : Bool
  /-- the latched command word of the running command (10_state.md R29(a)); STATUS.BUSY is 1 exactly while there is
  one, from acceptance to completion (10_state.md R15) -/
  running : Option Word
  /-- STATUS.DONE (10_state.md R15) -/
  done : Bool
  /-- STATUS.ERR (10_state.md R15) -/
  err : Bool
  /-- STATUS.RESULT (10_state.md R15) -/
  result : Bool
  /-- STATUS.WIGN (10_state.md R15) -/
  wign : Bool
  /-- ERRCODE[7:0] (10_state.md R17) -/
  errcode : ErrCode
  /-- ATTEMPTS[15:0] (10_state.md R18) -/
  attempts : BitVec 16
  /-- PFLAGS.P1INF (10_state.md R20) -/
  p1inf : Bool
  /-- PFLAGS.P2INF (10_state.md R20) -/
  p2inf : Bool
  /-- PFLAGS.RINF (10_state.md R20) -/
  rinf : Bool
  /-- the 24 operand registers, by number (10_state.md R21) -/
  operands : Vector U256 24
  /-- the sponge state S (10_state.md R26) -/
  lanes : Lanes
  /-- the block buffer BUF (10_state.md R27) -/
  buf : Vector Byte 136
  /-- the digest buffer DIGEST (10_state.md R28) -/
  digest : Vector Byte 32
  /-- MODEL'S OWN: the bus masters (00_scope.md R3(a); 20_memory.md R52) -/
  masters : List Master
  /-- MODEL'S OWN: the agents' coming turns, next first (log 5) -/
  turns : List Turn
  /-- MODEL'S OWN: the index of the next free values; every step takes a new one (logs 1, 2) -/
  fresh : Nat
  deriving DecidableEq, Repr

/-- Why the machine stops. The core itself never does: an error completes the command (60_exceptions.md R120) and a
bad access is answered BUSERR (20_memory.md R34). Both faults are the host program's, for which 30_encoding.md R65
gives no effect. -/
inductive Fault where
  /-- A host statement uses a temporary that no earlier `rd` bound. Raised by a bus master's turn. Safe: the run
  stops. -/
  | hostTempUnbound
  /-- A host branch is taken to a label its program does not hold. Raised by a bus master's turn. Safe: the run
  stops. -/
  | hostLabelUndefined
  deriving DecidableEq, Repr

/-- Why an instruction has no meaning. -/
inductive Refusal where
  /-- The instruction of this mnemonic has no meaning yet. Raised by `exec` alone; no arm of this model raises it.
  Safe: the run stops. -/
  | notModelled (mnemonic : String)
  deriving DecidableEq, Repr

/-- The machine right after reset (70_reset_and_hazards.md R134): every register 0, no command running, the
parameters at the values of this hardware (00_scope.md R6). No bus master and no turn is placed (log 5). -/
def State.reset : State where
  params := defaultParams
  ie := false
  running := none
  done := false
  err := false
  result := false
  wign := false
  errcode := .noError
  attempts := 0
  p1inf := false
  p2inf := false
  rinf := false
  operands := Vector.replicate 24 0
  lanes := Vector.replicate 25 0
  buf := Vector.replicate 136 0
  digest := Vector.replicate 32 0
  masters := []
  turns := []
  fresh := 0

end Sys2Proof.Machine
end

