-- ==== Sys2Proof/Machine/Operands.lean ====
section
/-! DEFINITION. Reading and writing the registers a command names (30_encoding.md R64), and the window's map
(20_memory.md R33). -/

namespace Sys2Proof.Machine

/-- `x[NAME]` of an operand register (00_scope.md R10). -/
def State.reg (s : State) (r : OpReg) : U256 := s.operands[r.index]

/-- The unsigned integer an operand register holds (00_scope.md R8). -/
def State.num (s : State) (r : OpReg) : Nat := (s.reg r).toNat

/-- `x[NAME] <- v` of an operand register (00_scope.md R10). -/
def State.setReg (s : State) (r : OpReg) (v : U256) : State :=
  { s with operands := s.operands.set r.index v }

/-- `x[NAME] <- n`. Every value a command writes is below 2²⁵⁶ (00_scope.md R9). -/
def State.setNum (s : State) (r : OpReg) (n : Nat) : State := s.setReg r (BitVec.ofNat 256 n)

/-- Lane (x, y), both taken mod 5, is stored at index x + 5y (20_memory.md R41; 42_keccak.md R86). -/
def laneIndex (x y : Nat) : Fin 25 := ⟨x % 5 + 5 * (y % 5), by omega⟩

/-- `S[x][y]` (00_scope.md R10). -/
def laneAt (A : Lanes) (x y : Nat) : Lane := A[laneIndex x y]

/-- `S[x][y] <- v`. -/
def putLane (A : Lanes) (x y : Nat) (v : Lane) : Lanes := A.set (laneIndex x y) v

/-- What stands at an aligned, unreserved offset of the window (20_memory.md R33). -/
inductive Slot where
  | id
  | ctrl
  | status
  | cmd
  | errcode
  | attempts
  | cfg
  | pflags
  /-- word i of an operand register (R40) -/
  | operand (r : OpReg) (i : Fin 8)
  /-- word i of the lane at storage index l (R41) -/
  | lane (l : Fin 25) (i : Fin 2)
  /-- word w of BUF (R42) -/
  | buf (w : Fin 34)
  /-- word w of DIGEST (R43) -/
  | digest (w : Fin 8)
  deriving DecidableEq, Repr

/-- The eight control and status registers, by word number from offset 0x000 (20_memory.md R33). -/
def controlSlot : Nat → Option Slot
  | 0 => some .id
  | 1 => some .ctrl
  | 2 => some .status
  | 3 => some .cmd
  | 4 => some .errcode
  | 5 => some .attempts
  | 6 => some .cfg
  | 7 => some .pflags
  | _ => none

/-- The map of 20_memory.md R33: what stands at an offset, or nothing where the offset is misaligned (R38) or
reserved (R34). -/
def slotAt (off : Offset) : Option Slot :=
  let o := off.toNat
  if o % 4 ≠ 0 then none
  else if o < 0x100 then controlSlot (o / 4)
  else if o < 0x400 then
    some (.operand (OpReg.ofIndex (Fin.ofNat 24 ((o - 0x100) / 0x20))) (Fin.ofNat 8 ((o % 0x20) / 4)))
  else if o < 0x4C8 then some (.lane (Fin.ofNat 25 ((o - 0x400) / 8)) (Fin.ofNat 2 ((o % 8) / 4)))
  else if o < 0x500 then none
  else if o < 0x588 then some (.buf (Fin.ofNat 34 ((o - 0x500) / 4)))
  else if o < 0x600 then none
  else if o < 0x620 then some (.digest (Fin.ofNat 8 ((o - 0x600) / 4)))
  else none

/-- The offset of a slot (20_memory.md R33, R40–R43). -/
def slotOffset : Slot → Nat
  | .id => 0x000
  | .ctrl => 0x004
  | .status => 0x008
  | .cmd => 0x00C
  | .errcode => 0x010
  | .attempts => 0x014
  | .cfg => 0x018
  | .pflags => 0x01C
  | .operand r i => 0x100 + 0x20 * r.index.val + 4 * i.val
  | .lane l i => 0x400 + 8 * l.val + 4 * i.val
  | .buf w => 0x500 + 4 * w.val
  | .digest w => 0x600 + 4 * w.val

/-- The offset at which the host program reaches a slot. -/
def Slot.off (sl : Slot) : Offset := BitVec.ofNat 12 (slotOffset sl)

/-- The host address of a window offset: BASE + offset (20_memory.md R33). -/
def hostAddress (off : Offset) : Nat := Config.base + off.toNat

/-- The window offset of a host address, if the address lies in the window (20_memory.md R33). -/
def windowOffset (addr : Nat) : Option Offset :=
  if Config.base ≤ addr ∧ addr < Config.base + 4096 then some (BitVec.ofNat 12 (addr - Config.base)) else none

/-- The read set of a command among the operand registers (30_encoding.md R64). -/
def readsReg : Instr → OpReg → Bool
  | .modmul, r => r ∈ [OpReg.a, .b, .m]
  | .modinv, r => r ∈ [OpReg.a, .m]
  | .padd, r => r ∈ [OpReg.p1x, .p1y, .p2x, .p2y, .cp, .ca]
  | .pdbl, r => r ∈ [OpReg.p1x, .p1y, .cp, .ca]
  | .pmul, r => r ∈ [OpReg.a, .p1x, .p1y, .cp, .ca]
  | .keccakf, _ => false
  | .hinit, _ => false
  | .habsorb, _ => false
  | .hfinal _, _ => false
  | .sign .entropy, r => r ∈ [OpReg.cp, .ca, .cq, .gx, .gy, .d, .h]
  | .sign .registerK, r => r ∈ [OpReg.cp, .ca, .cq, .gx, .gy, .d, .h, .k]
  | .verify, r => r ∈ [OpReg.cp, .ca, .cq, .gx, .gy, .qx, .qy, .h, .sr, .ss]

/-- The write set of a command among the operand registers (20_memory.md R48). -/
def writesReg : Instr → OpReg → Bool
  | .modmul, r => r ∈ [OpReg.z]
  | .modinv, r => r ∈ [OpReg.z]
  | .padd, r => r ∈ [OpReg.rx, .ry]
  | .pdbl, r => r ∈ [OpReg.rx, .ry]
  | .pmul, r => r ∈ [OpReg.rx, .ry]
  | .keccakf, _ => false
  | .hinit, _ => false
  | .habsorb, _ => false
  | .hfinal _, r => r ∈ [OpReg.h]
  | .sign _, r => r ∈ [OpReg.sr, .ss, .e]
  | .verify, r => r ∈ [OpReg.e]

/-- The write set of a command among the other registers of the window (20_memory.md R48). -/
def writesSlot (i : Instr) : Slot → Bool
  | .operand r _ => writesReg i r
  | .pflags => i ∈ [Instr.padd, .pdbl, .pmul]
  | .lane _ _ =>
    match i with
    | .keccakf => true
    | .hinit => true
    | .habsorb => true
    | .hfinal _ => true
    | _ => false
  | .digest _ =>
    match i with
    | .hfinal _ => true
    | _ => false
  | .attempts =>
    match i with
    | .sign _ => true
    | _ => false
  | _ => false

end Sys2Proof.Machine
end

