-- ==== Sys2Proof/Machine/Flags.lean ====
section
/-! DEFINITION. The control and status registers as words (10_state.md R13–R20), the write-1-to-clear rule of STATUS
(R15) and the interrupt output (R31). The core has no arithmetic flags (R32). -/

namespace Sys2Proof.Machine

/-- STATUS.BUSY: a command is running (10_state.md R15). -/
def State.busy (s : State) : Bool := s.running.isSome

/-- The 8-bit code of an error (60_exceptions.md R119). -/
def ErrCode.code : ErrCode → BitVec 8
  | .noError => 0x00#8
  | .illegalCmd => 0x01#8
  | .range => 0x02#8
  | .notInvertible => 0x03#8
  | .scalarZero => 0x04#8
  | .malformedSignature => 0x05#8
  | .nonceRejected => 0x06#8
  | .retryLimit => 0x07#8

/-- ID (10_state.md R13). -/
def idWord : Word := 0x45445331#32

/-- CTRL as read (10_state.md R14). -/
def ctrlWord (s : State) : Word := bitAt s.ie 0

/-- STATUS as read (10_state.md R15). -/
def statusWord (s : State) : Word :=
  bitAt s.busy 0 ||| bitAt s.done 1 ||| bitAt s.err 2 ||| bitAt s.result 3 ||| bitAt s.wign 4

/-- ERRCODE as read (10_state.md R17). -/
def errcodeWord (s : State) : Word := s.errcode.code.setWidth 32

/-- ATTEMPTS as read (10_state.md R18). -/
def attemptsWord (s : State) : Word := s.attempts.setWidth 32

/-- CFG as read: MAX_ATTEMPTS (10_state.md R19). -/
def cfgWord (s : State) : Word := BitVec.ofNat 32 s.params.maxAttempts

/-- PFLAGS as read (10_state.md R20). -/
def pflagsWord (s : State) : Word := bitAt s.p1inf 0 ||| bitAt s.p2inf 1 ||| bitAt s.rinf 2

/-- A write to CTRL: only IE is writable (10_state.md R14, R30). -/
def writeCtrl (s : State) (w : Word) : State := { s with ie := w.getLsbD 0 }

/-- A write to STATUS clears each W1C bit written as 1, DONE, ERR and WIGN, and changes nothing else
(10_state.md R15). -/
def clearStatus (s : State) (w : Word) : State :=
  { s with
    done := s.done && !w.getLsbD 1
    err := s.err && !w.getLsbD 2
    wign := s.wign && !w.getLsbD 4 }

/-- A write to PFLAGS: bits 0 to 2 are writable (10_state.md R20). -/
def writePflags (s : State) (w : Word) : State :=
  { s with p1inf := w.getLsbD 0, p2inf := w.getLsbD 1, rinf := w.getLsbD 2 }

/-- The interrupt output, a level: IRQ = CTRL.IE ∧ STATUS.DONE (10_state.md R31; 60_exceptions.md R125). -/
def irq (s : State) : Bool := s.ie && s.done

end Sys2Proof.Machine
end

