-- ==== Sys2Proof/Machine/Ops.lean ====
section
/-! DEFINITION. The operations the commands and the agents share: the command lifecycle with its errors
(60_exceptions.md R120–R123), the host's reads and writes of the window (20_memory.md R36, R37), and reset
(70_reset_and_hazards.md R134). -/

namespace Sys2Proof.Machine

/-- What a step or a command answers. -/
abbrev Result := Host.Outcome State Fault Refusal

/-- `ACCEPT(w)` of 60_exceptions.md R121: the word is latched, BUSY rises, DONE, ERR, RESULT and ERRCODE are cleared,
and WIGN is unchanged. -/
def accept (w : Word) (s : State) : State :=
  { s with running := some w, done := false, err := false, result := false, errcode := .noError }

/-- `COMPLETE(code)` of 60_exceptions.md R122. `verdict` is VERIFY's, and false for every other command. -/
def complete (code : ErrCode) (verdict : Bool) (s : State) : State :=
  { s with
    errcode := code
    err := decide (code ≠ .noError)
    result := verdict && decide (code = .noError)
    running := none
    done := true }

/-- `raise E(info)` (60_exceptions.md R120, R123): the one way an error ends a command. Nothing is vectored or saved,
no output is written, and the command completes with the code. Only the code is recorded (R119). -/
def raise (code : ErrCode) (s : State) : Result := .next (complete code false s)

/-- A command other than VERIFY completes without error (60_exceptions.md R122). -/
def succeed (s : State) : Result := .next (complete .noError false s)

/-- A command completes with the outputs it computed, or ends at the error that its computation met first
(60_exceptions.md R123, R124). -/
def conclude (outcome : Except ErrCode State) (s : State) : Result :=
  match outcome with
  | .ok t => succeed t
  | .error e => raise e s

/-- Whether a slot lies in the write set of the running command (20_memory.md R48); an illegal command word has the
empty write set. -/
def inWriteSet (s : State) (sl : Slot) : Bool :=
  match s.running with
  | none => false
  | some w =>
    match decode w with
    | .ok i => writesSlot i sl
    | .error _ => false

/-- The 32-bit value at a slot as the host reads it while nothing is unspecified: D and CMD read 0
(10_state.md R13–R28; 20_memory.md R36, R40–R43). -/
def slotWord (s : State) : Slot → Word
  | .id => idWord
  | .ctrl => ctrlWord s
  | .status => statusWord s
  | .cmd => 0
  | .errcode => errcodeWord s
  | .attempts => attemptsWord s
  | .cfg => cfgWord s
  | .pflags => pflagsWord s
  | .operand r i => if r = .d then 0 else getWord (s.reg r) i
  | .lane l i => getWord s.lanes[l] i
  | .buf w =>
    busWord s.buf[4 * w.val] s.buf[4 * w.val + 1] s.buf[4 * w.val + 2] s.buf[4 * w.val + 3]
  | .digest w =>
    busWord s.digest[4 * w.val] s.digest[4 * w.val + 1] s.digest[4 * w.val + 2] s.digest[4 * w.val + 3]

/-- The bus answers BUSERR, with read data 0 (20_memory.md R34, R35, R38). -/
def busError : BusAnswer := ⟨0, .buserr⟩

/-- The bus answers OKAY. -/
def busOkay (data : Word) : BusAnswer := ⟨data, .okay⟩

/-- `MemRead(off, 4)` of 20_memory.md R36, and a read of another width (R35). A read changes no state (R45), so it is
only an answer. -/
def memRead (s : State) (size : AccessSize) (off : Offset) : BusAnswer :=
  match size, slotAt off with
  | .b32, some sl => busOkay (if s.busy && inWriteSet s sl then Config.busyRead State s off else slotWord s sl)
  | _, _ => busError

/-- The write of a word into the bytes of BUF at a word position (20_memory.md R42). -/
def putBufWord (b : Vector Byte 136) (w : Fin 34) (v : Word) : Vector Byte 136 :=
  (((b.set (4 * w.val) (busByte v 0)).set (4 * w.val + 1) (busByte v 1)).set (4 * w.val + 2)
    (busByte v 2)).set (4 * w.val + 3) (busByte v 3)

/-- A write that an idle core takes (20_memory.md R37, last four lines; 10_state.md R30): CMD offers the word, which
the core always accepts (60_exceptions.md R121); STATUS clears; a read-only register ignores it; any other register
stores its writable bits. -/
def writeSlot (s : State) (sl : Slot) (v : Word) : State :=
  match sl with
  | .id => s
  | .ctrl => writeCtrl s v
  | .status => clearStatus s v
  | .cmd => accept v s
  | .errcode => s
  | .attempts => s
  | .cfg => s
  | .pflags => writePflags s v
  | .operand r i => if r = .e then s else s.setReg r (putWord (s.reg r) i v)
  | .lane l i => { s with lanes := s.lanes.set l (putWord s.lanes[l] i v) }
  | .buf w => { s with buf := putBufWord s.buf w v }
  | .digest _ => s

/-- Whether a slot takes a write while BUSY = 1: only CTRL and STATUS do (20_memory.md R47). -/
def openWhileBusy : Slot → Bool
  | .ctrl => true
  | .status => true
  | _ => false

/-- `MemWrite(off, 4, v)` of 20_memory.md R37, and a write of another width (R35): the state after it and the bus's
answer. While BUSY = 1 a write to any slot but CTRL and STATUS is ignored and sets WIGN (R47). -/
def memWrite (s : State) (size : AccessSize) (off : Offset) (v : Word) : State × BusAnswer :=
  match size, slotAt off with
  | .b32, some sl =>
    if s.busy && !openWhileBusy sl then ({ s with wign := true }, busOkay 0) else (writeSlot s sl v, busOkay 0)
  | _, _ => (s, busError)

/-- The core's reset input is asserted (70_reset_and_hazards.md R134, R135): every register takes its reset value, and
a running command is abandoned. The parameters, the agents outside the core and the free-value index are no part of
the core and stay. -/
def resetCore (s : State) : State :=
  { State.reset with params := s.params, masters := s.masters, turns := s.turns, fresh := s.fresh }

/-- Who moves next: the head of the coming turns; where none is placed, the engine if a command is running, and else
bus master 0 (70_reset_and_hazards.md R141; log 5). -/
def nextTurn (s : State) : Turn :=
  match s.turns with
  | t :: _ => t
  | [] => if s.busy then .engine else .master 0

/-- A step takes one turn, and a new index for the free values. -/
def takeTurn (s : State) : State := { s with turns := s.turns.tail, fresh := s.fresh + 1 }

end Sys2Proof.Machine
end

