-- ==== Sys2Proof/Machine/Modular.lean ====
section
/-! DEFINITION. The modular arithmetic family (40_modular.md): exact arithmetic on unbounded integers (R67), the
helpers of R68 to R70, MODMUL and MODINV. -/

namespace Sys2Proof.Machine

/-- `(u + v) mod m` (40_modular.md R68). -/
def fadd (u v m : Nat) : Nat := (u + v) % m

/-- `(u - v) mod m`, the non-negative residue (40_modular.md R67, R68). -/
def fsub (u v m : Nat) : Nat := (((u : Int) - (v : Int)) % (m : Int)).toNat

/-- `(u * v) mod m`, exact (40_modular.md R68). -/
def fmul (u v m : Nat) : Nat := (u * v) % m

/-- `extendedGcd` of 40_modular.md R69, with a bound on the depth of its recursion: each level takes a strictly
smaller first operand. -/
def extendedGcdWithin : Nat → Nat → Nat → Nat × Int × Int
  | 0, _, b => (b, 0, 1)
  | depth + 1, a, b =>
    if a = 0 then (b, 0, 1)
    else
      let (g, x1, y1) := extendedGcdWithin depth (b % a) a
      (g, y1 - ((b / a : Nat) : Int) * x1, x1)

/-- `extendedGcd(a, b)` of 40_modular.md R69: g = gcd(a, b) and g = a·x + b·y. -/
def extendedGcd (a b : Nat) : Nat × Int × Int := extendedGcdWithin a a b

/-- `finv(u, m)` of 40_modular.md R68, by the `modInverse` of R70: the Bézout coefficient normalised into [0, m), or
NOT_INVERTIBLE where gcd(u, m) ≠ 1. -/
def finv (u m : Nat) : Except ErrCode Nat :=
  let (g, x, _) := extendedGcd u m
  if g ≠ 1 then .error .notInvertible else .ok (x % (m : Int)).toNat

/-- MODMUL (40_modular.md R71): `Z <- (A · B) mod M`; RANGE if M = 0. -/
def execModmul (s : State) : Result :=
  if s.num .m = 0 then raise .range s else succeed (s.setNum .z (fmul (s.num .a) (s.num .b) (s.num .m)))

/-- MODINV (40_modular.md R72): `Z <- A⁻¹ mod M`; RANGE if M = 0, NOT_INVERTIBLE if gcd(A, M) ≠ 1. -/
def execModinv (s : State) : Result :=
  if s.num .m = 0 then raise .range s
  else conclude ((finv (s.num .a) (s.num .m)).map fun v => s.setNum .z v) s

end Sys2Proof.Machine
end

