-- ==== Sys2Proof/Machine/Curve.lean ====
section
/-! DEFINITION. The elliptic-curve family (41_ecc.md): points, the group law, scalar multiplication, PADD, PDBL and
PMUL. -/

namespace Sys2Proof.Machine

/-- A point (00_scope.md R11): the point at infinity O, or an affine pair. -/
inductive Point where
  | infinity
  | affine (x y : Nat)
  deriving DecidableEq, Repr

/-- The operand point of an infinity flag and two registers; with the flag set the registers are not read
(41_ecc.md R75). -/
def State.point (s : State) (inf : Bool) (xr yr : OpReg) : Point :=
  if inf then .infinity else .affine (s.num xr) (s.num yr)

/-- The check p ≥ 3 of 41_ecc.md R74. -/
def checkPrime (p : Nat) : Except ErrCode Unit := if 3 ≤ p then .ok () else .error .range

/-- The check of an operand point (41_ecc.md R75): an affine point has both coordinates below p. -/
def checkPoint (p : Nat) : Point → Except ErrCode Unit
  | .infinity => .ok ()
  | .affine x y => if x < p ∧ y < p then .ok () else .error .range

/-- The last two lines of `ADD` (41_ecc.md R76): the sum from the slope. -/
def sumFromSlope (p lam x1 y1 x2 : Nat) : Point :=
  let x3 := fsub (fsub (fmul lam lam p) x1 p) x2 p
  .affine x3 (fsub (fmul lam (fsub x1 x3 p) p) y1 p)

/-- `ADD(P1, P2)` over the context p, a, its cases in the order of 41_ecc.md R76; the case of R77 is the last. -/
def pointAdd (p a : Nat) : Point → Point → Except ErrCode Point
  | .infinity, P2 => .ok P2
  | .affine x1 y1, .infinity => .ok (.affine x1 y1)
  | .affine x1 y1, .affine x2 y2 =>
    if x1 = x2 ∧ (y1 + y2) % p = 0 then .ok .infinity
    else if x1 ≠ x2 then do
      let inv ← finv (fsub x2 x1 p) p
      .ok (sumFromSlope p (fmul (fsub y2 y1 p) inv p) x1 y1 x2)
    else if y1 = y2 then do
      let inv ← finv (fmul 2 y1 p) p
      .ok (sumFromSlope p (fmul (fadd (fmul 3 (fmul x1 x1 p) p) a p) inv p) x1 y1 x2)
    else .error .notInvertible

/-- The recursion of 41_ecc.md R82, with a bound on its depth: each level takes a strictly smaller k. -/
def scalarMulWithin (p a : Nat) (P : Point) : Nat → Nat → Except ErrCode Point
  | 0, _ => .ok P
  | depth + 1, k =>
    if k = 1 then .ok P
    else if k % 2 = 0 then do
      let X ← scalarMulWithin p a P depth (k / 2)
      pointAdd p a X X
    else do
      let X ← scalarMulWithin p a P depth (k - 1)
      pointAdd p a X P

/-- `SM(P, k)` of 41_ecc.md R82, for k ≥ 1 (every caller checks that). -/
def scalarMul (p a : Nat) (P : Point) (k : Nat) : Except ErrCode Point := scalarMulWithin p a P k k

/-- `writeR(R)` of 41_ecc.md R79. -/
def writeR (s : State) : Point → State
  | .infinity => { (s.setNum .rx 0).setNum .ry 0 with rinf := true }
  | .affine x y => { (s.setNum .rx x).setNum .ry y with rinf := false }

/-- PADD (41_ecc.md R80): `R <- P1 + P2`. -/
def execPadd (s : State) : Result :=
  let p := s.num .cp
  let P1 := s.point s.p1inf .p1x .p1y
  let P2 := s.point s.p2inf .p2x .p2y
  conclude (do
    checkPrime p
    checkPoint p P1
    checkPoint p P2
    let R ← pointAdd p (s.num .ca) P1 P2
    .ok (writeR s R)) s

/-- PDBL (41_ecc.md R81): `R <- ADD(P1, P1)`; P2 is not read. -/
def execPdbl (s : State) : Result :=
  let p := s.num .cp
  let P1 := s.point s.p1inf .p1x .p1y
  conclude (do
    checkPrime p
    checkPoint p P1
    let R ← pointAdd p (s.num .ca) P1 P1
    .ok (writeR s R)) s

/-- PMUL (41_ecc.md R84): `R <- A·P1`; SCALAR_ZERO if A = 0. -/
def execPmul (s : State) : Result :=
  let p := s.num .cp
  let P1 := s.point s.p1inf .p1x .p1y
  conclude (do
    checkPrime p
    checkPoint p P1
    if s.num .a = 0 then .error .scalarZero
    let R ← scalarMul p (s.num .ca) P1 (s.num .a)
    .ok (writeR s R)) s

end Sys2Proof.Machine
end

