-- ==== Sys2Proof/Machine/Keccak.lean ====
section
/-! DEFINITION. The permutation family (42_keccak.md): the step mappings on the 5×5 array of lanes, the permutation
F, and KECCAKF. -/

namespace Sys2Proof.Machine

/-- The array whose lane (x, y) is `f x y`, for x, y in 0..4 (42_keccak.md R86). -/
def tabulate (f : Nat → Nat → Lane) : Lanes := Vector.ofFn fun i => f (i.val % 5) (i.val / 5)

/-- `rotl(v, n)`, the 64-bit left rotation, for 0 ≤ n ≤ 63 (42_keccak.md R86). -/
def rotl (v : Lane) (n : Nat) : Lane := if n = 0 then v else v <<< n ||| v >>> (64 - n)

/-- C[x] of theta: the XOR of the five lanes of column x (42_keccak.md R87). -/
def columnParity (A : Lanes) (x : Nat) : Lane :=
  laneAt A x 0 ^^^ laneAt A x 1 ^^^ laneAt A x 2 ^^^ laneAt A x 3 ^^^ laneAt A x 4

/-- Theta (42_keccak.md R87). Column x - 1 is column x + 4, mod 5. -/
def theta (A : Lanes) : Lanes :=
  tabulate fun x y => laneAt A x y ^^^ (columnParity A (x + 4) ^^^ rotl (columnParity A (x + 1)) 1)

/-- Rho and Pi, fused (42_keccak.md R88). R88 writes lane (X, Y) to (Y, 2X + 3Y) mod 5; here each target (x, y) reads
its one source, (x + 3y, x) mod 5, and the offset is that of the source. -/
def rhoPi (rho : Vector (Fin 64) 25) (A : Lanes) : Lanes :=
  tabulate fun x y => rotl (laneAt A (x + 3 * y) x) (rho[laneIndex (x + 3 * y) x]).val

/-- Chi (42_keccak.md R89). -/
def chi (B : Lanes) : Lanes :=
  tabulate fun x y => laneAt B x y ^^^ (~~~(laneAt B (x + 1) y) &&& laneAt B (x + 2) y)

/-- Iota with the round's constant (42_keccak.md R90). -/
def iota (c : Lane) (A : Lanes) : Lanes := putLane A 0 0 (laneAt A 0 0 ^^^ c)

/-- One round: theta, rho+pi, chi, iota, in that order (42_keccak.md R91). -/
def keccakRound (rho : Vector (Fin 64) 25) (A : Lanes) (c : Lane) : Lanes := iota c (chi (rhoPi rho (theta A)))

/-- `F(A)`: the rounds 0 to 23 in order (42_keccak.md R91). -/
def keccakF (P : Params) (A : Lanes) : Lanes := P.rc.toList.foldl (keccakRound P.rho) A

/-- KECCAKF (42_keccak.md R94): `S <- F(S)`. -/
def execKeccakf (s : State) : Result := succeed { s with lanes := keccakF s.params s.lanes }

end Sys2Proof.Machine
end

