-- ==== Sys2Proof/Machine/Signature.lean ====
section
/-! DEFINITION. The signature family (44_ecdsa.md): the reduced digest, the context checks, the nonce source, SIGN
with its rejection loop, and VERIFY. -/

namespace Sys2Proof.Machine

/-- `EOF(h, q)` (44_ecdsa.md R108): the digest reduced mod q, with 0 replaced by 1. -/
def reducedDigest (h q : Nat) : Nat := if h % q = 0 then 1 else h % q

/-- The base point G, always affine (44_ecdsa.md R109). -/
def State.basePoint (s : State) : Point := .affine (s.num .gx) (s.num .gy)

/-- The public point Q, always affine (44_ecdsa.md R109). -/
def State.publicPoint (s : State) : Point := .affine (s.num .qx) (s.num .qy)

/-- Items 1 to 3 of the signing-context checks (44_ecdsa.md R109). -/
def contextChecks (s : State) : Except ErrCode Unit := do
  checkPrime (s.num .cp)
  if s.num .cq < 2 then .error .range
  checkPoint (s.num .cp) s.basePoint

/-- A scalar in [1, q - 1] (44_ecdsa.md R109, items 4 and 5). -/
def checkScalar (q v : Nat) : Except ErrCode Unit := if 1 ≤ v ∧ v < q then .ok () else .error .range

/-- SIGN's checks, items 1 to 5 (44_ecdsa.md R109); K only where it is the nonce. -/
def signChecks (ksrc : NonceSource) (s : State) : Except ErrCode Unit := do
  contextChecks s
  checkScalar (s.num .cq) (s.num .d)
  match ksrc with
  | .entropy => .ok ()
  | .registerK => checkScalar (s.num .cq) (s.num .k)

/-- One draw of the entropy source: a free value in [1, q - 1], one for each attempt (44_ecdsa.md R110; log 1). -/
def draw (index q attempt : Nat) : Nat := 1 + Config.entropy index attempt % (q - 1)

/-- How one attempt of SIGN ends (44_ecdsa.md R111, the loop's body). -/
inductive Attempt where
  /-- r ≠ 0 and s ≠ 0: the signature. -/
  | signed (r s : Nat)
  /-- r = 0, s = 0 or R = O. -/
  | rejected
  /-- the scalar multiplication met an error. -/
  | failed (code : ErrCode)
  deriving DecidableEq, Repr

/-- `(R.inf = 0) ? (R.x mod q) : 0` (44_ecdsa.md R111, R112). -/
def xMod (q : Nat) : Point → Nat
  | .infinity => 0
  | .affine x _ => x % q

/-- One attempt with the nonce k and the reduced digest e (44_ecdsa.md R111). -/
def attemptWith (s : State) (e k : Nat) : Attempt :=
  match scalarMul (s.num .cp) (s.num .ca) s.basePoint k with
  | .error code => .failed code
  | .ok R =>
    let q := s.num .cq
    let r := xMod q R
    let sig := (r * s.num .d + k * e) % q
    if r = 0 then .rejected else if sig = 0 then .rejected else .signed r sig

/-- The retry loop with the entropy source (44_ecdsa.md R111): `left` attempts remain before the cap, `n` were made.
It answers the number of attempts made and the signature or the error. -/
def retryLoop (nonce : Nat → Nat) (attempt : Nat → Attempt) : Nat → Nat → Nat × Except ErrCode (Nat × Nat)
  | 0, n => (n, .error .retryLimit)
  | left + 1, n =>
    match attempt (nonce n) with
    | .signed r sig => (n + 1, .ok (r, sig))
    | .failed code => (n + 1, .error code)
    | .rejected => retryLoop nonce attempt left (n + 1)

/-- The single attempt with the host's nonce (44_ecdsa.md R111, KSRC = 1). -/
def singleAttempt : Attempt → Nat × Except ErrCode (Nat × Nat)
  | .signed r sig => (1, .ok (r, sig))
  | .failed code => (1, .error code)
  | .rejected => (1, .error .nonceRejected)

/-- The attempts of SIGN: how many were made, and the signature or the error (44_ecdsa.md R111). -/
def signRun (ksrc : NonceSource) (s : State) : Nat × Except ErrCode (Nat × Nat) :=
  let e := reducedDigest (s.num .h) (s.num .cq)
  match ksrc with
  | .entropy => retryLoop (draw s.fresh (s.num .cq)) (attemptWith s e) s.params.maxAttempts 0
  | .registerK => singleAttempt (attemptWith s e (s.num .k))

/-- `x[ATTEMPTS] <- n` (44_ecdsa.md R111); n is at most MAX_ATTEMPTS, which fits. -/
def State.setAttempts (s : State) (n : Nat) : State := { s with attempts := BitVec.ofNat 16 n }

/-- SIGN (44_ecdsa.md R111): `(SR, SS) <- signature of H under d`. ATTEMPTS is written whatever the outcome, the one
exception to the rule that an error writes no output (60_exceptions.md R123). -/
def execSign (ksrc : NonceSource) (s : State) : Result :=
  match signChecks ksrc s with
  | .error code => raise code (s.setAttempts 0)
  | .ok () =>
    let t := s.setAttempts (signRun ksrc s).1
    match (signRun ksrc s).2 with
    | .error code => raise code t
    | .ok (r, sig) =>
      succeed (((t.setNum .sr r).setNum .ss sig).setNum .e (reducedDigest (s.num .h) (s.num .cq)))

/-- VERIFY's checks: the context, Q, and then the range of the signature (44_ecdsa.md R109, R113). -/
def verifyChecks (s : State) : Except ErrCode Unit := do
  contextChecks s
  checkPoint (s.num .cp) s.publicPoint
  if s.num .sr = 0 ∨ s.num .cq ≤ s.num .sr ∨ s.num .ss = 0 ∨ s.num .cq ≤ s.num .ss then .error .malformedSignature

/-- Steps 2 to 5 of VERIFY (44_ecdsa.md R114): the verdict, or the first error. C = O gives false (R115). -/
def verdict (s : State) : Except ErrCode Bool := do
  let p := s.num .cp
  let a := s.num .ca
  let q := s.num .cq
  let v ← finv (reducedDigest (s.num .h) q) q
  let z1 := (s.num .ss * v) % q
  let z2 := (q - (s.num .sr * v) % q) % q
  if z1 = 0 ∨ z2 = 0 then .error .scalarZero
  let X1 ← scalarMul p a s.basePoint z1
  let X2 ← scalarMul p a s.publicPoint z2
  let C ← pointAdd p a X1 X2
  match C with
  | .infinity => .ok false
  | .affine x _ => .ok (decide (x % q = s.num .sr))

/-- VERIFY (44_ecdsa.md R114): `STATUS.RESULT <- [the signature is valid]`, and E. -/
def execVerify (s : State) : Result :=
  match verifyChecks s with
  | .error code => raise code s
  | .ok () =>
    match verdict s with
    | .error code => raise code s
    | .ok valid => .next (complete .noError valid (s.setNum .e (reducedDigest (s.num .h) (s.num .cq))))

end Sys2Proof.Machine
end

