-- ==== Sys2Proof/Machine/Sponge.lean ====
section
/-! DEFINITION. The sponge family (43_sponge.md): absorbing, padding, squeezing, the digest integer, HINIT, HABSORB
and HFINAL. -/

namespace Sys2Proof.Machine

/-- One iteration of `ABSORB` (43_sponge.md R98): XOR the value into lane j, (x, y) = (j div 5, j mod 5) (R96), then
run F. -/
def absorbLane (P : Params) (S : Lanes) (j : Nat) (v : Lane) : Lanes :=
  keccakF P (putLane S (j / 5) (j % 5) (laneAt S (j / 5) (j % 5) ^^^ v))

/-- The value of the eight block bytes 8j..8j+7 (43_sponge.md R97). -/
def blockLane (blk : List Byte) (j : Nat) : Lane := be64 ((blk.drop (8 * j)).take 8)

/-- `ABSORB(S, blk)` of a 136-byte block (43_sponge.md R98): 17 lanes, F after every lane. -/
def absorb (P : Params) (S : Lanes) (blk : List Byte) : Lanes :=
  (List.range 17).foldl (fun A j => absorbLane P A j (blockLane blk j)) S

/-- `PAD(tail)` for the final message bytes, at most 135 (43_sponge.md R101): append 0x01; if that is not a whole
block, fill with zeros and XOR 0x80 into byte 135. -/
def pad (tail : List Byte) : List Byte :=
  let b := tail ++ [0x01#8]
  if b.length % 136 ≠ 0 then
    let z := b ++ List.replicate (136 - b.length) 0x00#8
    z.set 135 (z.getD 135 0 ^^^ 0x80#8)
  else b

/-- The loop of `SQUEEZE` (43_sponge.md R102) with its remaining iterations and the lane number j: emit lane j, run
F, go on. -/
def squeezeFrom (P : Params) : Nat → Nat → Lanes → List Byte × Lanes
  | 0, _, S => ([], S)
  | left + 1, j, S =>
    let (out, S') := squeezeFrom P left (j + 1) (keccakF P S)
    (laneBytes (laneAt S (j / 5) (j % 5)) ++ out, S')

/-- `SQUEEZE(S)`: exactly four lanes, F after each of them, the last included (43_sponge.md R102). -/
def squeeze (P : Params) (S : Lanes) : List Byte × Lanes := squeezeFrom P 4 0 S

/-- The digest integer `H(out)`: LE256 with bit 7 of the last byte cleared (43_sponge.md R103). -/
def digestInt (out : List Byte) : U256 := le256 (out.set 31 (out.getD 31 0 &&& 0x7F#8))

/-- The 32 bytes of DIGEST from the squeezed bytes (43_sponge.md R104). -/
def digestBytes (out : List Byte) : Vector Byte 32 := Vector.ofFn fun i => out.getD i.val 0

/-- HINIT (43_sponge.md R99): `S <- 0`. -/
def execHinit (s : State) : Result := succeed { s with lanes := Vector.replicate 25 0 }

/-- HABSORB (43_sponge.md R100): absorb the whole of BUF, with no padding. -/
def execHabsorb (s : State) : Result := succeed { s with lanes := absorb s.params s.lanes s.buf.toList }

/-- The outputs of HFINAL with t valid bytes in BUF (43_sponge.md R104). -/
def hfinalOutputs (t : Nat) (s : State) : State :=
  let (out, S) := squeeze s.params (absorb s.params s.lanes (pad (s.buf.toList.take t)))
  { s with lanes := S, digest := digestBytes out }.setReg .h (digestInt out)

/-- HFINAL (43_sponge.md R104). LEN = 136..255 makes the command illegal (30_encoding.md R60), as its word does not
decode. -/
def execHfinal (len : BitVec 8) (s : State) : Result :=
  if len.toNat ≤ 135 then succeed (hfinalOutputs len.toNat s) else raise .illegalCmd s

end Sys2Proof.Machine
end

