-- ==== Sys2Proof/Machine/Dispatch.lean ====
section
/-! DEFINITION. One arm per command: its completion step (60_exceptions.md R122). -/

namespace Sys2Proof.Machine

def exec (i : Instr) (s : State) : Host.Outcome State Fault Refusal :=
  match i with
  | .modmul => Sys2Proof.Machine.execModmul s
  | .modinv => Sys2Proof.Machine.execModinv s
  | .padd => Sys2Proof.Machine.execPadd s
  | .pdbl => Sys2Proof.Machine.execPdbl s
  | .pmul => Sys2Proof.Machine.execPmul s
  | .keccakf => Sys2Proof.Machine.execKeccakf s
  | .hinit => Sys2Proof.Machine.execHinit s
  | .habsorb => Sys2Proof.Machine.execHabsorb s
  | .hfinal len => Sys2Proof.Machine.execHfinal len s
  | .sign ksrc => Sys2Proof.Machine.execSign ksrc s
  | .verify => Sys2Proof.Machine.execVerify s

end Sys2Proof.Machine
end

