-- ==== Sys2Proof/Machine/Engine.lean ====
section
/-! DEFINITION. The core engine's turn: the completion step of the running command (60_exceptions.md R122). -/

namespace Sys2Proof.Machine

/-- A command word is performed: a legal word by its command's rule, an illegal one by completing with ILLEGAL_CMD
and no other effect (30_encoding.md R59; 60_exceptions.md R122). -/
def runWord (w : Word) (s : State) : Result :=
  match decode w with
  | .ok i => exec i s
  | .error _ => raise .illegalCmd s

/-- The engine's turn: the completion step if a command is running; an idle engine holds all state
(60_exceptions.md R133). -/
def engineTurn (s : State) : Result :=
  match s.running with
  | none => .next s
  | some w => runWord w s

end Sys2Proof.Machine
end

