-- ==== Sys2Proof/Machine/HostAgent.lean ====
section
/-! DEFINITION. The host agent (00_scope.md R3(a)): a bus master's turn, and the pseudo-instructions of the host
language (30_encoding.md R65, R66). -/

namespace Sys2Proof.Machine

/-- The value of a temporary, if it is bound. -/
def readTemp : List (Nat × Word) → Nat → Option Word
  | [], _ => none
  | (u, w) :: rest, t => if u = t then some w else readTemp rest t

/-- Bind a temporary, keeping the list strictly rising. -/
def bindTemp : List (Nat × Word) → Nat → Word → List (Nat × Word)
  | [], t, v => [(t, v)]
  | (u, w) :: rest, t, v =>
    if t < u then (t, v) :: (u, w) :: rest
    else if t = u then (t, v) :: rest
    else (u, w) :: bindTemp rest t v

/-- The value of a V32 (30_encoding.md R65). -/
def hostValue (m : Master) : HostVal → Option Word
  | .num v => some v
  | .temp t => readTemp m.temps t

/-- The position of a label in a program. -/
def labelPos (program : List HostStmt) (l : Nat) : Option Nat := program.findIdx? fun st => decide (st = .label l)

/-- The master goes on to its next statement. -/
def Master.advance (m : Master) : Master := { m with pos := m.pos + 1 }

/-- The master goes on after a write, with the bus's answer. -/
def Master.afterWrite (m : Master) (a : BusAnswer) : Master := { m with pos := m.pos + 1, answer := some a }

/-- The master goes on after a read, with the bus's answer; the read data is bound if a temporary is named. -/
def Master.afterRead (m : Master) (dst : Option Nat) (a : BusAnswer) : Master :=
  match dst with
  | none => m.afterWrite a
  | some t => { m.afterWrite a with temps := bindTemp m.temps t a.data }

/-- The state with master number n replaced. -/
def State.setMaster (s : State) (n : Nat) (m : Master) : State := { s with masters := s.masters.set n m }

/-- A branch of the host program: to the label if taken, else to the next statement (30_encoding.md R65). -/
def hostBranch (s : State) (n : Nat) (m : Master) (taken : Bool) (l : Nat) : Result :=
  if taken then
    match labelPos m.program l with
    | none => .fault .hostLabelUndefined
    | some target => .next (s.setMaster n { m with pos := target })
  else .next (s.setMaster n m.advance)

/-- One statement of master n (30_encoding.md R65). The accesses of all masters form one sequence in the order of
their turns (20_memory.md R49, R52), and the core cannot tell masters apart. -/
def hostStmt (s : State) (n : Nat) (m : Master) : HostStmt → Result
  | .rd size off dst => .next (s.setMaster n (m.afterRead dst (memRead s size off)))
  | .wr size off v =>
    match hostValue m v with
    | none => .fault .hostTempUnbound
    | some w => .next ((memWrite s size off w).1.setMaster n (m.afterWrite (memWrite s size off w).2))
  | .label _ => .next (s.setMaster n m.advance)
  | .bnz t mask l =>
    match readTemp m.temps t with
    | none => .fault .hostTempUnbound
    | some w => hostBranch s n m (decide (w &&& mask ≠ 0)) l
  | .bz t mask l =>
    match readTemp m.temps t with
    | none => .fault .hostTempUnbound
    | some w => hostBranch s n m (decide (w &&& mask = 0)) l

/-- Master n's turn: one statement of its program; a master that does not exist or has ended its program does
nothing. -/
def masterTurn (n : Nat) (s : State) : Result :=
  match s.masters[n]? with
  | none => .next s
  | some m =>
    match m.program[m.pos]? with
    | none => .next s
    | some st => hostStmt s n m st

/-- A master at the start of a program. -/
def Master.start (program : List HostStmt) : Master := { program := program, pos := 0, temps := [], answer := none }

/-- `wr OFF, V32` (30_encoding.md R65). -/
def hostWr (sl : Slot) (v : Word) : HostStmt := .wr .b32 sl.off (.num v)

/-- `rd OFF` (30_encoding.md R65). -/
def hostRd (sl : Slot) : HostStmt := .rd .b32 sl.off none

/-- `rd OFF -> %t` (30_encoding.md R65). -/
def hostRdTo (sl : Slot) (t : Nat) : HostStmt := .rd .b32 sl.off (some t)

/-- `cmd MNEMONIC [, len=N] [, ksrc=0 or 1]` (30_encoding.md R65). -/
def hostCmd (op len : BitVec 8) (ksrc : BitVec 1) : HostStmt := hostWr .cmd (cmdWord op len ksrc)

/-- `ld256 REG, V`: eight writes, least significant word first (30_encoding.md R66). -/
def ld256 (r : OpReg) (v : U256) : List HostStmt :=
  (List.finRange 8).map fun i => hostWr (.operand r i) (getWord v i.val)

/-- `rd256 REG`: eight reads (30_encoding.md R66). DESIGN CHOICE (log 22): R66's expansion is eight plain `rd`, whose
words it puts nowhere; here they are bound to the eight temporaries from t on, from which `rd256Result` reads them. -/
def rd256 (r : OpReg) (t : Nat) : List HostStmt := (List.finRange 8).map fun i => hostRdTo (.operand r i) (t + i.val)

/-- The result of `rd256`: Σ wordᵢ·2³²ⁱ (30_encoding.md R66). -/
def rd256Value (words : List Word) : Nat := words.foldr (fun w acc => w.toNat + 2 ^ 32 * acc) 0

/-- The result of a master's `rd256` into the temporaries from t on, once all eight are bound (log 22). -/
def rd256Result (m : Master) (t : Nat) : Option Nat :=
  ((List.range 8).mapM fun i => readTemp m.temps (t + i)).map rd256Value

/-- `ld64 S(x,y), V` (30_encoding.md R66). -/
def ld64 (x y : Nat) (v : Lane) : List HostStmt :=
  [hostWr (.lane (laneIndex x y) 0) (getWord v 0), hostWr (.lane (laneIndex x y) 1) (getWord v 1)]

/-- `ldbuf b0 … bn-1`, n ≤ 136: ⌈n/4⌉ writes, missing bytes 0 (30_encoding.md R66). -/
def ldbuf (bytes : List Byte) : List HostStmt :=
  (List.range ((bytes.length + 3) / 4)).map fun w =>
    hostWr (.buf (Fin.ofNat 34 w))
      (busWord (bytes.getD (4 * w) 0) (bytes.getD (4 * w + 1) 0) (bytes.getD (4 * w + 2) 0) (bytes.getD (4 * w + 3) 0))

/-- `wait`, with the label and the temporary it uses: poll STATUS until BUSY = 0, then read STATUS
(30_encoding.md R66). R66 says that this last read must show DONE = 1, and not what a host does where it shows DONE = 0
(another master cleared it, or the core was reset). DESIGN CHOICE (log 22): `wait` does not test DONE; the host goes on
with the word in its temporary. -/
def wait (l t : Nat) : List HostStmt := [.label l, hostRdTo .status t, .bnz t 0x1#32 l, hostRdTo .status t]

/-- `ack`: clear DONE, ERR and WIGN (30_encoding.md R66). -/
def ack : List HostStmt := [hostWr .status 0x16#32]

/-- `check`: read ERRCODE into a temporary (30_encoding.md R66). R66 has the program treat a word ≠ 0 as failure, and does
not say how. DESIGN CHOICE (log 22): `check` only reads; the host goes on, and a program that acts on the word does so by
a branch of its own. -/
def check (t : Nat) : List HostStmt := [hostRdTo .errcode t]

end Sys2Proof.Machine
end

