-- ==== Sys2Proof/Machine/Step.lean ====
section
/-! DEFINITION. One step of the machine: the agent whose turn it is moves (00_scope.md R3). -/

namespace Sys2Proof.Machine

/-- One step: a turn is taken, and its agent moves. Every host access, every completion and every reset is one atomic
event, in one order (20_memory.md R46, R49, R50). -/
def step (s : State) : Host.Outcome State Fault Refusal :=
  match nextTurn s with
  | .master n => masterTurn n (takeTurn s)
  | .engine => engineTurn (takeTurn s)
  | .reset => .next (resetCore (takeTurn s))

/-- The state in which the very next step performs the given command word (log 4): the core has accepted it
(60_exceptions.md R121), and the engine's turn is next. -/
def State.withFetchWord (s : State) (nbits w : Nat) : State :=
  { accept (BitVec.ofNat 32 (w % 2 ^ nbits)) s with turns := .engine :: s.turns }

end Sys2Proof.Machine
end

