-- ==== Sys2Proof/Safety.lean ====
section
/-! DEFINITION. The terms the statements are made in: how a command completed and what it left alone, the invariant of
the lifecycle, curves and signatures as mathematics, and the reference hash of a whole message. -/

namespace Sys2Proof.Safety

open Sys2Proof.Machine

/-- The command completed with the given code, and RESULT is as given (60_exceptions.md R122). -/
def Completed (t : State) (code : ErrCode) (result : Bool) : Prop :=
  t.errcode = code ∧ t.err = decide (code ≠ .noError) ∧ t.result = result ∧ t.running = none ∧ t.done = true

/-- A part of the core that some command writes (20_memory.md R48). -/
inductive Part where
  | reg (r : OpReg)
  | rinf
  | lanes
  | digest
  | attempts
  deriving DecidableEq, Repr

/-- What no command writes: the parameters, CTRL, WIGN, P1INF, P2INF, BUF and the agents outside the core. -/
def SameOutside (s t : State) : Prop :=
  t.params = s.params ∧ t.ie = s.ie ∧ t.wign = s.wign ∧ t.p1inf = s.p1inf ∧ t.p2inf = s.p2inf ∧ t.buf = s.buf ∧
    t.masters = s.masters ∧ t.turns = s.turns ∧ t.fresh = s.fresh

/-- Apart from ERRCODE and STATUS.BUSY, DONE, ERR, RESULT, the state `t` differs from `s` in the given parts at
most. -/
def OnlyWrites (s t : State) (parts : List Part) : Prop :=
  SameOutside s t ∧ (∀ r, .reg r ∉ parts → t.reg r = s.reg r) ∧ (.rinf ∉ parts → t.rinf = s.rinf) ∧
    (.lanes ∉ parts → t.lanes = s.lanes) ∧ (.digest ∉ parts → t.digest = s.digest) ∧
    (.attempts ∉ parts → t.attempts = s.attempts)

/-- The write set of a command (20_memory.md R48). -/
def writeParts : Instr → List Part
  | .modmul => [.reg .z]
  | .modinv => [.reg .z]
  | .padd => [.reg .rx, .reg .ry, .rinf]
  | .pdbl => [.reg .rx, .reg .ry, .rinf]
  | .pmul => [.reg .rx, .reg .ry, .rinf]
  | .keccakf => [.lanes]
  | .hinit => [.lanes]
  | .habsorb => [.lanes]
  | .hfinal _ => [.lanes, .digest, .reg .h]
  | .sign _ => [.reg .sr, .reg .ss, .reg .e, .attempts]
  | .verify => [.reg .e]

/-- The command ended with an error and wrote nothing (60_exceptions.md R123). -/
def EndsWithError (i : Instr) (s : State) (code : ErrCode) : Prop :=
  ∃ t, exec i s = .next t ∧ Completed t code false ∧ OnlyWrites s t []

/-- The codes a command can complete with (60_exceptions.md R119, column "raised by"). -/
def codesOf : Instr → List ErrCode
  | .modmul => [.noError, .range]
  | .modinv => [.noError, .range, .notInvertible]
  | .padd => [.noError, .range, .notInvertible]
  | .pdbl => [.noError, .range, .notInvertible]
  | .pmul => [.noError, .range, .notInvertible, .scalarZero]
  | .keccakf => [.noError]
  | .hinit => [.noError]
  | .habsorb => [.noError]
  | .hfinal len => if len.toNat ≤ 135 then [.noError] else [.illegalCmd]
  | .sign .entropy => [.noError, .range, .notInvertible, .retryLimit]
  | .sign .registerK => [.noError, .range, .notInvertible, .nonceRejected]
  | .verify => [.noError, .range, .notInvertible, .scalarZero, .malformedSignature]

/-- An offset that 20_memory.md R33 and R34 reserve, or that R38 calls misaligned. -/
def NotServed (o : Nat) : Prop :=
  o % 4 ≠ 0 ∨ (0x020 ≤ o ∧ o < 0x100) ∨ (0x4C8 ≤ o ∧ o < 0x500) ∨ (0x588 ≤ o ∧ o < 0x600) ∨ 0x620 ≤ o

/-- The offset a number names. -/
def offsetOf (n : Nat) : Offset := BitVec.ofNat 12 n

/-- The outcome with its next state mapped. -/
def mapNext (f : State → State) : Result → Result
  | .next s => .next (f s)
  | .fault r => .fault r
  | .refused r => .refused r

/-- The invariant of the command lifecycle (20_memory.md R48; 10_state.md R15, R18; 60_exceptions.md R121, R122):
while a command runs, DONE, ERR, RESULT and ERRCODE are 0; ERR tells of an error and RESULT of none; ATTEMPTS is at
most MAX_ATTEMPTS. And every master's bound temporaries are in their one order. -/
def Inv (s : State) : Prop :=
  (s.busy = true → s.done = false ∧ s.err = false ∧ s.result = false ∧ s.errcode = .noError) ∧
    (s.err = true → s.errcode ≠ .noError) ∧ (s.result = true → s.errcode = .noError) ∧
    s.attempts.toNat ≤ s.params.maxAttempts ∧
    ∀ m ∈ s.masters, m.temps.Pairwise fun x y => x.1 < y.1

/-- The master's program holds, at position `p`, the `wait` of 30_encoding.md R66 with label `l` and temporary `t`, and
`l` names that position. -/
def HoldsWait (m : Master) (p l t : Nat) : Prop :=
  (∃ pre post, m.program = pre ++ wait l t ++ post ∧ pre.length = p) ∧ labelPos m.program l = some p

/-- Within `k` steps master `n` comes to stand right behind the `wait` at position `p`; or, where there is more than one
master, a faulty program stops the run. -/
def WaitEndsWithin (s : State) (n p k : Nat) : Prop :=
  ∃ j, j ≤ k ∧
    ((∃ u m, Host.Core.run Sys2Proof.core j s = .next u ∧ u.masters[n]? = some m ∧ m.pos = p + 4) ∨
      (1 < s.masters.length ∧ ∃ f, Host.Core.run Sys2Proof.core j s = .fault f))

/-- The point lies on y² = x³ + a·x + b mod p, with reduced coordinates (00_scope.md R11, 6). -/
def OnCurve (p a b : Nat) : Point → Prop
  | .infinity => True
  | .affine x y => x < p ∧ y < p ∧ y * y % p = (x * x * x + a * x + b) % p

/-- (rx, ry) is the third point of the chord or tangent of slope lam through (x1, y1) and a point with abscissa x2,
mirrored (41_ecc.md R76, its last lines), as congruences mod p. -/
def IsSumBy (p : Nat) (lam : Int) (x1 y1 x2 rx ry : Nat) : Prop :=
  rx < p ∧ ry < p ∧ (rx : Int) ≡ lam * lam - x1 - x2 [ZMOD p] ∧ (ry : Int) ≡ lam * (x1 - rx) - y1 [ZMOD p]

/-- Scalar multiplication as the left-to-right loop over the binary digits of k of 41_ecc.md R83. -/
def scalarMulLoop (p a : Nat) (P : Point) (k : Nat) : Except ErrCode Point :=
  (List.range (Nat.log2 k)).reverse.foldlM
    (fun R i => do
      let X ← pointAdd p a R R
      if k.testBit i then pointAdd p a X P else .ok X) P

/-- The result point R of a state (10_state.md R20, R21). -/
def resultPoint (t : State) : Point := t.point t.rinf .rx .ry

/-- Items 1 to 4 of the signing-context checks hold (44_ecdsa.md R109). -/
def SignContext (s : State) : Prop :=
  3 ≤ s.num .cp ∧ 2 ≤ s.num .cq ∧ s.num .gx < s.num .cp ∧ s.num .gy < s.num .cp ∧
    1 ≤ s.num .d ∧ s.num .d < s.num .cq

/-- The checks of VERIFY hold (44_ecdsa.md R113). -/
def VerifyContext (s : State) : Prop :=
  3 ≤ s.num .cp ∧ 2 ≤ s.num .cq ∧ s.num .gx < s.num .cp ∧ s.num .gy < s.num .cp ∧
    s.num .qx < s.num .cp ∧ s.num .qy < s.num .cp ∧
    1 ≤ s.num .sr ∧ s.num .sr < s.num .cq ∧ 1 ≤ s.num .ss ∧ s.num .ss < s.num .cq

/-- The reduced digest of 44_ecdsa.md R108 for the state's H and q. -/
def digestOf (s : State) : Nat := if s.num .h % s.num .cq = 0 then 1 else s.num .h % s.num .cq

/-- s = (r·d + k·e) mod q (44_ecdsa.md R111). -/
def sigOf (s : State) (r k : Nat) : Nat := (r * s.num .d + k * digestOf s) % s.num .cq

/-- The nonce k gives the signature (r, sig) (44_ecdsa.md R111). -/
def SignsWith (s : State) (k r sig : Nat) : Prop :=
  (∃ x y, scalarMulLoop (s.num .cp) (s.num .ca) s.basePoint k = .ok (.affine x y) ∧ r = x % s.num .cq) ∧
    r ≠ 0 ∧ sig = sigOf s r k ∧ sig ≠ 0

/-- The nonce k is rejected: R = O, r = 0 or s = 0 (44_ecdsa.md R111, R112). -/
def Rejects (s : State) (k : Nat) : Prop :=
  scalarMulLoop (s.num .cp) (s.num .ca) s.basePoint k = .ok .infinity ∨
    ∃ x y, scalarMulLoop (s.num .cp) (s.num .ca) s.basePoint k = .ok (.affine x y) ∧
      (x % s.num .cq = 0 ∨ sigOf s (x % s.num .cq) k = 0)

/-- The padding of a whole message in DOC0's hashFile (43_sponge.md R101, R106): append 0x01; if that is not a multiple
of 136, fill with zeros to the next multiple and XOR 0x80 into the final byte. -/
def padMessage (N : List Byte) : List Byte :=
  let b := N ++ [0x01#8]
  if b.length % 136 ≠ 0 then
    let z := b ++ List.replicate (136 - b.length % 136) 0x00#8
    z.set (z.length - 1) (z.getD (z.length - 1) 0 ^^^ 0x80#8)
  else b

/-- Absorb the first n blocks of a buffer, one after another (43_sponge.md R106). -/
def absorbBlocks (P : Params) : Nat → List Byte → Lanes → Lanes
  | 0, _, S => S
  | n + 1, bytes, S => absorbBlocks P n (bytes.drop 136) (absorb P S (bytes.take 136))

/-- DOC0's `hashFile` of a message (43_sponge.md R106): pad, absorb every block from the zero state, squeeze, read the
digest integer. -/
def hashFile (P : Params) (N : List Byte) : U256 :=
  digestInt (squeeze P (absorbBlocks P ((padMessage N).length / 136) (padMessage N) (Vector.replicate 25 0))).1

/-- BUF after the host wrote the given bytes from BUF[0] on: the rest keeps what it held (43_sponge.md R105). -/
def loadBuf (bytes : List Byte) (b : Vector Byte 136) : Vector Byte 136 :=
  Vector.ofFn fun i => if i.val < bytes.length then bytes.getD i.val 0 else b[i]

/-- Step 2 of 43_sponge.md R105: each of the next n full blocks is written to BUF and absorbed by HABSORB. It answers
none if a command does not complete without error. -/
def streamBlocks : Nat → List Byte → State → Option State
  | 0, _, s => some s
  | n + 1, bytes, s =>
    match exec .habsorb { s with buf := loadBuf (bytes.take 136) s.buf } with
    | .next t => if t.errcode = .noError then streamBlocks n (bytes.drop 136) t else none
    | _ => none

/-- 43_sponge.md R105: HINIT, the full blocks, and HFINAL with the remaining bytes. -/
def streamMessage (N : List Byte) (s : State) : Option State :=
  match exec .hinit s with
  | .next t =>
    match streamBlocks (N.length / 136) N t with
    | none => none
    | some u =>
      let tail := N.drop (136 * (N.length / 136))
      match exec (.hfinal (BitVec.ofNat 8 (N.length % 136))) { u with buf := loadBuf tail u.buf } with
      | .next v => if v.errcode = .noError then some v else none
      | _ => none
  | _ => none

end Sys2Proof.Safety
end

