-- ==== Sys2Proof/Certificates/Slice0/Obligations.lean ====
section
/-! DEFINITION. The statements for the provers. -/

open Sys2Proof Sys2Proof.Machine Sys2Proof.Safety

/-! ### Encoding -/

/-- 30_encoding.md R59: a word decodes to a command exactly if it is legal; an illegal word is still accepted by an
idle core, and its completion has the code ILLEGAL_CMD and no other effect. -/
def Obligations.IllegalWordsAreAcceptedAndRejected : Prop :=
  (∀ w : Word, (∃ i, decode w = .ok i) ↔ legal w) ∧
  ∀ (s : State) (w : Word), ¬ legal w → s.busy = false →
    (∃ t, memWrite s .b32 (offsetOf 0x00C) w = (t, busOkay 0) ∧ t.running = some w ∧ OnlyWrites s t []) ∧
    ∀ u : State, u.running = some w →
      ∃ t, engineTurn u = .next t ∧ Completed t .illegalCmd false ∧ OnlyWrites u t []

/-- Decoding the encoding of a well-formed command gives the command back, at every value of LEN and KSRC. -/
def Obligations.DecodeAfterEncode : Prop :=
  ∀ i : Instr, i.wellFormed = true → decode (encode i) = .ok i

/-- Each legal word has one meaning: what a word decodes to is well formed and encodes to that word. -/
def Obligations.EncodeAfterDecode : Prop :=
  ∀ (w : Word) (i : Instr), decode w = .ok i → i.wellFormed = true ∧ encode i = w

/-- 30_encoding.md R58: the eleven operation codes, and that every other operation code is unassigned. -/
def Obligations.OperationCodes : Prop :=
  decode 0x00000001#32 = .ok .modmul ∧ decode 0x00000002#32 = .ok .modinv ∧ decode 0x00000003#32 = .ok .padd ∧
  decode 0x00000004#32 = .ok .pdbl ∧ decode 0x00000005#32 = .ok .pmul ∧ decode 0x00000006#32 = .ok .keccakf ∧
  decode 0x00000007#32 = .ok .hinit ∧ decode 0x00000008#32 = .ok .habsorb ∧
  decode 0x00000309#32 = .ok (.hfinal 3#8) ∧ decode 0x0000000A#32 = .ok (.sign .entropy) ∧
  decode 0x0001000A#32 = .ok (.sign .registerK) ∧ decode 0x0000000B#32 = .ok .verify ∧
  ∀ w : Word, w.toNat % 256 = 0 ∨ 0x0C ≤ w.toNat % 256 → ∀ i, decode w ≠ .ok i

/-! ### The step and the lifecycle -/

/-- On the engine's turn, a step of a state whose latched word decodes to a command is that command's completion, on
the state from which the turn has been taken; on an idle core it takes the turn and nothing else; and the state
`withFetchWord` places a word in runs it in the very next step. -/
def Obligations.StepRunsTheLatchedCommand : Prop :=
  (∀ (s : State) (w : Word) (i : Instr), nextTurn s = .engine → s.running = some w → decode w = .ok i →
    step s = exec i (takeTurn s)) ∧
  (∀ s : State, nextTurn s = .engine → s.running = none → step s = .next (takeTurn s)) ∧
  ∀ (s : State) (w : Nat) (i : Instr), w < 2 ^ 32 → decode (BitVec.ofNat 32 w) = .ok i →
    step (s.withFetchWord 32 w) = exec i { accept (BitVec.ofNat 32 w) s with fresh := s.fresh + 1 }

/-- 60_exceptions.md R121: an idle core accepts every word written to CMD: it is latched, BUSY rises, DONE, ERR, RESULT
and ERRCODE are cleared, WIGN is unchanged, and nothing else changes; from then on every write to a slot other than
CTRL and STATUS is ignored. -/
def Obligations.AcceptanceOfEveryWord : Prop :=
  ∀ (s : State) (w : Word), s.busy = false →
    ∃ t, memWrite s .b32 (offsetOf 0x00C) w = (t, busOkay 0) ∧
      t.running = some w ∧ t.busy = true ∧ t.done = false ∧ t.err = false ∧ t.result = false ∧
      t.errcode = .noError ∧ t.wign = s.wign ∧ OnlyWrites s t [] ∧
      ∀ (off : Offset) (v : Word), ¬ NotServed off.toNat → off.toNat ≠ 0x004 → off.toNat ≠ 0x008 →
        memWrite t .b32 off v = ({ t with wign := true }, busOkay 0)

/-- 20_memory.md R47: while BUSY = 1 a write to any served offset other than CTRL and STATUS returns OKAY, sets WIGN and
changes nothing else. -/
def Obligations.BusyWritesAreDropped : Prop :=
  ∀ (s : State) (off : Offset) (v : Word), s.busy = true → ¬ NotServed off.toNat → off.toNat ≠ 0x004 →
    off.toNat ≠ 0x008 → memWrite s .b32 off v = ({ s with wign := true }, busOkay 0)

/-- While a command runs, no host access changes what the command reads or will be told by: the operand registers, S,
BUF, DIGEST, PFLAGS, ATTEMPTS, ERRCODE, RESULT and the latched word. -/
def Obligations.OperandsAreFrozenWhileBusy : Prop :=
  ∀ (s t : State) (n : Nat), s.busy = true → nextTurn s = .master n → step s = .next t →
    t.running = s.running ∧ t.operands = s.operands ∧ t.lanes = s.lanes ∧ t.buf = s.buf ∧ t.digest = s.digest ∧
    t.p1inf = s.p1inf ∧ t.p2inf = s.p2inf ∧ t.rinf = s.rinf ∧ t.attempts = s.attempts ∧ t.errcode = s.errcode ∧
    t.result = s.result ∧ t.params = s.params

/-- Every command completes in one step from every state, whatever the operands: BUSY falls, DONE rises, ERR tells
whether the code is not NONE, and RESULT can be 1 only after a VERIFY that completed without error. -/
def Obligations.EveryCommandCompletes : Prop :=
  ∀ (i : Instr) (s : State), ∃ t, exec i s = .next t ∧ Completed t t.errcode t.result ∧
    (t.result = true → i = .verify ∧ t.errcode = .noError)

/-- A running command completes at the latest when the placed turns are used up (or the core is reset, or a host
program stops the run): no schedule keeps a command running for ever. And a `wait` ends (30_encoding.md R66): no other
agent moves a master; a master in a `wait` goes from the label to the poll of STATUS, from there to the branch, back to
the label exactly if the word it read shows BUSY = 1, and else over the last read; so master 0 gets behind its `wait`
soon after the placed turns are used up, and any master does that gets five turns on end after one of the engine's. (That
turns are placed, and that the engine and master 0 move when none is left, is the model's choice: log 5.) -/
def Obligations.RunningCommandEventuallyCompletes : Prop :=
  (∀ s : State, s.busy = true → ∃ n, n ≤ s.turns.length + 1 ∧
    ((∃ t, Host.Core.run Sys2Proof.core n s = .next t ∧ State.busy t = false) ∨
      ∃ f, Host.Core.run Sys2Proof.core n s = .fault f)) ∧
  (∀ (s u : State) (n : Nat), step s = .next u → nextTurn s ≠ .master n → u.masters[n]? = s.masters[n]?) ∧
  (∀ (s : State) (n : Nat) (m : Master) (p l t : Nat), nextTurn s = .master n → s.masters[n]? = some m →
    HoldsWait m p l t →
    (m.pos = p → ∃ u, step s = .next u ∧ u.masters[n]? = some { m with pos := p + 1 }) ∧
    (m.pos = p + 1 ∨ m.pos = p + 3 → ∃ u m', step s = .next u ∧ u.masters[n]? = some m' ∧ m'.program = m.program ∧
      m'.pos = m.pos + 1 ∧ readTemp m'.temps t = some (statusWord s)) ∧
    ∀ w, m.pos = p + 2 → readTemp m.temps t = some w → ∃ u, step s = .next u ∧
      u.masters[n]? = some { m with pos := if w.getLsbD 0 then p else p + 3 }) ∧
  (∀ (s : State) (m : Master) (p l t : Nat), s.masters[0]? = some m → HoldsWait m p l t → m.pos = p →
    WaitEndsWithin s 0 p (s.turns.length + 6)) ∧
  ∀ (s : State) (n : Nat) (m : Master) (p l t : Nat) (before rest : List Turn), s.masters[n]? = some m →
    HoldsWait m p l t → m.pos = p → s.turns = before ++ .engine :: (List.replicate 5 (.master n) ++ rest) →
    WaitEndsWithin s n p (before.length + 6)

/-- 60_exceptions.md R123: a command that ends with an error writes none of its outputs; SIGN's ATTEMPTS is the one
exception. COMPLETE with the error's code follows. -/
def Obligations.ErrorsWriteNoOutput : Prop :=
  ∀ (i : Instr) (s t : State), exec i s = .next t → t.errcode ≠ .noError →
    Completed t t.errcode false ∧ OnlyWrites s t [.attempts] ∧ ((∀ k, i ≠ .sign k) → OnlyWrites s t [])

/-- The frame of every command: it changes its write set, STATUS and ERRCODE, and nothing else, neither in the
registers nor as read through the window. -/
def Obligations.CommandsChangeOnlyTheirWriteSet : Prop :=
  ∀ (i : Instr) (s t : State), exec i s = .next t →
    OnlyWrites s t (writeParts i) ∧
    ∀ sl : Slot, writesSlot i sl = false → sl ≠ .status → sl ≠ .errcode → slotWord t sl = slotWord s sl

/-- The codes each command can complete with (60_exceptions.md, table of error codes), and their numbers. -/
def Obligations.ErrorCodesByCommand : Prop :=
  (∀ (i : Instr) (s t : State), exec i s = .next t → t.errcode ∈ codesOf i) ∧
  ([ErrCode.noError, .illegalCmd, .range, .notInvertible, .scalarZero, .malformedSignature, .nonceRejected,
    .retryLimit].map fun c => c.code.toNat) = [0, 1, 2, 3, 4, 5, 6, 7]

/-- A register in neither the read set nor the write set of a command has no influence on it and is carried through
it unchanged. For SIGN with the entropy source this is for the same draws on both sides: that a draw does not depend on
what the registers hold is the model's choice (log 1). -/
def Obligations.UnreadRegistersHaveNoInfluence : Prop :=
  ∀ (i : Instr) (r : OpReg) (v : U256) (s : State), readsReg i r = false → writesReg i r = false →
    exec i (s.setReg r v) = mapNext (fun t => t.setReg r v) (exec i s)

/-- 10_state.md R25: E is read-only to the host, host writes to it are ignored (no host write anywhere changes it), and
only the successful completion of SIGN or VERIFY writes it. -/
def Obligations.EIsWrittenOnlyBySuccess : Prop :=
  (∀ (s : State) (j : Nat) (v : Word), j < 8 → s.busy = false →
    memWrite s .b32 (offsetOf (0x100 + 0x20 * 22 + 4 * j)) v = (s, busOkay 0)) ∧
  (∀ (s : State) (size : AccessSize) (off : Offset) (v : Word), (memWrite s size off v).1.reg .e = s.reg .e) ∧
  ∀ (i : Instr) (s t : State), exec i s = .next t → t.reg .e ≠ s.reg .e →
    t.errcode = .noError ∧ ((∃ k, i = .sign k) ∨ i = .verify)

/-! ### The window -/

/-- 20_memory.md R34, R35, R38: an access to a reserved or misaligned offset, or of a width other than 32 bits, is
answered BUSERR; a read returns 0, and a write changes no state, WIGN included. -/
def Obligations.BadAccessesDoNothing : Prop :=
  ∀ (s : State) (size : AccessSize) (off : Offset) (v : Word), size ≠ .b32 ∨ NotServed off.toNat →
    memRead s size off = ⟨0, .buserr⟩ ∧ memWrite s size off v = (s, ⟨0, .buserr⟩)

/-- The window's map: every slot stands at its own offset, every offset that is neither reserved nor misaligned holds
exactly one slot, every 32-bit access to it is answered OKAY, and host addresses and offsets correspond. -/
def Obligations.WindowMapIsOneToOne : Prop :=
  (∀ sl : Slot, slotAt sl.off = some sl) ∧
  (∀ (off : Offset) (sl : Slot), slotAt off = some sl → off.toNat = slotOffset sl) ∧
  (∀ off : Offset, slotAt off = none ↔ NotServed off.toNat) ∧
  (∀ (s : State) (off : Offset) (v : Word), ¬ NotServed off.toNat →
    (memRead s .b32 off).resp = .okay ∧ (memWrite s .b32 off v).2.resp = .okay) ∧
  ∀ off : Offset, windowOffset (hostAddress off) = some off

/-- 20_memory.md R40: word i of operand register n stands at 0x100 + 0x20·n + 4·i and is bits [32i+31:32i] of its value;
writing word i replaces exactly those bits and leaves the other words unchanged. (E ignores writes and D reads 0:
10_state.md R25, R23.) -/
def Obligations.OperandWordLayout : Prop :=
  ∀ (s : State) (r : OpReg) (i : Nat) (v : Word), i < 8 → s.busy = false →
    (r ≠ .d → memRead s .b32 (offsetOf (0x100 + 0x20 * r.index.val + 4 * i)) =
      ⟨(s.reg r).extractLsb' (32 * i) 32, .okay⟩) ∧
    (r ≠ .e → ∃ t, memWrite s .b32 (offsetOf (0x100 + 0x20 * r.index.val + 4 * i)) v = (t, ⟨0, .okay⟩) ∧
      (t.reg r).extractLsb' (32 * i) 32 = v ∧
      (∀ j, j < 8 → j ≠ i → (t.reg r).extractLsb' (32 * j) 32 = (s.reg r).extractLsb' (32 * j) 32) ∧
      OnlyWrites s t [.reg r] ∧ t.running = s.running ∧ t.done = s.done ∧ t.err = s.err ∧ t.result = s.result ∧
      t.errcode = s.errcode)

/-- The private scalar does not leak through the host's read path: every word of D reads 0 with an OKAY response, busy or
idle; and no read, of any width and at any offset, depends on D, but for a read inside the write set of a running
command, which the spec leaves open (log 2). -/
def Obligations.PrivateScalarIsNotReadable : Prop :=
  (∀ (s : State) (i : Nat), i < 8 → memRead s .b32 (offsetOf (0x300 + 4 * i)) = ⟨0, .okay⟩) ∧
  ∀ (s : State) (v : U256) (size : AccessSize) (off : Offset),
    (s.busy = false ∨ ∀ sl w i, slotAt off = some sl → s.running = some w → decode w = .ok i →
      writesSlot i sl = false) →
    memRead (s.setReg .d v) size off = memRead s size off

/-- 20_memory.md R41: lane S[x][y] is at 0x400 + 8·(x + 5y), its low word there and its high word at +4; on an idle core
each reads as it stands, and a write replaces that word of that lane alone. -/
def Obligations.LaneLayout : Prop :=
  ∀ (s : State) (x y hi : Nat) (v : Word), x < 5 → y < 5 → hi < 2 → s.busy = false →
    memRead s .b32 (offsetOf (0x400 + 8 * (x + 5 * y) + 4 * hi)) =
      ⟨(laneAt s.lanes x y).extractLsb' (32 * hi) 32, .okay⟩ ∧
    ∃ t, memWrite s .b32 (offsetOf (0x400 + 8 * (x + 5 * y) + 4 * hi)) v = (t, ⟨0, .okay⟩) ∧
      (laneAt t.lanes x y).extractLsb' (32 * hi) 32 = v ∧
      (laneAt t.lanes x y).extractLsb' (32 * (1 - hi)) 32 = (laneAt s.lanes x y).extractLsb' (32 * (1 - hi)) 32 ∧
      (∀ x' y', x' < 5 → y' < 5 → (x', y') ≠ (x, y) → laneAt t.lanes x' y' = laneAt s.lanes x' y') ∧
      t = { s with lanes := t.lanes }

/-- 20_memory.md section 4, R42 (the spec derives it from R39): BUF byte i is at 0x500 + i: the word at 0x500 + 4w packs BUF[4w] to BUF[4w+3], the first least
significant; and a write to it stores its bytes there and changes no other byte. -/
def Obligations.BufferByteLayout : Prop :=
  ∀ (s : State) (w : Nat) (v : Word) (hw : w < 34), s.busy = false →
    memRead s .b32 (offsetOf (0x500 + 4 * w)) =
      ⟨BitVec.ofNat 32 (s.buf[4 * w].toNat + s.buf[4 * w + 1].toNat * 2 ^ 8 + s.buf[4 * w + 2].toNat * 2 ^ 16 +
        s.buf[4 * w + 3].toNat * 2 ^ 24), .okay⟩ ∧
    ∃ t, memWrite s .b32 (offsetOf (0x500 + 4 * w)) v = (t, ⟨0, .okay⟩) ∧
      (∀ (i : Nat) (hi : i < 136), t.buf[i] =
        if i / 4 = w then BitVec.ofNat 8 (v.toNat / 2 ^ (8 * (i % 4))) else s.buf[i]) ∧
      t = { s with buf := t.buf }

/-- 20_memory.md section 4, R43 (the spec derives it; the byte order of H is its own inference, log 14): DIGEST byte i is
at 0x600 + i with BUF's packing, and after an HFINAL the image of H equals that of DIGEST but for bit 7 of byte 31,
which is 0 in H. -/
def Obligations.DigestImageEqualsH : Prop :=
  (∀ (s : State) (w : Nat) (hw : w < 8), s.busy = false →
    memRead s .b32 (offsetOf (0x600 + 4 * w)) =
      ⟨BitVec.ofNat 32 (s.digest[4 * w].toNat + s.digest[4 * w + 1].toNat * 2 ^ 8 +
        s.digest[4 * w + 2].toNat * 2 ^ 16 + s.digest[4 * w + 3].toNat * 2 ^ 24), .okay⟩) ∧
  ∀ (s t : State) (len : BitVec 8), len.toNat ≤ 135 → exec (.hfinal len) s = .next t →
    (∀ w, w < 7 → memRead t .b32 (offsetOf (0x3E0 + 4 * w)) = memRead t .b32 (offsetOf (0x600 + 4 * w))) ∧
    (memRead t .b32 (offsetOf 0x3FC)).data = (memRead t .b32 (offsetOf 0x61C)).data &&& 0x7FFFFFFF#32

/-- A write to STATUS, whether or not a command runs, clears DONE, ERR and WIGN where bit 1, 2, 4 of the word is 1, and
changes nothing else: BUSY and RESULT ignore it. -/
def Obligations.StatusIsWriteOneToClear : Prop :=
  ∀ (s : State) (w : Word), ∃ t, memWrite s .b32 (offsetOf 0x008) w = (t, ⟨0, .okay⟩) ∧
    t.done = (s.done && !w.getLsbD 1) ∧ t.err = (s.err && !w.getLsbD 2) ∧ t.wign = (s.wign && !w.getLsbD 4) ∧
    t = { s with done := t.done, err := t.err, wign := t.wign }

/-- 10_state.md R30: reserved bits of CTRL, STATUS, ERRCODE, ATTEMPTS, CFG and PFLAGS read as 0 and ignore writes, a write
to CTRL or PFLAGS changes only its writable bits, and an idle core's read-only registers ignore writes with OKAY. And what
the control and status registers read on an idle core, bit by bit (10_state.md section 2). -/
def Obligations.ReservedBitsAndReadOnlyRegisters : Prop :=
  (∀ s : State, (ctrlWord s).toNat < 2 ∧ (statusWord s).toNat < 32 ∧ (errcodeWord s).toNat < 8 ∧
    (attemptsWord s).toNat < 65536 ∧ (cfgWord s).toNat < 65536 ∧ (pflagsWord s).toNat < 8) ∧
  (∀ (s : State) (v : Word), ∃ t, memWrite s .b32 (offsetOf 0x004) v = (t, ⟨0, .okay⟩) ∧
    t = { s with ie := v.getLsbD 0 }) ∧
  (∀ (s : State) (v : Word), s.busy = false → ∃ t, memWrite s .b32 (offsetOf 0x01C) v = (t, ⟨0, .okay⟩) ∧
    t = { s with p1inf := v.getLsbD 0, p2inf := v.getLsbD 1, rinf := v.getLsbD 2 }) ∧
  (∀ (s : State) (v : Word), ∃ t, memWrite s .b32 (offsetOf 0x008) v = (t, ⟨0, .okay⟩) ∧
    t = { s with done := t.done, err := t.err, wign := t.wign }) ∧
  (∀ (s : State) (off : Offset) (v : Word), s.busy = false → ¬ NotServed off.toNat →
    (off.toNat = 0x000 ∨ off.toNat = 0x010 ∨ off.toNat = 0x014 ∨ off.toNat = 0x018 ∨
      (0x3C0 ≤ off.toNat ∧ off.toNat < 0x3E0) ∨ 0x600 ≤ off.toNat) →
    memWrite s .b32 off v = (s, ⟨0, .okay⟩)) ∧
  ∀ s : State, s.busy = false →
    memRead s .b32 (offsetOf 0x000) = ⟨0x45445331#32, .okay⟩ ∧
    memRead s .b32 (offsetOf 0x004) = ⟨BitVec.ofNat 32 s.ie.toNat, .okay⟩ ∧
    memRead s .b32 (offsetOf 0x008) =
      ⟨BitVec.ofNat 32 (2 * s.done.toNat + 4 * s.err.toNat + 8 * s.result.toNat + 16 * s.wign.toNat), .okay⟩ ∧
    memRead s .b32 (offsetOf 0x00C) = ⟨0, .okay⟩ ∧
    memRead s .b32 (offsetOf 0x010) = ⟨BitVec.ofNat 32 s.errcode.code.toNat, .okay⟩ ∧
    memRead s .b32 (offsetOf 0x014) = ⟨BitVec.ofNat 32 s.attempts.toNat, .okay⟩ ∧
    memRead s .b32 (offsetOf 0x018) = ⟨BitVec.ofNat 32 s.params.maxAttempts, .okay⟩ ∧
    memRead s .b32 (offsetOf 0x01C) =
      ⟨BitVec.ofNat 32 (s.p1inf.toNat + 2 * s.p2inf.toNat + 4 * s.rinf.toNat), .okay⟩

/-- 20_memory.md section 5, last paragraph of R48: while BUSY = 1, STATUS reads BUSY = 1 and WIGN as it stands with the other bits 0, ERRCODE reads 0, and every served
word outside the running command's write set reads its current value. The premise is the lifecycle's invariant. -/
def Obligations.ReadsWhileBusy : Prop :=
  ∀ s : State, Inv s → s.busy = true →
    memRead s .b32 (offsetOf 0x008) = ⟨if s.wign then 0x11#32 else 0x01#32, .okay⟩ ∧
    memRead s .b32 (offsetOf 0x010) = ⟨0, .okay⟩ ∧
    ∀ (off : Offset) (sl : Slot) (w : Word), slotAt off = some sl → s.running = some w →
      (∀ i, decode w = .ok i → writesSlot i sl = false) → memRead s .b32 off = ⟨slotWord s sl, .okay⟩

/-- A read has no side effect: the step in which a bus master reads changes that master, the coming turns and the index
of the free values, and nothing of the core. -/
def Obligations.ReadsHaveNoSideEffect : Prop :=
  ∀ (s : State) (n : Nat) (m : Master) (size : AccessSize) (off : Offset) (dst : Option Nat),
    nextTurn s = .master n → s.masters[n]? = some m → m.program[m.pos]? = some (.rd size off dst) →
    ∃ m', m'.answer = some (memRead (takeTurn s) size off) ∧ m'.pos = m.pos + 1 ∧ m'.program = m.program ∧
      step s = .next { s with masters := s.masters.set n m', turns := s.turns.tail, fresh := s.fresh + 1 }

/-- 10_state.md R31: IRQ = CTRL.IE ∧ STATUS.DONE, 0 at reset: so every completion, with an error too, raises it exactly if
IE = 1, and writing 1 to STATUS bit 1, or the acceptance of the next command, lowers it. -/
def Obligations.InterruptFollowsDone : Prop :=
  (∀ s : State, irq s = true ↔ s.ie = true ∧ s.done = true) ∧ irq State.reset = false ∧
  (∀ (i : Instr) (s t : State), exec i s = .next t → irq t = s.ie) ∧
  (∀ (s : State) (w : Word), w.getLsbD 1 = true → irq (memWrite s .b32 (offsetOf 0x008) w).1 = false) ∧
  ∀ (s : State) (w : Word), s.busy = false → irq (memWrite s .b32 (offsetOf 0x00C) w).1 = false

/-! ### Reset and invariants -/

/-- 70_reset_and_hazards.md R134, R135: the values of every register after reset, whatever the core was doing; a running
command is abandoned. -/
def Obligations.ResetValues : Prop :=
  ∀ s : State, nextTurn s = .reset → ∃ t, step s = .next t ∧
    memRead t .b32 (offsetOf 0x000) = ⟨0x45445331#32, .okay⟩ ∧ ctrlWord t = 0 ∧ statusWord t = 0 ∧
    memRead t .b32 (offsetOf 0x00C) = ⟨0, .okay⟩ ∧ errcodeWord t = 0 ∧ attemptsWord t = 0 ∧
    (cfgWord t).toNat = s.params.maxAttempts ∧ pflagsWord t = 0 ∧ (∀ r, t.reg r = 0) ∧
    (∀ x y, laneAt t.lanes x y = 0) ∧ (∀ (i : Nat) (h : i < 136), t.buf[i] = 0) ∧
    (∀ (i : Nat) (h : i < 32), t.digest[i] = 0) ∧ t.running = none ∧ irq t = false

/-- The invariant of the lifecycle holds right after reset. -/
def Obligations.InvariantAtReset : Prop := Inv State.reset

/-- Every step keeps the invariant of the lifecycle. -/
def Obligations.InvariantIsKept : Prop := ∀ s t : State, Inv s → step s = .next t → Inv t

/-- No step changes an implementation parameter, so that CFG is constant, and ID is. -/
def Obligations.ParametersNeverChange : Prop :=
  ∀ s t : State, step s = .next t →
    t.params = s.params ∧ slotWord t .cfg = slotWord s .cfg ∧ slotWord t .id = slotWord s .id

/-! ### Modular arithmetic -/

/-- 40_modular.md R71: MODMUL, word 0x00000001, writes (A · B) mod M to Z, exactly, whatever the size of A and B; with
M = 0 it completes with RANGE. -/
def Obligations.ModmulWritesTheProduct : Prop :=
  decode 0x00000001#32 = .ok .modmul ∧
  (∀ s : State, s.num .m ≠ 0 → ∃ t, exec .modmul s = .next t ∧ Completed t .noError false ∧
    t.num .z = (s.num .a * s.num .b) % s.num .m ∧ OnlyWrites s t [.reg .z]) ∧
  ∀ s : State, s.num .m = 0 → EndsWithError .modmul s .range

/-- 40_modular.md R72: MODINV, word 0x00000002, writes to Z the one number below M whose product with A is 1 mod M;
RANGE if M = 0, NOT_INVERTIBLE if gcd(A, M) ≠ 1. -/
def Obligations.ModinvWritesTheInverse : Prop :=
  decode 0x00000002#32 = .ok .modinv ∧
  (∀ s : State, s.num .m ≠ 0 → Nat.gcd (s.num .a) (s.num .m) = 1 →
    ∃ t, exec .modinv s = .next t ∧ Completed t .noError false ∧ t.num .z < s.num .m ∧
      s.num .a * t.num .z % s.num .m = 1 % s.num .m ∧ OnlyWrites s t [.reg .z]) ∧
  (∀ s : State, s.num .m = 0 → EndsWithError .modinv s .range) ∧
  ∀ s : State, s.num .m ≠ 0 → Nat.gcd (s.num .a) (s.num .m) ≠ 1 → EndsWithError .modinv s .notInvertible

/-- 40_modular.md section 2, R73 (the spec derives it): with M prime and 1 ≤ A < M, MODINV completes without error, and a MODMUL of A with that Z, copied
to B, modulo M gives 1. -/
def Obligations.InverseLaw : Prop :=
  ∀ s : State, Nat.Prime (s.num .m) → 1 ≤ s.num .a → s.num .a < s.num .m →
    ∃ t u, exec .modinv s = .next t ∧ t.errcode = .noError ∧
      exec .modmul (t.setReg .b (t.reg .z)) = .next u ∧ u.errcode = .noError ∧ u.num .z = 1

/-! ### Elliptic curve -/

/-- PADD with an operand at infinity gives the other operand; the result O is written as RINF = 1, RX = RY = 0, whatever
the operand registers hold. -/
def Obligations.PaddWithInfinity : Prop :=
  ∀ s : State, 3 ≤ s.num .cp →
    (s.p1inf = true → s.p2inf = true → ∃ t, exec .padd s = .next t ∧ Completed t .noError false ∧
      t.rinf = true ∧ t.num .rx = 0 ∧ t.num .ry = 0 ∧ OnlyWrites s t [.reg .rx, .reg .ry, .rinf]) ∧
    (s.p1inf = true → s.p2inf = false → s.num .p2x < s.num .cp → s.num .p2y < s.num .cp →
      ∃ t, exec .padd s = .next t ∧ Completed t .noError false ∧ t.rinf = false ∧ t.num .rx = s.num .p2x ∧
        t.num .ry = s.num .p2y ∧ OnlyWrites s t [.reg .rx, .reg .ry, .rinf]) ∧
    (s.p1inf = false → s.p2inf = true → s.num .p1x < s.num .cp → s.num .p1y < s.num .cp →
      ∃ t, exec .padd s = .next t ∧ Completed t .noError false ∧ t.rinf = false ∧ t.num .rx = s.num .p1x ∧
        t.num .ry = s.num .p1y ∧ OnlyWrites s t [.reg .rx, .reg .ry, .rinf])

/-- PADD of two affine points with different abscissas: the chord, or NOT_INVERTIBLE where the difference of the
abscissas has no inverse mod p. -/
def Obligations.PaddChord : Prop :=
  ∀ s : State, 3 ≤ s.num .cp → s.p1inf = false → s.p2inf = false →
    s.num .p1x < s.num .cp → s.num .p1y < s.num .cp → s.num .p2x < s.num .cp → s.num .p2y < s.num .cp →
    s.num .p1x ≠ s.num .p2x →
    (Int.gcd ((s.num .p2x : Int) - s.num .p1x) (s.num .cp) = 1 →
      ∃ t lam, exec .padd s = .next t ∧ Completed t .noError false ∧ t.rinf = false ∧
        (lam : Int) * ((s.num .p2x : Int) - s.num .p1x) ≡ (s.num .p2y : Int) - s.num .p1y [ZMOD s.num .cp] ∧
        IsSumBy (s.num .cp) lam (s.num .p1x) (s.num .p1y) (s.num .p2x) (t.num .rx) (t.num .ry) ∧
        OnlyWrites s t [.reg .rx, .reg .ry, .rinf]) ∧
    (Int.gcd ((s.num .p2x : Int) - s.num .p1x) (s.num .cp) ≠ 1 → EndsWithError .padd s .notInvertible)

/-- PADD of two affine points with the same abscissa: O if they are inverse to each other, the tangent if they are equal
(NOT_INVERTIBLE where 2y has no inverse mod p), and NOT_INVERTIBLE in the case the source does not cover. -/
def Obligations.PaddSameAbscissa : Prop :=
  ∀ s : State, 3 ≤ s.num .cp → s.p1inf = false → s.p2inf = false →
    s.num .p1x < s.num .cp → s.num .p1y < s.num .cp → s.num .p2y < s.num .cp →
    s.num .p1x = s.num .p2x →
    ((s.num .p1y + s.num .p2y) % s.num .cp = 0 →
      ∃ t, exec .padd s = .next t ∧ Completed t .noError false ∧ t.rinf = true ∧ t.num .rx = 0 ∧ t.num .ry = 0 ∧
        OnlyWrites s t [.reg .rx, .reg .ry, .rinf]) ∧
    ((s.num .p1y + s.num .p2y) % s.num .cp ≠ 0 → s.num .p1y = s.num .p2y →
      Nat.gcd (2 * s.num .p1y) (s.num .cp) = 1 →
      ∃ t lam, exec .padd s = .next t ∧ Completed t .noError false ∧ t.rinf = false ∧
        (lam : Int) * (2 * s.num .p1y) ≡ 3 * (s.num .p1x * s.num .p1x) + s.num .ca [ZMOD s.num .cp] ∧
        IsSumBy (s.num .cp) lam (s.num .p1x) (s.num .p1y) (s.num .p1x) (t.num .rx) (t.num .ry) ∧
        OnlyWrites s t [.reg .rx, .reg .ry, .rinf]) ∧
    ((s.num .p1y + s.num .p2y) % s.num .cp ≠ 0 → s.num .p1y = s.num .p2y →
      Nat.gcd (2 * s.num .p1y) (s.num .cp) ≠ 1 → EndsWithError .padd s .notInvertible) ∧
    ((s.num .p1y + s.num .p2y) % s.num .cp ≠ 0 → s.num .p1y ≠ s.num .p2y →
      EndsWithError .padd s .notInvertible)

/-- Point addition is symmetric on all reduced operands, the error case included. -/
def Obligations.PointAdditionIsSymmetric : Prop :=
  ∀ (p a : Nat) (P1 P2 : Point), 3 ≤ p → checkPoint p P1 = .ok () → checkPoint p P2 = .ok () →
    pointAdd p a P1 P2 = pointAdd p a P2 P1

/-- PDBL: twice O is O, a point with 2y ≡ 0 mod p doubles to O, and otherwise the tangent gives the result, or NOT_INVERTIBLE
where 2y has no inverse mod p; P2 and PFLAGS.P2INF are not read. -/
def Obligations.PdblDoublesP1 : Prop :=
  ∀ s : State, 3 ≤ s.num .cp →
    (s.p1inf = true ∨ (s.num .p1x < s.num .cp ∧ s.num .p1y < s.num .cp ∧ 2 * s.num .p1y % s.num .cp = 0) →
      ∃ t, exec .pdbl s = .next t ∧ Completed t .noError false ∧ t.rinf = true ∧ t.num .rx = 0 ∧ t.num .ry = 0 ∧
        OnlyWrites s t [.reg .rx, .reg .ry, .rinf]) ∧
    (s.p1inf = false → s.num .p1x < s.num .cp → s.num .p1y < s.num .cp → 2 * s.num .p1y % s.num .cp ≠ 0 →
      Nat.gcd (2 * s.num .p1y) (s.num .cp) = 1 →
      ∃ t lam, exec .pdbl s = .next t ∧ Completed t .noError false ∧ t.rinf = false ∧
        (lam : Int) * (2 * s.num .p1y) ≡ 3 * (s.num .p1x * s.num .p1x) + s.num .ca [ZMOD s.num .cp] ∧
        IsSumBy (s.num .cp) lam (s.num .p1x) (s.num .p1y) (s.num .p1x) (t.num .rx) (t.num .ry) ∧
        OnlyWrites s t [.reg .rx, .reg .ry, .rinf]) ∧
    (s.p1inf = false → s.num .p1x < s.num .cp → s.num .p1y < s.num .cp →
      2 * s.num .p1y % s.num .cp ≠ 0 → Nat.gcd (2 * s.num .p1y) (s.num .cp) ≠ 1 →
      EndsWithError .pdbl s .notInvertible)

/-- On a curve over a prime field, PADD completes without error and its result is on the curve. -/
def Obligations.PaddStaysOnTheCurve : Prop :=
  ∀ (s : State) (b : Nat), Nat.Prime (s.num .cp) → 3 ≤ s.num .cp →
    OnCurve (s.num .cp) (s.num .ca) b (s.point s.p1inf .p1x .p1y) →
    OnCurve (s.num .cp) (s.num .ca) b (s.point s.p2inf .p2x .p2y) →
    ∃ t, exec .padd s = .next t ∧ Completed t .noError false ∧
      OnCurve (s.num .cp) (s.num .ca) b (resultPoint t) ∧ OnlyWrites s t [.reg .rx, .reg .ry, .rinf]

/-- 41_ecc.md section 2, R83 (the spec derives it): the recursion of scalar multiplication and the loop over the binary digits of k agree, in the result
and in the error met first. -/
def Obligations.ScalarRecursionIsTheLoop : Prop :=
  ∀ (p a : Nat) (P : Point) (k : Nat), 1 ≤ k → scalarMul p a P k = scalarMulLoop p a P k

/-- PMUL writes the result of the double-and-add loop over the digits of A, or ends with the error the loop meets first;
A = 0 gives SCALAR_ZERO, and A = 1 returns P1 as it is. -/
def Obligations.PmulMultipliesByA : Prop :=
  ∀ s : State, 3 ≤ s.num .cp → (s.p1inf = true ∨ (s.num .p1x < s.num .cp ∧ s.num .p1y < s.num .cp)) →
    (s.num .a = 0 → EndsWithError .pmul s .scalarZero) ∧
    (s.num .a = 1 → s.p1inf = false → ∃ t, exec .pmul s = .next t ∧ Completed t .noError false ∧ t.rinf = false ∧
      t.num .rx = s.num .p1x ∧ t.num .ry = s.num .p1y ∧ OnlyWrites s t [.reg .rx, .reg .ry, .rinf]) ∧
    (∀ R, s.num .a ≠ 0 →
      scalarMulLoop (s.num .cp) (s.num .ca) (s.point s.p1inf .p1x .p1y) (s.num .a) = .ok R →
      ∃ t, exec .pmul s = .next t ∧ Completed t .noError false ∧ resultPoint t = R ∧
        (R = .infinity → t.num .rx = 0 ∧ t.num .ry = 0) ∧ OnlyWrites s t [.reg .rx, .reg .ry, .rinf]) ∧
    ∀ code, s.num .a ≠ 0 →
      scalarMulLoop (s.num .cp) (s.num .ca) (s.point s.p1inf .p1x .p1y) (s.num .a) = .error code →
      EndsWithError .pmul s code

/-- 41_ecc.md section 3, R85 (the spec derives it): for points on a curve over a prime field, O is neutral, SM(P, 2) = ADD(P, P), scalar multiplication is
a homomorphism, and every result is on the curve. -/
def Obligations.ScalarMultiplicationIsAHomomorphism : Prop :=
  ∀ (p a b : Nat) (P : Point), Nat.Prime p → 3 ≤ p → OnCurve p a b P →
    pointAdd p a P .infinity = .ok P ∧ pointAdd p a .infinity P = .ok P ∧
    scalarMul p a P 2 = pointAdd p a P P ∧
    (∀ Q, OnCurve p a b Q → ∃ R, pointAdd p a P Q = .ok R ∧ OnCurve p a b R) ∧
    ∀ k1 k2, 1 ≤ k1 → 1 ≤ k2 → ∃ X1 X2 X, scalarMul p a P k1 = .ok X1 ∧ scalarMul p a P k2 = .ok X2 ∧
      pointAdd p a X1 X2 = .ok X ∧ scalarMul p a P (k1 + k2) = .ok X ∧ OnCurve p a b X1 ∧ OnCurve p a b X

/-- The range checks of the curve commands come first: p < 3 gives RANGE even if every operand is O, and an affine
operand with a coordinate not below p gives RANGE; nothing is written (SIGN's ATTEMPTS becomes 0). -/
def Obligations.CurveRangeChecks : Prop :=
  ∀ s : State,
    (s.num .cp < 3 →
      EndsWithError .padd s .range ∧ EndsWithError .pdbl s .range ∧ EndsWithError .pmul s .range ∧
      EndsWithError .verify s .range ∧
      ∀ k, ∃ t, exec (.sign k) s = .next t ∧ Completed t .range false ∧ t.attempts = 0 ∧ OnlyWrites s t [.attempts]) ∧
    (s.p1inf = false → s.num .cp ≤ s.num .p1x ∨ s.num .cp ≤ s.num .p1y →
      EndsWithError .padd s .range ∧ EndsWithError .pdbl s .range ∧ EndsWithError .pmul s .range) ∧
    (s.p2inf = false → s.num .cp ≤ s.num .p2x ∨ s.num .cp ≤ s.num .p2y → EndsWithError .padd s .range)

/-! ### The permutation and the sponge -/

/-- 42_keccak.md R87 to R90: the four step mappings, lane by lane; and the map (x, y) → (y, 2x + 3y) of rho and pi is a
bijection on the 25 positions. -/
def Obligations.StepMappings : Prop :=
  (∀ u v, u < 5 → v < 5 → ∃! q : Nat × Nat, q.1 < 5 ∧ q.2 < 5 ∧ q.2 = u ∧ (2 * q.1 + 3 * q.2) % 5 = v) ∧
  ∀ (rho : Vector (Fin 64) 25) (A : Lanes) (c : Lane) (x y : Nat), x < 5 → y < 5 →
    columnParity A x = laneAt A x 0 ^^^ laneAt A x 1 ^^^ laneAt A x 2 ^^^ laneAt A x 3 ^^^ laneAt A x 4 ∧
    laneAt (theta A) x y = laneAt A x y ^^^ (columnParity A (x + 4) ^^^ (columnParity A (x + 1)).rotateLeft 1) ∧
    laneAt (rhoPi rho A) y (2 * x + 3 * y) = (laneAt A x y).rotateLeft (rho[laneIndex x y]).val ∧
    laneAt (chi A) x y = laneAt A x y ^^^ (~~~(laneAt A (x + 1) y) &&& laneAt A (x + 2) y) ∧
    laneAt (iota c A) x y = if x = 0 ∧ y = 0 then laneAt A 0 0 ^^^ c else laneAt A x y

/-- KECCAKF runs the rounds 0 to 23 in order, each theta, rho and pi, chi, iota, and writes S alone. -/
def Obligations.KeccakfRunsTwentyFourRounds : Prop :=
  ∀ s : State, ∃ (t : State) (A : Nat → Lanes), exec .keccakf s = .next t ∧ Completed t .noError false ∧
    A 0 = s.lanes ∧
    (∀ (i : Nat) (h : i < 24), A (i + 1) = iota s.params.rc[i] (chi (rhoPi s.params.rho (theta (A i))))) ∧
    t.lanes = A 24 ∧ OnlyWrites s t [.lanes]

/-- F is a bijection on the states of the sponge, for every table of offsets and of round constants. -/
def Obligations.PermutationIsBijective : Prop := ∀ P : Params, Function.Bijective (keccakF P)

/-- 43_sponge.md R99: HINIT, word 0x00000007, clears all 25 lanes of S and changes nothing else. -/
def Obligations.HinitClearsTheSponge : Prop :=
  decode 0x00000007#32 = .ok .hinit ∧
  ∀ s : State, ∃ t, exec .hinit s = .next t ∧ Completed t .noError false ∧ (∀ x y, laneAt t.lanes x y = 0) ∧
    OnlyWrites s t [.lanes]

/-- 43_sponge.md R98, R100: HABSORB, word 0x00000008, XORs the seventeen 8-byte groups of BUF, most significant byte
first, into the lanes (j div 5, j mod 5), j = 0 to 16, running F after every lane; it writes S alone. -/
def Obligations.HabsorbAbsorbsTheBlock : Prop :=
  decode 0x00000008#32 = .ok .habsorb ∧
  ∀ s : State, ∃ (t : State) (A : Nat → Lanes), exec .habsorb s = .next t ∧ Completed t .noError false ∧
    A 0 = s.lanes ∧
    (∀ (j : Nat) (h : j < 17), A (j + 1) = keccakF s.params (putLane (A j) (j / 5) (j % 5)
      (laneAt (A j) (j / 5) (j % 5) ^^^
        (s.buf[8 * j] ++ s.buf[8 * j + 1] ++ s.buf[8 * j + 2] ++ s.buf[8 * j + 3] ++ s.buf[8 * j + 4] ++
          s.buf[8 * j + 5] ++ s.buf[8 * j + 6] ++ s.buf[8 * j + 7])))) ∧
    t.lanes = A 17 ∧ OnlyWrites s t [.lanes]

/-- 43_sponge.md R101: the padded block has 136 bytes; it begins with the tail and 0x01; with t = 135 nothing follows, and
with t ≤ 134 zeros follow and byte 135 is 0x80. -/
def Obligations.PaddingRule : Prop :=
  ∀ tail : List Byte, tail.length ≤ 135 →
    (pad tail).length = 136 ∧ (∀ i, i < tail.length → (pad tail)[i]? = tail[i]?) ∧
    (pad tail)[tail.length]? = some 0x01#8 ∧
    (tail.length ≤ 134 → (∀ i, tail.length < i → i < 135 → (pad tail)[i]? = some 0x00#8) ∧
      (pad tail)[135]? = some 0x80#8)

/-- HFINAL with LEN = t ≤ 135 absorbs the padded first t bytes of BUF, emits the lanes (0,0) to (0,3), most significant
byte first, with F after each, leaves the state after the fourth F, and reads the digest integer least significant
byte first with its top bit cleared. (That order is the spec's own inference, R103: log 14.) -/
def Obligations.HfinalSqueezesTheDigest : Prop :=
  ∀ (s : State) (len : BitVec 8), len.toNat ≤ 135 →
    ∃ (t : State) (A : Nat → Lanes), exec (.hfinal len) s = .next t ∧ Completed t .noError false ∧
      A 0 = absorb s.params s.lanes (pad (s.buf.toList.take len.toNat)) ∧
      (∀ i, i < 4 → A (i + 1) = keccakF s.params (A i)) ∧ t.lanes = A 4 ∧
      (∀ (i : Nat) (h : i < 32), t.digest[i] = (laneAt (A (i / 8)) 0 (i / 8)).extractLsb' (56 - 8 * (i % 8)) 8) ∧
      (∀ (i : Nat) (h : i < 31), (t.reg .h).extractLsb' (8 * i) 8 = t.digest[i]) ∧
      (t.reg .h).extractLsb' 248 8 = t.digest[31] &&& 0x7F#8 ∧ t.num .h < 2 ^ 255 ∧
      OnlyWrites s t [.lanes, .digest, .reg .h]

/-- The bytes BUF[t..135] have no influence on HFINAL with LEN = t; and LEN of 136 or more makes HFINAL illegal. -/
def Obligations.HfinalIgnoresTheRestOfBuf : Prop :=
  (∀ (s : State) (len : BitVec 8) (b : Vector Byte 136), len.toNat ≤ 135 →
    (∀ (i : Nat) (h : i < 136), i < len.toNat → b[i] = s.buf[i]) →
    exec (.hfinal len) { s with buf := b } = mapNext (fun t => { t with buf := b }) (exec (.hfinal len) s)) ∧
  ∀ (s : State) (len : BitVec 8), 136 ≤ len.toNat → EndsWithError (.hfinal len) s .illegalCmd

/-- 43_sponge.md section 3, R106 (the spec derives it; logs 13, 14): HINIT, an HABSORB for each full block and an HFINAL for the rest leave in H the hash of the whole
message, whatever the state before and whatever BUF held beyond the bytes written. -/
def Obligations.StreamingComputesTheHash : Prop :=
  ∀ (N : List Byte) (s : State), ∃ t, streamMessage N s = some t ∧ t.reg .h = hashFile s.params N

/-! ### Signatures -/

/-- SIGN with the host's nonce K: the one attempt signs, is rejected with NONCE_REJECTED, or meets the error of the scalar
multiplication; ATTEMPTS is 1. -/
def Obligations.SignWithTheHostsNonce : Prop :=
  ∀ s : State, SignContext s → 1 ≤ s.num .k → s.num .k < s.num .cq →
    (∀ r sig, SignsWith s (s.num .k) r sig → ∃ t, exec (.sign .registerK) s = .next t ∧ Completed t .noError false ∧
      t.num .sr = r ∧ t.num .ss = sig ∧ t.num .e = digestOf s ∧ t.attempts.toNat = 1 ∧
      OnlyWrites s t [.reg .sr, .reg .ss, .reg .e, .attempts]) ∧
    (Rejects s (s.num .k) → ∃ t, exec (.sign .registerK) s = .next t ∧ Completed t .nonceRejected false ∧
      t.attempts.toNat = 1 ∧ OnlyWrites s t [.attempts]) ∧
    ∀ code, scalarMulLoop (s.num .cp) (s.num .ca) s.basePoint (s.num .k) = .error code →
      ∃ t, exec (.sign .registerK) s = .next t ∧ Completed t code false ∧ t.attempts.toNat = 1 ∧
        OnlyWrites s t [.attempts]

/-- SIGN with the entropy source, for every sequence of draws: it makes n attempts, 1 ≤ n ≤ MAX_ATTEMPTS, each with a
nonce in [1, q-1]; all before the last were rejected; the last signs, or meets the error of the scalar multiplication,
or is the rejected attempt number MAX_ATTEMPTS, which gives RETRY_LIMIT. (The draws are the free values of log 1.) -/
def Obligations.SignWithTheEntropySource : Prop :=
  ∀ s : State, SignContext s →
    ∃ t n, exec (.sign .entropy) s = .next t ∧ 1 ≤ n ∧ n ≤ s.params.maxAttempts ∧ t.attempts.toNat = n ∧
      (∀ j, 1 ≤ draw s.fresh (s.num .cq) j ∧ draw s.fresh (s.num .cq) j < s.num .cq) ∧
      (∀ j, j < n - 1 → Rejects s (draw s.fresh (s.num .cq) j)) ∧
      ((∃ r sig, SignsWith s (draw s.fresh (s.num .cq) (n - 1)) r sig ∧ Completed t .noError false ∧
          t.num .sr = r ∧ t.num .ss = sig ∧ t.num .e = digestOf s ∧
          OnlyWrites s t [.reg .sr, .reg .ss, .reg .e, .attempts]) ∨
        (∃ code, scalarMulLoop (s.num .cp) (s.num .ca) s.basePoint (draw s.fresh (s.num .cq) (n - 1)) = .error code ∧
          Completed t code false ∧ OnlyWrites s t [.attempts]) ∨
        (n = s.params.maxAttempts ∧ Rejects s (draw s.fresh (s.num .cq) (n - 1)) ∧
          Completed t .retryLimit false ∧ OnlyWrites s t [.attempts]))

/-- SIGN checks p, q, G, d and, for the host's nonce, K; a failed check gives RANGE, ATTEMPTS = 0, and nothing else is
written. -/
def Obligations.SignRangeChecks : Prop :=
  ∀ (s : State) (k : NonceSource),
    (¬ SignContext s ∨ (k = .registerK ∧ ¬ (1 ≤ s.num .k ∧ s.num .k < s.num .cq))) →
    ∃ t, exec (.sign k) s = .next t ∧ Completed t .range false ∧ t.attempts.toNat = 0 ∧ OnlyWrites s t [.attempts]

/-- A SIGN that completes without error leaves SR and SS in [1, q-1], and in E the digest reduced mod q with 0 replaced by
1, which is in [1, q-1] too. -/
def Obligations.SignaturesAreInRange : Prop :=
  ∀ (s t : State) (k : NonceSource), exec (.sign k) s = .next t → t.errcode = .noError →
    1 ≤ t.num .sr ∧ t.num .sr < s.num .cq ∧ 1 ≤ t.num .ss ∧ t.num .ss < s.num .cq ∧
    1 ≤ t.num .e ∧ t.num .e < s.num .cq ∧
    (s.num .h % s.num .cq ≠ 0 → t.num .e = s.num .h % s.num .cq) ∧ (s.num .h % s.num .cq = 0 → t.num .e = 1)

/-- VERIFY of a well-formed signature in a domain where e has the inverse v: with z1 = s·v and z2 = -r·v mod q, both not
0, and the two scalar multiplications and the sum C defined, RESULT is 1 exactly if C is affine with C.x mod q = r; a
mismatch is no error. -/
def Obligations.VerifyGivesTheVerdict : Prop :=
  ∀ (s : State) (v z1 z2 : Nat) (X1 X2 C : Point), VerifyContext s →
    v < s.num .cq → digestOf s * v % s.num .cq = 1 →
    z1 = s.num .ss * v % s.num .cq → (z2 + s.num .sr * v) % s.num .cq = 0 → z2 < s.num .cq → z1 ≠ 0 → z2 ≠ 0 →
    scalarMulLoop (s.num .cp) (s.num .ca) s.basePoint z1 = .ok X1 →
    scalarMulLoop (s.num .cp) (s.num .ca) s.publicPoint z2 = .ok X2 →
    pointAdd (s.num .cp) (s.num .ca) X1 X2 = .ok C →
    ∃ t result, exec .verify s = .next t ∧ Completed t .noError result ∧ t.num .e = digestOf s ∧
      (result = true ↔ ∃ x y, C = .affine x y ∧ x % s.num .cq = s.num .sr) ∧ OnlyWrites s t [.reg .e]

/-- VERIFY's errors: RANGE for p, q, G or Q out of range; then MALFORMED_SIGNATURE for r or s outside [1, q-1]; then
NOT_INVERTIBLE if e has no inverse mod q; then the first error of z1·G, of z2·Q and of their sum. Nothing is written.
SCALAR_ZERO never comes up: where e has an inverse, z1 and z2 are not 0, whatever q. -/
def Obligations.VerifyErrors : Prop :=
  ∀ s : State,
    (s.num .cp < 3 ∨ s.num .cq < 2 ∨ s.num .cp ≤ s.num .gx ∨ s.num .cp ≤ s.num .gy ∨ s.num .cp ≤ s.num .qx ∨
      s.num .cp ≤ s.num .qy → EndsWithError .verify s .range) ∧
    (3 ≤ s.num .cp → 2 ≤ s.num .cq → s.num .gx < s.num .cp → s.num .gy < s.num .cp → s.num .qx < s.num .cp →
      s.num .qy < s.num .cp →
      s.num .sr = 0 ∨ s.num .cq ≤ s.num .sr ∨ s.num .ss = 0 ∨ s.num .cq ≤ s.num .ss →
      EndsWithError .verify s .malformedSignature) ∧
    (VerifyContext s → Nat.gcd (digestOf s) (s.num .cq) ≠ 1 → EndsWithError .verify s .notInvertible) ∧
    (∀ t, exec .verify s = .next t → t.errcode ≠ .scalarZero) ∧
    ∀ v z1 z2 code, VerifyContext s → v < s.num .cq → digestOf s * v % s.num .cq = 1 →
      z1 = s.num .ss * v % s.num .cq → (z2 + s.num .sr * v) % s.num .cq = 0 → z2 < s.num .cq → z1 ≠ 0 → z2 ≠ 0 →
      (scalarMulLoop (s.num .cp) (s.num .ca) s.basePoint z1 = .error code ∨
        (∃ X1, scalarMulLoop (s.num .cp) (s.num .ca) s.basePoint z1 = .ok X1 ∧
          scalarMulLoop (s.num .cp) (s.num .ca) s.publicPoint z2 = .error code) ∨
        ∃ X1 X2, scalarMulLoop (s.num .cp) (s.num .ca) s.basePoint z1 = .ok X1 ∧
          scalarMulLoop (s.num .cp) (s.num .ca) s.publicPoint z2 = .ok X2 ∧
          pointAdd (s.num .cp) (s.num .ca) X1 X2 = .error code) →
      EndsWithError .verify s code

/-- 44_ecdsa.md section 3, R118 (the spec derives it): in a valid domain, a SIGN that completes without error, followed with the same H and Q = d·G by
VERIFY, gives ERRCODE = 0 and RESULT = 1, for either source of the nonce. -/
def Obligations.SignVerifyRoundTrip : Prop :=
  ∀ (s t : State) (k : NonceSource) (b qx qy : Nat),
    Nat.Prime (s.num .cp) → Nat.Prime (s.num .cq) → OnCurve (s.num .cp) (s.num .ca) b s.basePoint →
    scalarMul (s.num .cp) (s.num .ca) s.basePoint (s.num .cq) = .ok .infinity →
    1 ≤ s.num .d → s.num .d < s.num .cq →
    scalarMul (s.num .cp) (s.num .ca) s.basePoint (s.num .d) = .ok (.affine qx qy) →
    exec (.sign k) s = .next t → t.errcode = .noError →
    ∃ u, exec .verify ((t.setNum .qx qx).setNum .qy qy) = .next u ∧ u.errcode = .noError ∧ u.result = true
end

