-- ==== Sys2Proof/Laws/Bits.lean ====
section
/-! SUPPORT. The bit-field and byte-order helpers. -/

namespace Sys2Proof.Machine

/-- The word written is the word read. -/
theorem getWord_putWord_self {n : Nat} (v : BitVec n) (i : Nat) (w : Word) (h : 32 * i + 32 ≤ n) :
    getWord (putWord v i w) i = w := by
  apply BitVec.eq_of_getLsbD_eq
  intro k hk
  have h1 : 32 * i + k < n := by omega
  have h2 : k < n := by omega
  have h3 : (4294967295#32)[k] = true := by
    rw [show 4294967295#32 = BitVec.allOnes 32 from rfl, BitVec.getElem_allOnes]
  simp [getWord, putWord, hk, h1, h3]

/-- Every other bit is kept. -/
theorem getLsbD_putWord_of_ne {n : Nat} (v : BitVec n) (i : Nat) (w : Word) (k : Nat)
    (h : k < 32 * i ∨ 32 * i + 32 ≤ k) (hk : k < n) : (putWord v i w).getLsbD k = v.getLsbD k := by
  rcases h with h | h
  · simp [putWord, hk, h]
  · have h1 : ¬ k < 32 * i := by omega
    have h2 : 32 ≤ k - 32 * i := by omega
    simp [putWord, hk, h1, BitVec.getLsbD_of_ge _ _ h2]

/-- Every other word is kept. -/
theorem getWord_putWord_of_ne {n : Nat} (v : BitVec n) {i j : Nat} (w : Word) (hij : j ≠ i) (h : 32 * j + 32 ≤ n) :
    getWord (putWord v i w) j = getWord v j := by
  apply BitVec.eq_of_getLsbD_eq
  intro k hk
  have := getLsbD_putWord_of_ne v i w (32 * j + k) (by omega) (by omega)
  simpa [getWord, hk] using this

/-- A value below 2³²ᵐ is made of its words: two values with the same eight words are equal. -/
theorem eq_of_getWord_eq {m : Nat} {v w : BitVec (32 * m)} (h : ∀ i, i < m → getWord v i = getWord w i) : v = w := by
  apply BitVec.eq_of_getLsbD_eq
  intro k hk
  have hlt : k % 32 < 32 := Nat.mod_lt _ (by decide)
  have := congrArg (fun x => x.getLsbD (k % 32)) (h (k / 32) (by omega))
  simpa [getWord, hlt, Nat.div_add_mod] using this

/-- The number in a bus word (20_memory.md R42). -/
theorem toNat_busWord (b0 b1 b2 b3 : Byte) :
    (busWord b0 b1 b2 b3).toNat = b0.toNat + b1.toNat * 2 ^ 8 + b2.toNat * 2 ^ 16 + b3.toNat * 2 ^ 24 := by
  unfold busWord
  repeat rw [BitVec.toNat_append, ← Nat.shiftLeft_add_eq_or_of_lt (BitVec.isLt _)]
  simp only [Nat.shiftLeft_eq]
  omega

/-- Byte k of a bus word, as a number. -/
theorem toNat_busByte (w : Word) (k : Nat) : (busByte w k).toNat = w.toNat / 2 ^ (8 * k) % 2 ^ 8 := by
  simp [busByte, Nat.shiftRight_eq_div_pow]

/-- The bytes of a bus word. -/
theorem busByte_busWord (b0 b1 b2 b3 : Byte) :
    busByte (busWord b0 b1 b2 b3) 0 = b0 ∧ busByte (busWord b0 b1 b2 b3) 1 = b1 ∧
      busByte (busWord b0 b1 b2 b3) 2 = b2 ∧ busByte (busWord b0 b1 b2 b3) 3 = b3 := by
  have h0 := b0.isLt
  have h1 := b1.isLt
  have h2 := b2.isLt
  have h3 := b3.isLt
  refine ⟨?_, ?_, ?_, ?_⟩ <;>
  · apply BitVec.eq_of_toNat_eq
    rw [toNat_busByte, toNat_busWord]
    omega

/-- The number of a little-endian list of bytes is below 2 to the number of its bits. -/
theorem le_foldr_lt (l : List Byte) : l.foldr (fun b acc => b.toNat + 256 * acc) 0 < 2 ^ (8 * l.length) := by
  induction l with
  | nil => simp
  | cons b l ih =>
    have := b.isLt
    rw [List.foldr_cons, List.length_cons, Nat.mul_succ, Nat.pow_add]
    omega

/-- Byte i of a little-endian list of bytes, from its number. -/
theorem le_foldr_byte (l : List Byte) (i : Nat) :
    l.foldr (fun b acc => b.toNat + 256 * acc) 0 / 2 ^ (8 * i) % 2 ^ 8 = (l.getD i 0).toNat := by
  induction l generalizing i with
  | nil => simp
  | cons b l ih =>
    have hb := b.isLt
    rw [List.foldr_cons]
    cases i with
    | zero => simp; omega
    | succ i =>
      rw [show 8 * (i + 1) = 8 + 8 * i by ring, Nat.pow_add, ← Nat.div_div_eq_div_mul,
        show (b.toNat + 256 * l.foldr (fun b acc => b.toNat + 256 * acc) 0) / 2 ^ 8 =
          l.foldr (fun b acc => b.toNat + 256 * acc) 0 by omega, ih]
      simp

/-- Byte i of LE256 of at most 32 bytes (00_scope.md R8). -/
theorem le256_byte (l : List Byte) (i : Nat) (h : l.length ≤ 32) :
    (le256 l).extractLsb' (8 * i) 8 = l.getD i 0 := by
  apply BitVec.eq_of_toNat_eq
  have hlt : l.foldr (fun b acc => b.toNat + 256 * acc) 0 < 2 ^ 256 :=
    lt_of_lt_of_le (le_foldr_lt l) (Nat.pow_le_pow_right (by decide) (by omega))
  rw [BitVec.extractLsb'_toNat, Nat.shiftRight_eq_div_pow, le256, BitVec.toNat_ofNat, Nat.mod_eq_of_lt hlt,
    le_foldr_byte]

end Sys2Proof.Machine
end

