-- ==== Sys2Proof/Laws/Modular.lean ====
section
/-! SUPPORT. What the modular helpers compute (40_modular.md R68–R70). -/

namespace Sys2Proof.Machine

/-- The recursion finds a greatest common divisor and a Bézout pair, at any depth that suffices. -/
theorem extendedGcdWithin_spec (depth a b : Nat) (h : a ≤ depth) :
    (extendedGcdWithin depth a b).1 = Nat.gcd a b ∧
      ((extendedGcdWithin depth a b).1 : Int) =
        a * (extendedGcdWithin depth a b).2.1 + b * (extendedGcdWithin depth a b).2.2 := by
  induction depth generalizing a b with
  | zero =>
    obtain rfl : a = 0 := by omega
    simp [extendedGcdWithin]
  | succ depth ih =>
    by_cases ha : a = 0
    · subst ha; simp [extendedGcdWithin]
    · have hlt : b % a ≤ depth := by have := Nat.mod_lt b (Nat.pos_of_ne_zero ha); omega
      obtain ⟨hg, hb⟩ := ih (b % a) a hlt
      simp only [extendedGcdWithin, if_neg ha]
      refine ⟨by rw [hg, Nat.gcd_rec a b], ?_⟩
      rw [hb]
      have hdiv : (b : Int) = a * ((b / a : Nat) : Int) + ((b % a : Nat) : Int) := by
        exact_mod_cast (Nat.div_add_mod b a).symm
      generalize (extendedGcdWithin depth (b % a) a).2.1 = x
      generalize (extendedGcdWithin depth (b % a) a).2.2 = y
      rw [hdiv]
      ring_nf

/-- `extendedGcd(a, b)` is (g, x, y) with g = gcd(a, b) and g = a·x + b·y (40_modular.md R69). -/
theorem extendedGcd_spec (a b : Nat) :
    (extendedGcd a b).1 = Nat.gcd a b ∧
      ((extendedGcd a b).1 : Int) = a * (extendedGcd a b).2.1 + b * (extendedGcd a b).2.2 :=
  extendedGcdWithin_spec a a b le_rfl

/-- `finv` raises NOT_INVERTIBLE exactly where there is no inverse (40_modular.md R68). -/
theorem finv_error {u m : Nat} (h : Nat.gcd u m ≠ 1) : finv u m = .error .notInvertible := by
  have := (extendedGcd_spec u m).1
  simp only [finv, this, ne_eq, h, not_false_eq_true, if_true]

/-- `finv` gives the inverse in [0, m) (40_modular.md R70). -/
theorem finv_ok {u m : Nat} (hm : 1 ≤ m) (h : Nat.gcd u m = 1) :
    ∃ v, finv u m = .ok v ∧ v < m ∧ u * v % m = 1 % m := by
  obtain ⟨hg, hb⟩ := extendedGcd_spec u m
  refine ⟨((extendedGcd u m).2.1 % (m : Int)).toNat, by simp [finv, hg, h], ?_, ?_⟩
  · have h1 := Int.emod_nonneg (extendedGcd u m).2.1 (show (m : Int) ≠ 0 by omega)
    have h2 := Int.emod_lt_of_pos (extendedGcd u m).2.1 (show (0 : Int) < m by omega)
    omega
  · rw [hg, h] at hb
    have h1 := Int.emod_nonneg (extendedGcd u m).2.1 (show (m : Int) ≠ 0 by omega)
    have key : ((u * ((extendedGcd u m).2.1 % (m : Int)).toNat : Nat) : Int) ≡ ((1 : Nat) : Int) [ZMOD m] := by
      push_cast
      rw [Int.toNat_of_nonneg h1]
      calc (u : Int) * ((extendedGcd u m).2.1 % m)
          ≡ u * (extendedGcd u m).2.1 [ZMOD m] := (Int.mod_modEq _ _).mul_left _
        _ ≡ u * (extendedGcd u m).2.1 + m * (extendedGcd u m).2.2 [ZMOD m] := by
            rw [Int.modEq_iff_dvd]; exact ⟨(extendedGcd u m).2.2, by ring⟩
        _ ≡ 1 [ZMOD m] := by rw [← hb]; rfl
    exact (Int.natCast_modEq_iff).1 key

/-- The inverse of R70 is unique: every number in [0, m) that inverts u is what `finv` gives. -/
theorem finv_eq_ok {u m v : Nat} (hm : 1 ≤ m) (hv : v < m) (h : u * v % m = 1 % m) : finv u m = .ok v := by
  have hco : Nat.gcd u m = 1 := by
    have hd1 : Nat.gcd u m ∣ u * v % m :=
      (Nat.dvd_mod_iff (Nat.gcd_dvd_right u m)).2 (Dvd.dvd.mul_right (Nat.gcd_dvd_left u m) v)
    rw [h] at hd1
    have := (Nat.dvd_mod_iff (Nat.gcd_dvd_right u m)).1 hd1
    exact Nat.dvd_one.1 this
  obtain ⟨w, hw, hlt, hinv⟩ := finv_ok hm hco
  have hmod : u * w ≡ u * v [MOD m] := by unfold Nat.ModEq; rw [hinv, h]
  have := Nat.ModEq.cancel_left_of_coprime (by rw [Nat.gcd_comm]; exact hco) hmod
  rw [hw, Nat.ModEq.eq_of_lt_of_lt this hlt hv]

theorem fsub_lt {m : Nat} (u v : Nat) (hm : 1 ≤ m) : fsub u v m < m := by
  unfold fsub
  have h1 := Int.emod_nonneg ((u : Int) - v) (show (m : Int) ≠ 0 by omega)
  have h2 := Int.emod_lt_of_pos ((u : Int) - v) (show (0 : Int) < m by omega)
  omega

/-- `fsub` is the difference mod m. -/
theorem fsub_modEq {m : Nat} (u v : Nat) (hm : 1 ≤ m) : (fsub u v m : Int) ≡ u - v [ZMOD m] := by
  unfold fsub
  rw [Int.toNat_of_nonneg (Int.emod_nonneg _ (by omega))]
  exact Int.mod_modEq _ _

theorem fmul_modEq (u v m : Nat) : (fmul u v m : Int) ≡ u * v [ZMOD m] := by
  unfold fmul
  push_cast
  exact Int.mod_modEq _ _

theorem fadd_modEq (u v m : Nat) : (fadd u v m : Int) ≡ u + v [ZMOD m] := by
  unfold fadd
  push_cast
  exact Int.mod_modEq _ _

theorem fmul_lt {m : Nat} (u v : Nat) (hm : 1 ≤ m) : fmul u v m < m := Nat.mod_lt _ hm

end Sys2Proof.Machine
end

