-- ==== Sys2Proof/Laws/Curve.lean ====
section
/-! SUPPORT. The group law and scalar multiplication (41_ecc.md R76, R82). -/

namespace Sys2Proof.Machine

theorem checkPrime_eq_ok {p : Nat} : checkPrime p = .ok () ↔ 3 ≤ p := by unfold checkPrime; split <;> simp_all

theorem checkPoint_affine {p x y : Nat} : checkPoint p (.affine x y) = .ok () ↔ x < p ∧ y < p := by
  unfold checkPoint; split <;> simp_all

@[simp] theorem checkPoint_infinity (p : Nat) : checkPoint p .infinity = .ok () := rfl

@[simp] theorem pointAdd_infinity_left (p a : Nat) (P : Point) : pointAdd p a .infinity P = .ok P := rfl

@[simp] theorem pointAdd_infinity_right (p a : Nat) (P : Point) : pointAdd p a P .infinity = .ok P := by
  cases P <;> rfl

/-- The sum of two valid points, where there is one, is a valid point. -/
theorem pointAdd_valid {p a : Nat} {P Q R : Point} (hp : 3 ≤ p) (hP : checkPoint p P = .ok ())
    (hQ : checkPoint p Q = .ok ()) (h : pointAdd p a P Q = .ok R) : checkPoint p R = .ok () := by
  cases P with
  | infinity => simp at h; rwa [← h]
  | affine x1 y1 =>
    cases Q with
    | infinity => simp at h; rwa [← h]
    | affine x2 y2 =>
      have sum_valid : ∀ lam, checkPoint p (sumFromSlope p lam x1 y1 x2) = .ok () := fun lam =>
        checkPoint_affine.2 ⟨fsub_lt _ _ (by omega), fsub_lt _ _ (by omega)⟩
      simp only [pointAdd] at h
      split_ifs at h with h1 h2 h3
      · injection h with h; rw [← h]; rfl
      · cases hf : finv (fsub x2 x1 p) p with
        | error e => simp [hf, bind, Except.bind] at h
        | ok v =>
          simp only [hf, bind, Except.bind] at h
          injection h with h; rw [← h]; exact sum_valid _
      · cases hf : finv (fmul 2 y1 p) p with
        | error e => simp [hf, bind, Except.bind] at h
        | ok v =>
          simp only [hf, bind, Except.bind] at h
          injection h with h; rw [← h]; exact sum_valid _

/-- The recursion does not depend on its depth, where the depth suffices. -/
theorem scalarMulWithin_eq (p a : Nat) (P : Point) (d k : Nat) (h : k ≤ d) (hk : 1 ≤ k) :
    scalarMulWithin p a P d k = scalarMul p a P k := by
  suffices H : ∀ n d d' k, k ≤ n → 1 ≤ k → k ≤ d → k ≤ d' → scalarMulWithin p a P d k = scalarMulWithin p a P d' k from
    H k d k k le_rfl hk h le_rfl
  intro n
  induction n with
  | zero => intro d d' k h1 h2; omega
  | succ n ih =>
    intro d d' k hn hk hd hd'
    obtain ⟨e, rfl⟩ : ∃ e, d = e + 1 := ⟨d - 1, by omega⟩
    obtain ⟨e', rfl⟩ : ∃ e', d' = e' + 1 := ⟨d' - 1, by omega⟩
    simp only [scalarMulWithin]
    split_ifs with h1 h2
    · rfl
    · rw [ih e e' (k / 2) (by omega) (by omega) (by omega) (by omega)]
    · rw [ih e e' (k - 1) (by omega) (by omega) (by omega) (by omega)]

theorem scalarMul_one (p a : Nat) (P : Point) : scalarMul p a P 1 = .ok P := rfl

/-- The even case of 41_ecc.md R82. -/
theorem scalarMul_even (p a : Nat) (P : Point) {k : Nat} (hk : 1 ≤ k) :
    scalarMul p a P (2 * k) = (scalarMul p a P k).bind fun X => pointAdd p a X X := by
  obtain ⟨d, hd⟩ : ∃ d, 2 * k = d + 1 := ⟨2 * k - 1, by omega⟩
  have h : scalarMulWithin p a P d k = scalarMul p a P k := scalarMulWithin_eq p a P d k (by omega) hk
  unfold scalarMul at h ⊢
  rw [hd]
  simp only [scalarMulWithin]
  rw [if_neg (by omega), if_pos (by omega), show (d + 1) / 2 = k by omega, h]
  rfl

/-- The odd case of 41_ecc.md R82. -/
theorem scalarMul_odd (p a : Nat) (P : Point) {k : Nat} (hk : 1 ≤ k) :
    scalarMul p a P (2 * k + 1) = (scalarMul p a P (2 * k)).bind fun X => pointAdd p a X P := by
  have h : scalarMulWithin p a P (2 * k) (2 * k) = scalarMul p a P (2 * k) := rfl
  unfold scalarMul at h ⊢
  simp only [scalarMulWithin]
  rw [if_neg (by omega), if_neg (by omega), show 2 * k + 1 - 1 = 2 * k by omega]
  rfl

end Sys2Proof.Machine
end

