-- ==== Sys2Proof/Laws/Decode.lean ====
section
/-! SUPPORT. What the parts of the decoder answer. -/

namespace Sys2Proof

/-- A word is made of its four fields. -/
theorem word_of_fields (w : Word) :
    w.toNat = (opField w).toNat + (lenField w).toNat * 2 ^ 8 + (ksrcField w).toNat * 2 ^ 16 +
      (rsvField w).toNat * 2 ^ 17 := by
  have := w.isLt
  simp only [opField, lenField, ksrcField, rsvField, BitVec.extractLsb'_toNat, Nat.shiftRight_eq_div_pow]
  omega

theorem decodePlain_eq_ok {w : Word} {i j : Instr} :
    decodePlain w i = .ok j ↔ lenField w = 0 ∧ ksrcField w = 0 ∧ i = j := by
  unfold decodePlain
  split_ifs <;> simp_all

theorem decodeHfinal_eq_ok {w : Word} {j : Instr} :
    decodeHfinal w = .ok j ↔ (lenField w).toNat ≤ 135 ∧ ksrcField w = 0 ∧ .hfinal (lenField w) = j := by
  unfold decodeHfinal
  split_ifs <;> simp_all

theorem decodeSign_eq_ok {w : Word} {j : Instr} :
    decodeSign w = .ok j ↔
      lenField w = 0 ∧ .sign (if ksrcField w = 0 then .entropy else .registerK) = j := by
  unfold decodeSign
  split <;> simp_all

theorem decode_reserved {w : Word} (h : rsvField w ≠ 0) : decode w = .error .reservedBits := by
  unfold decode
  rw [if_pos h]

end Sys2Proof
end

