-- ==== Sys2Proof/Laws/State.lean ====
section
/-! SUPPORT. Every field after every named update of the state, so that no proof unfolds an update. -/

namespace Sys2Proof.Machine

section
variable (s : State) (r : OpReg) (v : U256)

@[simp] theorem State.setReg_params : (s.setReg r v).params = s.params := rfl
@[simp] theorem State.setReg_ie : (s.setReg r v).ie = s.ie := rfl
@[simp] theorem State.setReg_running : (s.setReg r v).running = s.running := rfl
@[simp] theorem State.setReg_done : (s.setReg r v).done = s.done := rfl
@[simp] theorem State.setReg_err : (s.setReg r v).err = s.err := rfl
@[simp] theorem State.setReg_result : (s.setReg r v).result = s.result := rfl
@[simp] theorem State.setReg_wign : (s.setReg r v).wign = s.wign := rfl
@[simp] theorem State.setReg_errcode : (s.setReg r v).errcode = s.errcode := rfl
@[simp] theorem State.setReg_attempts : (s.setReg r v).attempts = s.attempts := rfl
@[simp] theorem State.setReg_p1inf : (s.setReg r v).p1inf = s.p1inf := rfl
@[simp] theorem State.setReg_p2inf : (s.setReg r v).p2inf = s.p2inf := rfl
@[simp] theorem State.setReg_rinf : (s.setReg r v).rinf = s.rinf := rfl
@[simp] theorem State.setReg_operands : (s.setReg r v).operands = s.operands.set r.index v := rfl
@[simp] theorem State.setReg_lanes : (s.setReg r v).lanes = s.lanes := rfl
@[simp] theorem State.setReg_buf : (s.setReg r v).buf = s.buf := rfl
@[simp] theorem State.setReg_digest : (s.setReg r v).digest = s.digest := rfl
@[simp] theorem State.setReg_masters : (s.setReg r v).masters = s.masters := rfl
@[simp] theorem State.setReg_turns : (s.setReg r v).turns = s.turns := rfl
@[simp] theorem State.setReg_fresh : (s.setReg r v).fresh = s.fresh := rfl

end

section
variable (s : State) (r : OpReg) (n : Nat)

@[simp] theorem State.setNum_params : (s.setNum r n).params = s.params := rfl
@[simp] theorem State.setNum_ie : (s.setNum r n).ie = s.ie := rfl
@[simp] theorem State.setNum_running : (s.setNum r n).running = s.running := rfl
@[simp] theorem State.setNum_done : (s.setNum r n).done = s.done := rfl
@[simp] theorem State.setNum_err : (s.setNum r n).err = s.err := rfl
@[simp] theorem State.setNum_result : (s.setNum r n).result = s.result := rfl
@[simp] theorem State.setNum_wign : (s.setNum r n).wign = s.wign := rfl
@[simp] theorem State.setNum_errcode : (s.setNum r n).errcode = s.errcode := rfl
@[simp] theorem State.setNum_attempts : (s.setNum r n).attempts = s.attempts := rfl
@[simp] theorem State.setNum_p1inf : (s.setNum r n).p1inf = s.p1inf := rfl
@[simp] theorem State.setNum_p2inf : (s.setNum r n).p2inf = s.p2inf := rfl
@[simp] theorem State.setNum_rinf : (s.setNum r n).rinf = s.rinf := rfl
@[simp] theorem State.setNum_operands : (s.setNum r n).operands = s.operands.set r.index (BitVec.ofNat 256 n) := rfl
@[simp] theorem State.setNum_lanes : (s.setNum r n).lanes = s.lanes := rfl
@[simp] theorem State.setNum_buf : (s.setNum r n).buf = s.buf := rfl
@[simp] theorem State.setNum_digest : (s.setNum r n).digest = s.digest := rfl
@[simp] theorem State.setNum_masters : (s.setNum r n).masters = s.masters := rfl
@[simp] theorem State.setNum_turns : (s.setNum r n).turns = s.turns := rfl
@[simp] theorem State.setNum_fresh : (s.setNum r n).fresh = s.fresh := rfl

end

section
variable (s : State) (n : Nat)

@[simp] theorem State.setAttempts_params : (s.setAttempts n).params = s.params := rfl
@[simp] theorem State.setAttempts_ie : (s.setAttempts n).ie = s.ie := rfl
@[simp] theorem State.setAttempts_running : (s.setAttempts n).running = s.running := rfl
@[simp] theorem State.setAttempts_done : (s.setAttempts n).done = s.done := rfl
@[simp] theorem State.setAttempts_err : (s.setAttempts n).err = s.err := rfl
@[simp] theorem State.setAttempts_result : (s.setAttempts n).result = s.result := rfl
@[simp] theorem State.setAttempts_wign : (s.setAttempts n).wign = s.wign := rfl
@[simp] theorem State.setAttempts_errcode : (s.setAttempts n).errcode = s.errcode := rfl
@[simp] theorem State.setAttempts_attempts : (s.setAttempts n).attempts = BitVec.ofNat 16 n := rfl
@[simp] theorem State.setAttempts_p1inf : (s.setAttempts n).p1inf = s.p1inf := rfl
@[simp] theorem State.setAttempts_p2inf : (s.setAttempts n).p2inf = s.p2inf := rfl
@[simp] theorem State.setAttempts_rinf : (s.setAttempts n).rinf = s.rinf := rfl
@[simp] theorem State.setAttempts_operands : (s.setAttempts n).operands = s.operands := rfl
@[simp] theorem State.setAttempts_lanes : (s.setAttempts n).lanes = s.lanes := rfl
@[simp] theorem State.setAttempts_buf : (s.setAttempts n).buf = s.buf := rfl
@[simp] theorem State.setAttempts_digest : (s.setAttempts n).digest = s.digest := rfl
@[simp] theorem State.setAttempts_masters : (s.setAttempts n).masters = s.masters := rfl
@[simp] theorem State.setAttempts_turns : (s.setAttempts n).turns = s.turns := rfl
@[simp] theorem State.setAttempts_fresh : (s.setAttempts n).fresh = s.fresh := rfl
@[simp] theorem State.setAttempts_reg (r : OpReg) : (s.setAttempts n).reg r = s.reg r := rfl
@[simp] theorem State.setAttempts_num (r : OpReg) : (s.setAttempts n).num r = s.num r := rfl

end

section
variable (s : State) (n : Nat) (m : Master)

@[simp] theorem State.setMaster_params : (s.setMaster n m).params = s.params := rfl
@[simp] theorem State.setMaster_ie : (s.setMaster n m).ie = s.ie := rfl
@[simp] theorem State.setMaster_running : (s.setMaster n m).running = s.running := rfl
@[simp] theorem State.setMaster_done : (s.setMaster n m).done = s.done := rfl
@[simp] theorem State.setMaster_err : (s.setMaster n m).err = s.err := rfl
@[simp] theorem State.setMaster_result : (s.setMaster n m).result = s.result := rfl
@[simp] theorem State.setMaster_wign : (s.setMaster n m).wign = s.wign := rfl
@[simp] theorem State.setMaster_errcode : (s.setMaster n m).errcode = s.errcode := rfl
@[simp] theorem State.setMaster_attempts : (s.setMaster n m).attempts = s.attempts := rfl
@[simp] theorem State.setMaster_p1inf : (s.setMaster n m).p1inf = s.p1inf := rfl
@[simp] theorem State.setMaster_p2inf : (s.setMaster n m).p2inf = s.p2inf := rfl
@[simp] theorem State.setMaster_rinf : (s.setMaster n m).rinf = s.rinf := rfl
@[simp] theorem State.setMaster_operands : (s.setMaster n m).operands = s.operands := rfl
@[simp] theorem State.setMaster_lanes : (s.setMaster n m).lanes = s.lanes := rfl
@[simp] theorem State.setMaster_buf : (s.setMaster n m).buf = s.buf := rfl
@[simp] theorem State.setMaster_digest : (s.setMaster n m).digest = s.digest := rfl
@[simp] theorem State.setMaster_masters : (s.setMaster n m).masters = s.masters.set n m := rfl
@[simp] theorem State.setMaster_turns : (s.setMaster n m).turns = s.turns := rfl
@[simp] theorem State.setMaster_fresh : (s.setMaster n m).fresh = s.fresh := rfl
@[simp] theorem State.setMaster_reg (r : OpReg) : (s.setMaster n m).reg r = s.reg r := rfl
@[simp] theorem State.setMaster_num (r : OpReg) : (s.setMaster n m).num r = s.num r := rfl

end

section
variable (w : Word) (s : State)

@[simp] theorem accept_params : (accept w s).params = s.params := rfl
@[simp] theorem accept_ie : (accept w s).ie = s.ie := rfl
@[simp] theorem accept_running : (accept w s).running = some w := rfl
@[simp] theorem accept_done : (accept w s).done = false := rfl
@[simp] theorem accept_err : (accept w s).err = false := rfl
@[simp] theorem accept_result : (accept w s).result = false := rfl
@[simp] theorem accept_wign : (accept w s).wign = s.wign := rfl
@[simp] theorem accept_errcode : (accept w s).errcode = .noError := rfl
@[simp] theorem accept_attempts : (accept w s).attempts = s.attempts := rfl
@[simp] theorem accept_p1inf : (accept w s).p1inf = s.p1inf := rfl
@[simp] theorem accept_p2inf : (accept w s).p2inf = s.p2inf := rfl
@[simp] theorem accept_rinf : (accept w s).rinf = s.rinf := rfl
@[simp] theorem accept_operands : (accept w s).operands = s.operands := rfl
@[simp] theorem accept_lanes : (accept w s).lanes = s.lanes := rfl
@[simp] theorem accept_buf : (accept w s).buf = s.buf := rfl
@[simp] theorem accept_digest : (accept w s).digest = s.digest := rfl
@[simp] theorem accept_masters : (accept w s).masters = s.masters := rfl
@[simp] theorem accept_turns : (accept w s).turns = s.turns := rfl
@[simp] theorem accept_fresh : (accept w s).fresh = s.fresh := rfl
@[simp] theorem accept_reg (r : OpReg) : (accept w s).reg r = s.reg r := rfl
@[simp] theorem accept_num (r : OpReg) : (accept w s).num r = s.num r := rfl

end

section
variable (c : ErrCode) (v : Bool) (s : State)

@[simp] theorem complete_params : (complete c v s).params = s.params := rfl
@[simp] theorem complete_ie : (complete c v s).ie = s.ie := rfl
@[simp] theorem complete_running : (complete c v s).running = none := rfl
@[simp] theorem complete_done : (complete c v s).done = true := rfl
@[simp] theorem complete_err : (complete c v s).err = decide (c ≠ .noError) := rfl
@[simp] theorem complete_result : (complete c v s).result = (v && decide (c = .noError)) := rfl
@[simp] theorem complete_wign : (complete c v s).wign = s.wign := rfl
@[simp] theorem complete_errcode : (complete c v s).errcode = c := rfl
@[simp] theorem complete_attempts : (complete c v s).attempts = s.attempts := rfl
@[simp] theorem complete_p1inf : (complete c v s).p1inf = s.p1inf := rfl
@[simp] theorem complete_p2inf : (complete c v s).p2inf = s.p2inf := rfl
@[simp] theorem complete_rinf : (complete c v s).rinf = s.rinf := rfl
@[simp] theorem complete_operands : (complete c v s).operands = s.operands := rfl
@[simp] theorem complete_lanes : (complete c v s).lanes = s.lanes := rfl
@[simp] theorem complete_buf : (complete c v s).buf = s.buf := rfl
@[simp] theorem complete_digest : (complete c v s).digest = s.digest := rfl
@[simp] theorem complete_masters : (complete c v s).masters = s.masters := rfl
@[simp] theorem complete_turns : (complete c v s).turns = s.turns := rfl
@[simp] theorem complete_fresh : (complete c v s).fresh = s.fresh := rfl
@[simp] theorem complete_reg (r : OpReg) : (complete c v s).reg r = s.reg r := rfl
@[simp] theorem complete_num (r : OpReg) : (complete c v s).num r = s.num r := rfl

end

section
variable (s : State) (w : Word)

@[simp] theorem writeCtrl_params : (writeCtrl s w).params = s.params := rfl
@[simp] theorem writeCtrl_ie : (writeCtrl s w).ie = w.getLsbD 0 := rfl
@[simp] theorem writeCtrl_running : (writeCtrl s w).running = s.running := rfl
@[simp] theorem writeCtrl_done : (writeCtrl s w).done = s.done := rfl
@[simp] theorem writeCtrl_err : (writeCtrl s w).err = s.err := rfl
@[simp] theorem writeCtrl_result : (writeCtrl s w).result = s.result := rfl
@[simp] theorem writeCtrl_wign : (writeCtrl s w).wign = s.wign := rfl
@[simp] theorem writeCtrl_errcode : (writeCtrl s w).errcode = s.errcode := rfl
@[simp] theorem writeCtrl_attempts : (writeCtrl s w).attempts = s.attempts := rfl
@[simp] theorem writeCtrl_p1inf : (writeCtrl s w).p1inf = s.p1inf := rfl
@[simp] theorem writeCtrl_p2inf : (writeCtrl s w).p2inf = s.p2inf := rfl
@[simp] theorem writeCtrl_rinf : (writeCtrl s w).rinf = s.rinf := rfl
@[simp] theorem writeCtrl_operands : (writeCtrl s w).operands = s.operands := rfl
@[simp] theorem writeCtrl_lanes : (writeCtrl s w).lanes = s.lanes := rfl
@[simp] theorem writeCtrl_buf : (writeCtrl s w).buf = s.buf := rfl
@[simp] theorem writeCtrl_digest : (writeCtrl s w).digest = s.digest := rfl
@[simp] theorem writeCtrl_masters : (writeCtrl s w).masters = s.masters := rfl
@[simp] theorem writeCtrl_turns : (writeCtrl s w).turns = s.turns := rfl
@[simp] theorem writeCtrl_fresh : (writeCtrl s w).fresh = s.fresh := rfl
@[simp] theorem writeCtrl_reg (r : OpReg) : (writeCtrl s w).reg r = s.reg r := rfl
@[simp] theorem writeCtrl_num (r : OpReg) : (writeCtrl s w).num r = s.num r := rfl

end

section
variable (s : State) (w : Word)

@[simp] theorem clearStatus_params : (clearStatus s w).params = s.params := rfl
@[simp] theorem clearStatus_ie : (clearStatus s w).ie = s.ie := rfl
@[simp] theorem clearStatus_running : (clearStatus s w).running = s.running := rfl
@[simp] theorem clearStatus_done : (clearStatus s w).done = (s.done && !w.getLsbD 1) := rfl
@[simp] theorem clearStatus_err : (clearStatus s w).err = (s.err && !w.getLsbD 2) := rfl
@[simp] theorem clearStatus_result : (clearStatus s w).result = s.result := rfl
@[simp] theorem clearStatus_wign : (clearStatus s w).wign = (s.wign && !w.getLsbD 4) := rfl
@[simp] theorem clearStatus_errcode : (clearStatus s w).errcode = s.errcode := rfl
@[simp] theorem clearStatus_attempts : (clearStatus s w).attempts = s.attempts := rfl
@[simp] theorem clearStatus_p1inf : (clearStatus s w).p1inf = s.p1inf := rfl
@[simp] theorem clearStatus_p2inf : (clearStatus s w).p2inf = s.p2inf := rfl
@[simp] theorem clearStatus_rinf : (clearStatus s w).rinf = s.rinf := rfl
@[simp] theorem clearStatus_operands : (clearStatus s w).operands = s.operands := rfl
@[simp] theorem clearStatus_lanes : (clearStatus s w).lanes = s.lanes := rfl
@[simp] theorem clearStatus_buf : (clearStatus s w).buf = s.buf := rfl
@[simp] theorem clearStatus_digest : (clearStatus s w).digest = s.digest := rfl
@[simp] theorem clearStatus_masters : (clearStatus s w).masters = s.masters := rfl
@[simp] theorem clearStatus_turns : (clearStatus s w).turns = s.turns := rfl
@[simp] theorem clearStatus_fresh : (clearStatus s w).fresh = s.fresh := rfl
@[simp] theorem clearStatus_reg (r : OpReg) : (clearStatus s w).reg r = s.reg r := rfl
@[simp] theorem clearStatus_num (r : OpReg) : (clearStatus s w).num r = s.num r := rfl

end

section
variable (s : State) (w : Word)

@[simp] theorem writePflags_params : (writePflags s w).params = s.params := rfl
@[simp] theorem writePflags_ie : (writePflags s w).ie = s.ie := rfl
@[simp] theorem writePflags_running : (writePflags s w).running = s.running := rfl
@[simp] theorem writePflags_done : (writePflags s w).done = s.done := rfl
@[simp] theorem writePflags_err : (writePflags s w).err = s.err := rfl
@[simp] theorem writePflags_result : (writePflags s w).result = s.result := rfl
@[simp] theorem writePflags_wign : (writePflags s w).wign = s.wign := rfl
@[simp] theorem writePflags_errcode : (writePflags s w).errcode = s.errcode := rfl
@[simp] theorem writePflags_attempts : (writePflags s w).attempts = s.attempts := rfl
@[simp] theorem writePflags_p1inf : (writePflags s w).p1inf = w.getLsbD 0 := rfl
@[simp] theorem writePflags_p2inf : (writePflags s w).p2inf = w.getLsbD 1 := rfl
@[simp] theorem writePflags_rinf : (writePflags s w).rinf = w.getLsbD 2 := rfl
@[simp] theorem writePflags_operands : (writePflags s w).operands = s.operands := rfl
@[simp] theorem writePflags_lanes : (writePflags s w).lanes = s.lanes := rfl
@[simp] theorem writePflags_buf : (writePflags s w).buf = s.buf := rfl
@[simp] theorem writePflags_digest : (writePflags s w).digest = s.digest := rfl
@[simp] theorem writePflags_masters : (writePflags s w).masters = s.masters := rfl
@[simp] theorem writePflags_turns : (writePflags s w).turns = s.turns := rfl
@[simp] theorem writePflags_fresh : (writePflags s w).fresh = s.fresh := rfl
@[simp] theorem writePflags_reg (r : OpReg) : (writePflags s w).reg r = s.reg r := rfl
@[simp] theorem writePflags_num (r : OpReg) : (writePflags s w).num r = s.num r := rfl

end

section
variable (s : State)

@[simp] theorem takeTurn_params : (takeTurn s).params = s.params := rfl
@[simp] theorem takeTurn_ie : (takeTurn s).ie = s.ie := rfl
@[simp] theorem takeTurn_running : (takeTurn s).running = s.running := rfl
@[simp] theorem takeTurn_done : (takeTurn s).done = s.done := rfl
@[simp] theorem takeTurn_err : (takeTurn s).err = s.err := rfl
@[simp] theorem takeTurn_result : (takeTurn s).result = s.result := rfl
@[simp] theorem takeTurn_wign : (takeTurn s).wign = s.wign := rfl
@[simp] theorem takeTurn_errcode : (takeTurn s).errcode = s.errcode := rfl
@[simp] theorem takeTurn_attempts : (takeTurn s).attempts = s.attempts := rfl
@[simp] theorem takeTurn_p1inf : (takeTurn s).p1inf = s.p1inf := rfl
@[simp] theorem takeTurn_p2inf : (takeTurn s).p2inf = s.p2inf := rfl
@[simp] theorem takeTurn_rinf : (takeTurn s).rinf = s.rinf := rfl
@[simp] theorem takeTurn_operands : (takeTurn s).operands = s.operands := rfl
@[simp] theorem takeTurn_lanes : (takeTurn s).lanes = s.lanes := rfl
@[simp] theorem takeTurn_buf : (takeTurn s).buf = s.buf := rfl
@[simp] theorem takeTurn_digest : (takeTurn s).digest = s.digest := rfl
@[simp] theorem takeTurn_masters : (takeTurn s).masters = s.masters := rfl
@[simp] theorem takeTurn_turns : (takeTurn s).turns = s.turns.tail := rfl
@[simp] theorem takeTurn_fresh : (takeTurn s).fresh = s.fresh + 1 := rfl
@[simp] theorem takeTurn_reg (r : OpReg) : (takeTurn s).reg r = s.reg r := rfl
@[simp] theorem takeTurn_num (r : OpReg) : (takeTurn s).num r = s.num r := rfl

end

/-! ### The operand registers -/

@[simp] theorem OpReg.ofIndex_index (r : OpReg) : OpReg.ofIndex r.index = r := by cases r <;> rfl

theorem OpReg.index_injective {r r' : OpReg} (h : r.index = r'.index) : r = r' := by
  rw [← OpReg.ofIndex_index r, h, OpReg.ofIndex_index]

@[simp] theorem OpReg.index_ofIndex (n : Fin 24) : (OpReg.ofIndex n).index = n := by revert n; decide

@[simp] theorem State.reg_setReg_self (s : State) (r : OpReg) (v : U256) : (s.setReg r v).reg r = v := by
  simp [State.reg]

theorem State.reg_setReg_of_ne (s : State) {r r' : OpReg} (v : U256) (h : r' ≠ r) :
    (s.setReg r v).reg r' = s.reg r' := by
  have hne : (r.index : Nat) ≠ r'.index := fun e => h (OpReg.index_injective (Fin.ext e.symm))
  simp [State.reg, hne]

/-- A register after a write to a register: the one lemma for both cases. -/
theorem State.reg_setReg (s : State) (r r' : OpReg) (v : U256) :
    (s.setReg r v).reg r' = if r' = r then v else s.reg r' := by
  by_cases h : r' = r
  · subst h; simp
  · simp [h, State.reg_setReg_of_ne s v h]

theorem State.reg_setNum (s : State) (r r' : OpReg) (n : Nat) :
    (s.setNum r n).reg r' = if r' = r then BitVec.ofNat 256 n else s.reg r' := State.reg_setReg s r r' _

/-- The number in a register after a write of a number that fits. -/
theorem State.num_setNum (s : State) (r r' : OpReg) {n : Nat} (h : n < 2 ^ 256) :
    (s.setNum r n).num r' = if r' = r then n else s.num r' := by
  unfold State.num
  rw [State.reg_setNum]
  split
  · rw [BitVec.toNat_ofNat, Nat.mod_eq_of_lt h]
  · rfl

theorem State.num_lt (s : State) (r : OpReg) : s.num r < 2 ^ 256 := (s.reg r).isLt

/-- Two states agree in every operand register exactly if their register files are equal. -/
theorem State.operands_ext {s t : State} (h : ∀ r, t.reg r = s.reg r) : t.operands = s.operands := by
  apply Vector.ext
  intro i hi
  have := h (OpReg.ofIndex ⟨i, hi⟩)
  simpa [State.reg] using this

/-- Writes to different registers commute. -/
theorem State.setReg_comm (s : State) {r r' : OpReg} (v v' : U256) (h : r ≠ r') :
    (s.setReg r v).setReg r' v' = (s.setReg r' v').setReg r v := by
  have hne : (r.index : Nat) ≠ r'.index := fun e => h (OpReg.index_injective (Fin.ext e))
  simp only [State.setReg]
  rw [Vector.set_comm _ _ hne]

/-! ### Lanes -/

theorem laneIndex_val (x y : Nat) : (laneIndex x y).val = x % 5 + 5 * (y % 5) := rfl

theorem laneIndex_inj {x y x' y' : Nat} : laneIndex x y = laneIndex x' y' ↔ x % 5 = x' % 5 ∧ y % 5 = y' % 5 := by
  rw [Fin.ext_iff, laneIndex_val, laneIndex_val]; omega

/-- A lane after a write to a lane. -/
theorem laneAt_putLane (A : Lanes) (x y x' y' : Nat) (v : Lane) :
    laneAt (putLane A x y v) x' y' = if x' % 5 = x % 5 ∧ y' % 5 = y % 5 then v else laneAt A x' y' := by
  have h := @laneIndex_inj x' y' x y
  rw [Fin.ext_iff] at h
  simp only [laneAt, putLane, Fin.getElem_fin, Vector.getElem_set]
  split <;> split <;> simp_all

/-- Two sponge states are equal if their 25 lanes are. -/
theorem lanes_ext {A B : Lanes} (h : ∀ x y, x < 5 → y < 5 → laneAt A x y = laneAt B x y) : A = B := by
  apply Vector.ext
  intro i hi
  have key := h (i % 5) (i / 5) (by omega) (by omega)
  have e : laneIndex (i % 5) (i / 5) = ⟨i, hi⟩ := by rw [Fin.ext_iff, laneIndex_val]; simp; omega
  simpa [laneAt, e] using key

end Sys2Proof.Machine
end

