-- ==== Sys2Proof/Laws/Keccak.lean ====
section
/-! SUPPORT. Lanes of the step mappings (42_keccak.md R86–R90). -/

namespace Sys2Proof.Machine

/-- A lane of a tabulated array. -/
theorem laneAt_tabulate (f : Nat → Nat → Lane) (x y : Nat) : laneAt (tabulate f) x y = f (x % 5) (y % 5) := by
  simp only [laneAt, tabulate, laneIndex, Fin.getElem_fin, Vector.getElem_ofFn]
  congr 1 <;> omega

/-- Lane indexes are taken mod 5 (42_keccak.md R86). -/
theorem laneAt_mod (A : Lanes) (x y : Nat) : laneAt A (x % 5) (y % 5) = laneAt A x y := by
  have h : laneIndex (x % 5) (y % 5) = laneIndex x y := laneIndex_inj.2 (by omega)
  simp only [laneAt, h]

/-- `rotl` is the rotation of the bit vector, for the offsets 0 to 63. -/
theorem rotl_eq_rotateLeft (v : Lane) {n : Nat} (h : n < 64) : rotl v n = v.rotateLeft n := by
  unfold rotl
  rw [BitVec.rotateLeft_def, Nat.mod_eq_of_lt h]
  split
  · next h0 => subst h0; apply BitVec.eq_of_getLsbD_eq; simp
  · rfl

end Sys2Proof.Machine
end

