-- ==== Sys2Proof/Laws/PerInstr.lean ====
section
/-! SUPPORT. The fields of every command's word (30_encoding.md R57): one lemma per command. -/

namespace Sys2Proof.Laws.EncodeFields

open Sys2Proof

/-- The word of a command has its operation code, its LEN and its KSRC in their places, and RSV = 0. -/
def Statement (i : Instr) : Prop :=
  opField (encode i) = opcode i ∧ lenField (encode i) = lenOf i ∧ ksrcField (encode i) = ksrcOf i ∧
    rsvField (encode i) = 0

theorem modmul : Statement .modmul := by unfold Statement; decide
theorem modinv : Statement .modinv := by unfold Statement; decide
theorem padd : Statement .padd := by unfold Statement; decide
theorem pdbl : Statement .pdbl := by unfold Statement; decide
theorem pmul : Statement .pmul := by unfold Statement; decide
theorem keccakf : Statement .keccakf := by unfold Statement; decide
theorem hinit : Statement .hinit := by unfold Statement; decide
theorem habsorb : Statement .habsorb := by unfold Statement; decide
theorem hfinal (len : BitVec 8) : Statement (.hfinal len) := by unfold Statement; revert len; decide
theorem sign (ksrc : NonceSource) : Statement (.sign ksrc) := by unfold Statement; cases ksrc <;> decide
theorem verify : Statement .verify := by unfold Statement; decide

end Sys2Proof.Laws.EncodeFields
end

