-- ==== Sys2Proof/Laws/Signature.lean ====
section
/-! SUPPORT. The nonce source, the checks and the retry loop (44_ecdsa.md R109–R111). -/

namespace Sys2Proof.Machine

/-- What a run of the retry loop can do: every attempt before the last was rejected, and the last one signed, or met
an error, or was the last that the cap allows. -/
theorem retryLoop_spec (nonce : Nat → Nat) (attempt : Nat → Attempt) (left n : Nat) (h : 1 ≤ left) :
    ∃ j, j < left ∧ (retryLoop nonce attempt left n).1 = n + j + 1 ∧
      (∀ i, i < j → attempt (nonce (n + i)) = .rejected) ∧
      ((∃ r sig, attempt (nonce (n + j)) = .signed r sig ∧ (retryLoop nonce attempt left n).2 = .ok (r, sig)) ∨
        (∃ code, attempt (nonce (n + j)) = .failed code ∧ (retryLoop nonce attempt left n).2 = .error code) ∨
        (j + 1 = left ∧ attempt (nonce (n + j)) = .rejected ∧
          (retryLoop nonce attempt left n).2 = .error .retryLimit)) := by
  induction left generalizing n with
  | zero => omega
  | succ left ih =>
    rw [retryLoop]
    cases ha : attempt (nonce n) with
    | signed r sig => exact ⟨0, by omega, rfl, by omega, .inl ⟨r, sig, ha, rfl⟩⟩
    | failed code => exact ⟨0, by omega, rfl, by omega, .inr (.inl ⟨code, ha, rfl⟩)⟩
    | rejected =>
      by_cases hl : left = 0
      · subst hl
        exact ⟨0, by omega, rfl, by omega, .inr (.inr ⟨rfl, ha, rfl⟩)⟩
      · obtain ⟨j, hj, hn, hrej, hlast⟩ := ih (n + 1) (by omega)
        refine ⟨j + 1, by omega, by simp only [hn]; omega, ?_, ?_⟩
        · intro i hi
          cases i with
          | zero => exact ha
          | succ i => rw [show n + (i + 1) = n + 1 + i by omega]; exact hrej i (by omega)
        · rw [show n + (j + 1) = n + 1 + j by omega, Nat.add_left_inj]
          exact hlast

/-- An attempt that signs gives numbers in [1, q - 1]. -/
theorem attemptWith_signed {s : State} {e k r sig : Nat} (h : attemptWith s e k = .signed r sig) :
    r ≠ 0 ∧ sig ≠ 0 ∧ sig = (r * s.num .d + k * e) % s.num .cq ∧
      ∃ R, scalarMul (s.num .cp) (s.num .ca) s.basePoint k = .ok R ∧ r = xMod (s.num .cq) R := by
  unfold attemptWith at h
  cases hR : scalarMul (s.num .cp) (s.num .ca) s.basePoint k with
  | error code => simp [hR] at h
  | ok R =>
    simp only [hR] at h
    split_ifs at h with h1 h2
    injection h with h3 h4
    subst h3 h4
    exact ⟨h1, h2, rfl, R, rfl, rfl⟩

end Sys2Proof.Machine
end

