-- ==== Sys2Proof/Laws/Sponge.lean ====
section
/-! SUPPORT. Absorbing and squeezing (43_sponge.md). -/

namespace Sys2Proof.Machine

@[simp] theorem laneBytes_length (v : Lane) : (laneBytes v).length = 8 := rfl

theorem squeezeFrom_length (P : Params) (n j : Nat) (S : Lanes) : (squeezeFrom P n j S).1.length = 8 * n := by
  induction n generalizing j S with
  | zero => rfl
  | succ n ih => simp [squeezeFrom, ih]; omega

/-- The squeeze emits 32 bytes (43_sponge.md R102). -/
theorem squeeze_length (P : Params) (S : Lanes) : (squeeze P S).1.length = 32 := squeezeFrom_length P 4 0 S

/-- The squeeze, unrolled (43_sponge.md R102). -/
theorem squeeze_eq (P : Params) (S : Lanes) :
    squeeze P S =
      (laneBytes (laneAt S 0 0) ++ (laneBytes (laneAt (keccakF P S) 0 1) ++
        (laneBytes (laneAt (keccakF P (keccakF P S)) 0 2) ++
          (laneBytes (laneAt (keccakF P (keccakF P (keccakF P S))) 0 3) ++ []))),
       keccakF P (keccakF P (keccakF P (keccakF P S)))) := rfl

/-- The digest integer keeps the bytes 0 to 30 and clears the top bit of byte 31 (43_sponge.md R103). -/
theorem digestInt_byte (out : List Byte) (h : out.length = 32) (i : Nat) :
    (digestInt out).extractLsb' (8 * i) 8 =
      if i = 31 then out.getD 31 0 &&& 0x7F#8 else out.getD i 0 := by
  rw [digestInt, le256_byte _ _ (by simp [h]), List.getD_eq_getElem?_getD, List.getElem?_set]
  by_cases hi : i = 31
  · subst hi; simp [h]
  · simp [hi, Ne.symm hi]

end Sys2Proof.Machine
end

