-- ==== Sys2Proof/Laws/Step.lean ====
section
/-! SUPPORT. What the shared operations and a step can do, said once. -/

namespace Sys2Proof.Machine

/-! ### The command lifecycle -/

@[simp] theorem busy_accept (w : Word) (s : State) : (accept w s).busy = true := rfl

@[simp] theorem busy_complete (c : ErrCode) (v : Bool) (s : State) : (complete c v s).busy = false := rfl

@[simp] theorem raise_eq (c : ErrCode) (s : State) : raise c s = .next (complete c false s) := rfl

@[simp] theorem succeed_eq (s : State) : succeed s = .next (complete .noError false s) := rfl

@[simp] theorem conclude_ok (s t : State) : conclude (.ok t) s = .next (complete .noError false t) := rfl

@[simp] theorem conclude_error (s : State) (e : ErrCode) : conclude (.error e) s = .next (complete e false s) := rfl

/-- A conclusion is always a completion: of the computed outputs, or of the state as it was. -/
theorem conclude_cases (o : Except ErrCode State) (s : State) :
    (∃ t, o = .ok t ∧ conclude o s = .next (complete .noError false t)) ∨
      ∃ e, o = .error e ∧ conclude o s = .next (complete e false s) := by
  cases o with
  | ok t => exact .inl ⟨t, rfl, rfl⟩
  | error e => exact .inr ⟨e, rfl, rfl⟩

/-- Every command's step is a completion of some state. -/
theorem exec_is_completion (i : Instr) (s : State) : ∃ c v u, exec i s = .next (complete c v u) := by
  cases i with
  | modmul => simp only [exec, execModmul]; split <;> exact ⟨_, _, _, rfl⟩
  | modinv =>
    simp only [exec, execModinv]
    split
    · exact ⟨_, _, _, rfl⟩
    · rcases conclude_cases _ s with ⟨t, -, h⟩ | ⟨e, -, h⟩ <;> exact ⟨_, _, _, h⟩
  | padd => rcases conclude_cases _ s with ⟨t, -, h⟩ | ⟨e, -, h⟩ <;> exact ⟨_, _, _, h⟩
  | pdbl => rcases conclude_cases _ s with ⟨t, -, h⟩ | ⟨e, -, h⟩ <;> exact ⟨_, _, _, h⟩
  | pmul => rcases conclude_cases _ s with ⟨t, -, h⟩ | ⟨e, -, h⟩ <;> exact ⟨_, _, _, h⟩
  | keccakf => exact ⟨_, _, _, rfl⟩
  | hinit => exact ⟨_, _, _, rfl⟩
  | habsorb => exact ⟨_, _, _, rfl⟩
  | hfinal len => simp only [exec, execHfinal]; split <;> exact ⟨_, _, _, rfl⟩
  | sign k => simp only [exec, execSign]; split <;> [skip; split] <;> exact ⟨_, _, _, rfl⟩
  | verify => simp only [exec, execVerify]; split <;> [skip; split] <;> exact ⟨_, _, _, rfl⟩

/-- Performing a command word, legal or not, is a completion. -/
theorem runWord_is_completion (w : Word) (s : State) : ∃ c v u, runWord w s = .next (complete c v u) := by
  unfold runWord
  split
  · exact exec_is_completion _ s
  · exact ⟨_, _, _, rfl⟩

/-- Two states have the same agents outside the core, with the same coming turns. -/
def SameAgents (s t : State) : Prop := t.masters = s.masters ∧ t.turns = s.turns

theorem sameAgents_complete {s u : State} (h : SameAgents s u) (c : ErrCode) (v : Bool) :
    SameAgents s (complete c v u) := h

theorem sameAgents_writeR (s : State) (R : Point) : SameAgents s (writeR s R) := by cases R <;> exact ⟨rfl, rfl⟩

/-- A conclusion has the agents that the computed outputs have, and those of the state as it was on an error. -/
theorem conclude_agents {o : Except ErrCode State} {s t : State} (ho : ∀ u, o = .ok u → SameAgents s u)
    (h : conclude o s = .next t) : SameAgents s t := by
  rcases conclude_cases o s with ⟨u, hu, e⟩ | ⟨c, -, e⟩ <;> rw [e] at h <;> cases h
  · exact sameAgents_complete (ho u hu) _ _
  · exact sameAgents_complete ⟨rfl, rfl⟩ _ _

/-- What a curve command computes is its result point, written (41_ecc.md R79). -/
theorem sameAgents_of_point {s u : State} {o : Except ErrCode Point} (h : (o.bind fun R => .ok (writeR s R)) = .ok u) :
    SameAgents s u := by
  cases o with
  | error e => cases h
  | ok R => cases h; exact sameAgents_writeR s R

/-- No command changes the agents outside the core. -/
theorem exec_agents {i : Instr} {s t : State} (h : exec i s = .next t) : SameAgents s t := by
  cases i with
  | modmul =>
    simp only [exec, execModmul] at h
    split at h <;> cases h <;> exact ⟨rfl, rfl⟩
  | modinv =>
    simp only [exec, execModinv] at h
    split at h
    · cases h; exact ⟨rfl, rfl⟩
    · refine conclude_agents (fun u hu => ?_) h
      cases hf : finv (s.num .a) (s.num .m) with
      | error e => rw [hf] at hu; cases hu
      | ok v => rw [hf] at hu; cases hu; exact ⟨rfl, rfl⟩
  | padd =>
    refine conclude_agents (fun u hu => ?_) h
    simp only [bind, Except.bind] at hu
    split at hu <;> [cases hu; skip]
    split at hu <;> [cases hu; skip]
    split at hu <;> [cases hu; skip]
    exact sameAgents_of_point hu
  | pdbl =>
    refine conclude_agents (fun u hu => ?_) h
    simp only [bind, Except.bind] at hu
    split at hu <;> [cases hu; skip]
    split at hu <;> [cases hu; skip]
    exact sameAgents_of_point hu
  | pmul =>
    refine conclude_agents (fun u hu => ?_) h
    simp only [bind, Except.bind] at hu
    split at hu <;> [cases hu; skip]
    split at hu <;> [cases hu; skip]
    by_cases h0 : s.num .a = 0
    · simp [h0] at hu
    · simp only [h0, if_false] at hu
      exact sameAgents_of_point hu
  | keccakf => cases h; exact ⟨rfl, rfl⟩
  | hinit => cases h; exact ⟨rfl, rfl⟩
  | habsorb => cases h; exact ⟨rfl, rfl⟩
  | hfinal len =>
    simp only [exec, execHfinal] at h
    split at h <;> cases h <;> exact ⟨rfl, rfl⟩
  | sign k =>
    simp only [exec, execSign] at h
    split at h <;> [skip; split at h] <;> cases h <;> exact ⟨rfl, rfl⟩
  | verify =>
    simp only [exec, execVerify] at h
    split at h <;> [skip; split at h] <;> cases h <;> exact ⟨rfl, rfl⟩

/-- No command word, legal or not, changes the agents outside the core. -/
theorem runWord_agents {w : Word} {s t : State} (h : runWord w s = .next t) : SameAgents s t := by
  unfold runWord at h
  split at h
  · exact exec_agents h
  · cases h; exact ⟨rfl, rfl⟩

/-! ### Host accesses -/

/-- What a host write can do: nothing with BUSERR; only WIGN while a command runs; or the slot's own write. -/
theorem memWrite_cases (s : State) (size : AccessSize) (off : Offset) (v : Word) :
    ((size ≠ .b32 ∨ slotAt off = none) ∧ memWrite s size off v = (s, busError)) ∨
      (∃ sl, size = .b32 ∧ slotAt off = some sl ∧ s.busy = true ∧ openWhileBusy sl = false ∧
        memWrite s size off v = ({ s with wign := true }, busOkay 0)) ∨
      ∃ sl, size = .b32 ∧ slotAt off = some sl ∧ (s.busy = false ∨ openWhileBusy sl = true) ∧
        memWrite s size off v = (writeSlot s sl v, busOkay 0) := by
  unfold memWrite
  cases size <;> cases hs : slotAt off <;> try exact .inl ⟨by simp, rfl⟩
  next sl =>
    right
    by_cases hb : s.busy = true ∧ openWhileBusy sl = false
    · exact .inl ⟨sl, rfl, rfl, hb.1, hb.2, by simp [hb.1, hb.2]⟩
    · refine .inr ⟨sl, rfl, rfl, ?_, ?_⟩
      · cases h1 : s.busy <;> cases h2 : openWhileBusy sl <;> simp_all
      · cases h1 : s.busy <;> cases h2 : openWhileBusy sl <;> simp_all

/-- What a host read can answer. -/
theorem memRead_cases (s : State) (size : AccessSize) (off : Offset) :
    ((size ≠ .b32 ∨ slotAt off = none) ∧ memRead s size off = busError) ∨
      (∃ sl, size = .b32 ∧ slotAt off = some sl ∧ s.busy = true ∧ inWriteSet s sl = true ∧
        memRead s size off = busOkay (Config.busyRead State s off)) ∨
      ∃ sl, size = .b32 ∧ slotAt off = some sl ∧ (s.busy = false ∨ inWriteSet s sl = false) ∧
        memRead s size off = busOkay (slotWord s sl) := by
  unfold memRead
  cases size <;> cases hs : slotAt off <;> try exact .inl ⟨by simp, rfl⟩
  next sl =>
    right
    by_cases hb : s.busy = true ∧ inWriteSet s sl = true
    · exact .inl ⟨sl, rfl, rfl, hb.1, hb.2, by simp [hb.1, hb.2]⟩
    · refine .inr ⟨sl, rfl, rfl, ?_, ?_⟩
      · cases h1 : s.busy <;> cases h2 : inWriteSet s sl <;> simp_all
      · cases h1 : s.busy <;> cases h2 : inWriteSet s sl <;> simp_all

/-- No host write changes the agents outside the core. -/
theorem memWrite_agents (s : State) (size : AccessSize) (off : Offset) (v : Word) :
    SameAgents s (memWrite s size off v).1 := by
  rcases memWrite_cases s size off v with ⟨-, e⟩ | ⟨sl, -, -, -, -, e⟩ | ⟨sl, -, -, -, e⟩ <;> rw [e]
  · exact ⟨rfl, rfl⟩
  · exact ⟨rfl, rfl⟩
  · cases sl <;> simp only [writeSlot] <;> [skip; skip; skip; skip; skip; skip; skip; skip; split; skip; skip; skip] <;>
      exact ⟨rfl, rfl⟩

/-! ### Turns and steps -/

/-- A bus master's turn leaves the state, changes that master alone, or performs one of its writes; or the host program
is faulty and the run stops. -/
theorem masterTurn_cases (n : Nat) (s : State) :
    masterTurn n s = .next s ∨
      (∃ m m', s.masters[n]? = some m ∧ masterTurn n s = .next (s.setMaster n m')) ∨
      (∃ m m' size off v, s.masters[n]? = some m ∧ m'.temps = m.temps ∧
        masterTurn n s = .next ((memWrite s size off v).1.setMaster n m')) ∨
      ∃ f, masterTurn n s = .fault f := by
  unfold masterTurn
  cases hm : s.masters[n]? with
  | none => exact .inl rfl
  | some m =>
    dsimp only
    cases hst : m.program[m.pos]? with
    | none => exact .inl rfl
    | some st =>
      right
      cases st with
      | rd size off dst => exact .inl ⟨m, _, rfl, rfl⟩
      | label l => exact .inl ⟨m, _, rfl, rfl⟩
      | wr size off v =>
        simp only [hostStmt]
        cases hostValue m v with
        | none => exact .inr (.inr ⟨_, rfl⟩)
        | some w => exact .inr (.inl ⟨m, m.afterWrite _, size, off, w, rfl, rfl, rfl⟩)
      | bnz t mask l =>
        simp only [hostStmt]
        cases readTemp m.temps t with
        | none => exact .inr (.inr ⟨_, rfl⟩)
        | some w =>
          simp only [hostBranch]
          split
          · cases labelPos m.program l with
            | none => exact .inr (.inr ⟨_, rfl⟩)
            | some p => exact .inl ⟨m, _, rfl, rfl⟩
          · exact .inl ⟨m, _, rfl, rfl⟩
      | bz t mask l =>
        simp only [hostStmt]
        cases readTemp m.temps t with
        | none => exact .inr (.inr ⟨_, rfl⟩)
        | some w =>
          simp only [hostBranch]
          split
          · cases labelPos m.program l with
            | none => exact .inr (.inr ⟨_, rfl⟩)
            | some p => exact .inl ⟨m, _, rfl, rfl⟩
          · exact .inl ⟨m, _, rfl, rfl⟩

/-- Everything a step that answers a next state can do: an idle turn, the completion of the running command, a reset, a
bus master's own progress, or a host write. -/
theorem step_next_cases {s t : State} (h : step s = .next t) :
    t = takeTurn s ∨
      (∃ w, nextTurn s = .engine ∧ s.running = some w ∧ runWord w (takeTurn s) = .next t) ∨
      (nextTurn s = .reset ∧ t = resetCore (takeTurn s)) ∨
      (∃ n m, nextTurn s = .master n ∧ t = (takeTurn s).setMaster n m) ∨
      ∃ n m size off v, nextTurn s = .master n ∧ t = (memWrite (takeTurn s) size off v).1.setMaster n m := by
  unfold step at h
  cases hn : nextTurn s with
  | master n =>
    simp only [hn] at h
    rcases masterTurn_cases n (takeTurn s) with e | ⟨m, m', -, e⟩ | ⟨m, m', size, off, v, -, -, e⟩ | ⟨f, e⟩ <;>
      rw [e] at h
    · injection h with h; exact .inl h.symm
    · injection h with h; exact .inr (.inr (.inr (.inl ⟨n, m', rfl, h.symm⟩)))
    · injection h with h; exact .inr (.inr (.inr (.inr ⟨n, m', size, off, v, rfl, h.symm⟩)))
    · cases h
  | engine =>
    simp only [hn, engineTurn] at h
    cases hr : (takeTurn s).running with
    | none => rw [hr] at h; injection h with h; exact .inl h.symm
    | some w => rw [hr] at h; exact .inr (.inl ⟨w, rfl, hr, h⟩)
  | reset =>
    simp only [hn] at h
    injection h with h
    exact .inr (.inr (.inl ⟨rfl, h.symm⟩))

/-- Every step takes exactly one turn. -/
theorem step_turns {s t : State} (h : step s = .next t) : t.turns = s.turns.tail := by
  rcases step_next_cases h with rfl | ⟨w, -, -, h⟩ | ⟨-, rfl⟩ | ⟨n, m, -, rfl⟩ | ⟨n, m, size, off, v, -, rfl⟩
  · rfl
  · exact (runWord_agents h).2
  · rfl
  · rfl
  · exact (memWrite_agents _ _ _ _).2

/-- No step adds or removes a bus master. -/
theorem step_masters_length {s t : State} (h : step s = .next t) : t.masters.length = s.masters.length := by
  rcases step_next_cases h with rfl | ⟨w, -, -, h⟩ | ⟨-, rfl⟩ | ⟨n, m, -, rfl⟩ | ⟨n, m, size, off, v, -, rfl⟩
  · rfl
  · rw [(runWord_agents h).1]; rfl
  · rfl
  · simp
  · simp [(memWrite_agents _ _ _ _).1]

/-! ### The bound temporaries -/

/-- Binding a temporary keeps the list strictly rising. -/
theorem bindTemp_sorted {l : List (Nat × Word)} (h : l.Pairwise fun x y => x.1 < y.1) (t : Nat) (v : Word) :
    (bindTemp l t v).Pairwise fun x y => x.1 < y.1 := by
  have mem : ∀ (l : List (Nat × Word)) (x : Nat × Word), x ∈ bindTemp l t v → x = (t, v) ∨ x ∈ l := by
    intro l
    induction l with
    | nil => intro x hx; simp [bindTemp] at hx; exact .inl hx
    | cons a l ih =>
      intro x hx
      simp only [bindTemp] at hx
      split_ifs at hx
      · simpa using hx
      · simp only [List.mem_cons] at hx ⊢; tauto
      · simp only [List.mem_cons] at hx ⊢
        rcases hx with hx | hx
        · exact .inr (.inl hx)
        · rcases ih x hx with h | h <;> tauto
  induction l with
  | nil => simp [bindTemp]
  | cons a l ih =>
    rw [List.pairwise_cons] at h
    simp only [bindTemp]
    split_ifs with h1 h2
    · rw [List.pairwise_cons, List.pairwise_cons]
      refine ⟨?_, h⟩
      intro x hx
      rcases List.mem_cons.1 hx with rfl | hx
      · exact h1
      · exact lt_trans h1 (h.1 x hx)
    · rw [List.pairwise_cons]
      exact ⟨fun x hx => by have := h.1 x hx; simp only; omega, h.2⟩
    · rw [List.pairwise_cons]
      refine ⟨?_, ih h.2⟩
      intro x hx
      rcases mem l x hx with rfl | hx
      · simp only; omega
      · exact h.1 x hx

/-- A temporary reads as it was bound, and the others are unchanged. -/
theorem readTemp_bindTemp (l : List (Nat × Word)) (t u : Nat) (v : Word) :
    readTemp (bindTemp l t v) u = if u = t then some v else readTemp l u := by
  induction l with
  | nil => simp [bindTemp, readTemp, eq_comm]
  | cons a l ih =>
    by_cases hu : u = t
    · subst hu
      simp only [bindTemp]
      split_ifs with h1 h2
      · simp [readTemp]
      · simp [readTemp]
      · simp [readTemp, Ne.symm h2, ih]
    · simp only [bindTemp, if_neg hu] at ih ⊢
      split_ifs with h1 h2
      · simp [readTemp, Ne.symm hu]
      · simp [readTemp, ← h2, Ne.symm hu]
      · simp only [readTemp, ih]

end Sys2Proof.Machine
end

