-- ==== Sys2Proof/Tests/Slice0.lean ====
section
/-! SUPPORT. Tests. Expected results are the spec's: the tables and programs of 95_test_vectors.md, the worked
examples of the command rules, or hand calculation from a rule. The second half holds, for every statement with
hypotheses, a concrete state that meets them. -/

namespace Sys2Proof.Tests

open Sys2Proof Sys2Proof.Machine Sys2Proof.Safety

set_option Elab.async false

/-! ### Helpers -/

/-- The state with the given operand registers loaded. -/
def load (l : List (OpReg × Nat)) (s : State) : State := l.foldl (fun s rv => s.setNum rv.1 rv.2) s

/-- The state a command or a step answers. -/
def after : Result → Option State
  | .next t => some t
  | _ => none

/-- The code a command completes with, and one register after it. -/
def codeAnd (i : Instr) (s : State) (r : OpReg) : Option (ErrCode × Nat) :=
  (after (exec i s)).map fun t => (t.errcode, t.num r)

/-- The code and the result point R. -/
def codeAndR (i : Instr) (s : State) : Option (ErrCode × Point) :=
  (after (exec i s)).map fun t => (t.errcode, resultPoint t)

/-- The signing domain of 95_test_vectors.md §3.5: p = 17, a = 2, q = 19, G = (5, 1), d = 7, Q = (0, 6), with the
given digest and nonce. -/
def toy (h k : Nat) : State :=
  load [(.cp, 17), (.ca, 2), (.cb, 2), (.cq, 19), (.gx, 5), (.gy, 1), (.d, 7), (.qx, 0), (.qy, 6), (.h, h), (.k, k)]
    State.reset

/-- That domain with a signature. -/
def signedToy (r sig : Nat) : State := load [(.sr, r), (.ss, sig)] (toy 5 10)

/-- The toy curve with the operand points P1 and P2. -/
def points (x1 y1 x2 y2 : Nat) : State :=
  load [(.cp, 17), (.ca, 2), (.p1x, x1), (.p1y, y1), (.p2x, x2), (.p2y, y2)] State.reset

/-- One bus master with a program, and the given coming turns. -/
def running (program : List HostStmt) (turns : List Turn) : State :=
  { State.reset with masters := [Master.start program], turns := turns }

/-! ### Well-formedness and encodings -/

/-- 30_encoding.md R60: LEN = 136 is ill formed, LEN = 135 is not. -/
theorem test_hfinal_len_136_is_ill_formed : Instr.wellFormed (.hfinal 136#8) = false := by decide

theorem test_hfinal_len_135_is_well_formed : Instr.wellFormed (.hfinal 135#8) = true := by decide

/-- The words of 30_encoding.md R57, R58 written bit by bit: RSV ‖ KSRC ‖ LEN ‖ OP. -/
theorem test_decode_modmul : decode 0b000000000000000_0_00000000_00000001#32 = .ok .modmul := by decide

theorem test_decode_modinv : decode 0b000000000000000_0_00000000_00000010#32 = .ok .modinv := by decide

theorem test_decode_padd : decode 0b000000000000000_0_00000000_00000011#32 = .ok .padd := by decide

theorem test_decode_pdbl : decode 0b000000000000000_0_00000000_00000100#32 = .ok .pdbl := by decide

theorem test_decode_pmul : decode 0b000000000000000_0_00000000_00000101#32 = .ok .pmul := by decide

theorem test_decode_keccakf : decode 0b000000000000000_0_00000000_00000110#32 = .ok .keccakf := by decide

theorem test_decode_hinit : decode 0b000000000000000_0_00000000_00000111#32 = .ok .hinit := by decide

theorem test_decode_habsorb : decode 0b000000000000000_0_00000000_00001000#32 = .ok .habsorb := by decide

/-- 43_sponge.md R104: 0x00000309 for t = 3. -/
theorem test_decode_hfinal : decode 0b000000000000000_0_00000011_00001001#32 = .ok (.hfinal 3#8) := by decide

theorem test_decode_sign : decode 0b000000000000000_1_00000000_00001010#32 = .ok (.sign .registerK) := by decide

theorem test_decode_verify : decode 0b000000000000000_0_00000000_00001011#32 = .ok .verify := by decide

/-- 30_encoding.md R59, each conjunct of `legal`: a reserved bit, an unassigned OP, a stray LEN, a LEN too large, a
stray KSRC. -/
theorem test_decode_refuses :
    decode 0b000000000000001_0_00000000_00000001#32 = .error .reservedBits ∧
      decode 0x00000000#32 = .error .unassignedOp ∧ decode 0x0000000C#32 = .error .unassignedOp ∧
      decode 0x0000010A#32 = .error .strayLen ∧ decode 0x00008809#32 = .error .lenTooLarge ∧
      decode 0x00010001#32 = .error .strayKsrc ∧ decode 0x00010009#32 = .error .strayKsrc := by decide

/-- opcode_table.json, rows HFINAL (LEN = 0) and SIGN. -/
theorem test_decodeTableWord : decodeTableWord 32 9 = some (.hfinal 0#8) ∧ decodeTableWord 32 10 = some (.sign .entropy) := by
  decide

/-! ### The window -/

/-- 20_memory.md R33: A at 0x100, H at 0x3E0, P1X at 0x180, and reserved or misaligned offsets. -/
theorem test_window_map :
    slotAt (offsetOf 0x100) = some (.operand .a 0) ∧ slotAt (offsetOf 0x3FC) = some (.operand .h 7) ∧
      slotAt (offsetOf 0x180) = some (.operand .p1x 0) ∧ slotAt (offsetOf 0x020) = none ∧
      slotAt (offsetOf 0x4C8) = none ∧ slotAt (offsetOf 0x102) = none := by decide

/-- 95_test_vectors.md P4: BUF's first word 0x03020100 holds the bytes 0, 1, 2, 3. -/
theorem test_buf_bytes :
    (memWrite State.reset .b32 (offsetOf 0x500) 0x03020100#32).1.buf.toList.take 5 = [0#8, 1#8, 2#8, 3#8, 0#8] := by
  decide +kernel

/-- 20_memory.md R41: S[1][0] is at 0x408, its high word at 0x40C. -/
theorem test_lane_words :
    laneAt (memWrite (memWrite State.reset .b32 (offsetOf 0x408) 0x33C0478A#32).1 .b32 (offsetOf 0x40C)
      0x84D5CCF9#32).1.lanes 1 0 = 0x84D5CCF933C0478A#64 := by decide +kernel

/-- 95_test_vectors.md P5: D reads 0 although it holds 7. -/
theorem test_d_reads_zero : memRead (toy 5 10) .b32 (offsetOf 0x300) = ⟨0, .okay⟩ ∧ (toy 5 10).num .d = 7 := by
  decide +kernel

/-! ### The commands -/

/-- 95_test_vectors.md §3.1: an even modulus; a 512-bit product; M = 0. -/
theorem test_modmul :
    codeAnd .modmul (load [(.a, 7), (.b, 5), (.m, 13)] State.reset) .z = some (.noError, 9) ∧
      codeAnd .modmul (load [(.a, 2 ^ 256 - 1), (.b, 2 ^ 256 - 1), (.m, 2 ^ 255 - 19)] State.reset) .z =
        some (.noError, 0x559) := by decide +kernel

theorem test_modmul_modulus_zero :
    codeAnd .modmul (load [(.a, 7), (.b, 5), (.z, 9)] State.reset) .z = some (.range, 9) := by decide +kernel

/-- 95_test_vectors.md §3.1: A above M; a full-size modulus; M = 1. -/
theorem test_modinv :
    codeAnd .modinv (load [(.a, 20), (.m, 7)] State.reset) .z = some (.noError, 6) ∧
      codeAnd .modinv (load [(.a, 2), (.m, 2 ^ 255 - 19)] State.reset) .z =
        some (.noError, 0x3FFFFFFFFFFFFFFFFFFFFFFFFFFFFFFFFFFFFFFFFFFFFFFFFFFFFFFFFFFFFFF7) ∧
      codeAnd .modinv (load [(.a, 0), (.m, 1), (.z, 4)] State.reset) .z = some (.noError, 0) := by decide +kernel

theorem test_modinv_not_invertible :
    codeAnd .modinv (load [(.a, 6), (.m, 9), (.z, 4)] State.reset) .z = some (.notInvertible, 4) := by decide +kernel

/-- 95_test_vectors.md §3.2: the chord, the tangent, the inverse pair. -/
theorem test_padd :
    codeAndR .padd (points 10 6 3 1) = some (.noError, .affine 0 6) ∧
      codeAndR .padd (points 5 1 5 1) = some (.noError, .affine 6 3) ∧
      codeAndR .padd (points 5 1 5 16) = some (.noError, .infinity) := by decide +kernel

/-- 95_test_vectors.md §3.2: the uncovered case (R77), a coordinate out of range, p < 3 with both operands O. -/
theorem test_padd_errors :
    codeAndR .padd (points 5 1 5 2) = some (.notInvertible, .affine 0 0) ∧
      codeAndR .padd (points 5 1 6 17) = some (.range, .affine 0 0) ∧
      codeAndR .padd { load [(.cp, 2)] State.reset with p1inf := true, p2inf := true } =
        some (.range, .affine 0 0) := by decide +kernel

/-- 95_test_vectors.md §3.2: 2·(7, 11) = (5, 1), and with p = 15, a = 0, 2·(1, 1) = (4, 2). -/
theorem test_pdbl :
    codeAndR .pdbl (points 7 11 0 0) = some (.noError, .affine 5 1) ∧
      codeAndR .pdbl (load [(.cp, 15), (.p1x, 1), (.p1y, 1)] State.reset) = some (.noError, .affine 4 2) := by
  decide +kernel

/-- 95_test_vectors.md §3.2: with p = 15, 2·(1, 3) has no inverse of 6. -/
theorem test_pdbl_not_invertible :
    codeAndR .pdbl (load [(.cp, 15), (.p1x, 1), (.p1y, 3)] State.reset) = some (.notInvertible, .affine 0 0) := by
  decide +kernel

/-- 95_test_vectors.md §3.2: 10·G, 19·G, and the largest scalar. -/
theorem test_pmul :
    codeAndR .pmul (load [(.a, 10)] (points 5 1 0 0)) = some (.noError, .affine 7 11) ∧
      codeAndR .pmul (load [(.a, 19)] (points 5 1 0 0)) = some (.noError, .infinity) := by decide +kernel

theorem test_pmul_off_curve_and_zero :
    codeAndR .pmul (load [(.a, 1)] (points 1 1 0 0)) = some (.noError, .affine 1 1) ∧
      codeAndR .pmul (load [(.a, 0)] (points 5 1 0 0)) = some (.scalarZero, .affine 0 0) := by decide +kernel

/-- 42_keccak.md R94: from the all-zero state. -/
theorem test_keccakf :
    (after (exec .keccakf State.reset)).map (fun t => [laneAt t.lanes 0 0, laneAt t.lanes 1 0, laneAt t.lanes 4 4]) =
      some [0xF1258F7940E1DDE7#64, 0x84D5CCF933C0478A#64, 0xEAF1FF7B5CECA249#64] := by decide +kernel

/-- 43_sponge.md R99. -/
theorem test_hinit :
    (after (exec .hinit { State.reset with lanes := Vector.replicate 25 5 })).map (fun t => t.lanes) =
      some (Vector.replicate 25 0) := by decide +kernel

/-- 43_sponge.md R96, R97: bytes 01..08 give the lane 0x0102030405060708, and lane j = 16 is (3, 1). -/
theorem test_block_lane :
    blockLane [0, 0, 0, 0, 0, 0, 0, 0, 1, 2, 3, 4, 5, 6, 7, 8] 1 = 0x0102030405060708#64 ∧
      (16 / 5, 16 % 5) = (3, 1) := by decide +kernel

/-- 95_test_vectors.md §3.4: the final block for t = 3, t = 134 and t = 135. -/
theorem test_pad :
    (pad [0x61, 0x62, 0x63]).take 5 = [0x61, 0x62, 0x63, 0x01, 0x00] ∧
      (pad (List.replicate 134 7)).drop 133 = [7, 0x01, 0x80] ∧
      (pad (List.replicate 135 7)).drop 134 = [7, 0x01] := by decide +kernel

/-- 95_test_vectors.md §3.4, row "abc": H is DIGEST least significant byte first, bit 7 of byte 31 cleared. -/
theorem test_digest_int :
    digestInt ((List.replicate 28 0) ++ [0x71, 0x70, 0x0c, 0xa4]) = BitVec.ofNat 256 (0x240C7071 * 2 ^ 224) := by
  decide +kernel

/-- 95_test_vectors.md §3.5: with H ≡ 0 mod q, e = 1; and the nonce 7 gives r = 0. -/
theorem test_sign :
    (after (exec (.sign .registerK) (toy 5 10))).map (fun t => (t.errcode, t.num .sr, t.num .ss, t.num .e)) =
        some (.noError, 7, 4, 5) ∧
      (after (exec (.sign .registerK) (toy 19 10))).map (fun t => (t.num .sr, t.num .ss, t.num .e)) =
        some (7, 2, 1) := by decide +kernel

theorem test_sign_rejections :
    (after (exec (.sign .registerK) (toy 5 7))).map (fun t => (t.errcode, t.num .sr, t.attempts.toNat)) =
        some (.nonceRejected, 0, 1) ∧
      (after (exec (.sign .registerK) (toy 5 19))).map (fun t => (t.errcode, t.attempts.toNat)) =
        some (.range, 0) := by decide +kernel

/-- 44_ecdsa.md R111: the draws 7 (r = 0) and 10 make two attempts; three draws of 7 under a cap of 3 are the limit. -/
theorem test_retry_loop :
    retryLoop (fun n => if n = 0 then 7 else 10) (attemptWith (toy 5 0) 5) 64 0 = (2, .ok (7, 4)) ∧
      retryLoop (fun _ => 7) (attemptWith (toy 5 0) 5) 3 0 = (3, .error .retryLimit) := by decide +kernel

/-- 95_test_vectors.md §3.5: the valid signature, a mismatch, and C = O. -/
theorem test_verify :
    (after (exec .verify (signedToy 7 4))).map (fun t => (t.errcode, t.result, t.num .e)) = some (.noError, true, 5) ∧
      (after (exec .verify (signedToy 7 5))).map (fun t => (t.errcode, t.result)) = some (.noError, false) ∧
      (after (exec .verify (signedToy 1 7))).map (fun t => (t.errcode, t.result)) = some (.noError, false) := by
  decide +kernel

theorem test_verify_malformed :
    (after (exec .verify (signedToy 19 4))).map (fun t => (t.errcode, t.result, t.num .e)) =
      some (.malformedSignature, false, 0) := by decide +kernel

/-! ### Steps -/

/-- The word `withFetchWord` places is performed by the next step: MODMUL with A = B = 0, M = 1. -/
theorem test_step_runs_placed_word :
    (after (step ((load [(.m, 1), (.z, 3)] State.reset).withFetchWord 32 1))).map
      (fun t => (t.errcode, t.num .z, t.done, t.busy)) = some (.noError, 0, true, false) := by decide +kernel

/-- 95_test_vectors.md P6: a write of A races with a MODMUL of 3 and 4 mod 5; outcome (a), the write comes first. -/
theorem test_race_write_first :
    (after (Host.Core.run Sys2Proof.core 2 (accept 1 (load [(.a, 3), (.b, 4), (.m, 5)]
        (running [hostWr (.operand .a 0) 9] [.master 0, .engine]))))).map
      (fun t => ([t.num .z, t.num .a], statusWord t)) = some ([2, 3], 0x12#32) := by decide +kernel

/-- Outcome (b): the core completes first. -/
theorem test_race_completion_first :
    (after (Host.Core.run Sys2Proof.core 2 (accept 1 (load [(.a, 3), (.b, 4), (.m, 5)]
        (running [hostWr (.operand .a 0) 9] [.engine, .master 0]))))).map
      (fun t => ([t.num .z, t.num .a], statusWord t)) = some ([2, 9], 0x02#32) := by decide +kernel

/-- 30_encoding.md R65: a value read into a temporary is written back, and a branch on it is taken. -/
theorem test_host_temporaries :
    (after (Host.Core.run Sys2Proof.core 3 (load [(.a, 6)] (running
        [hostRdTo (.operand .a 0) 4, .wr .b32 (Slot.operand .b 0).off (.temp 4), .bnz 4 2 0, .label 1, .label 0] [])))).map
      (fun t => (t.num .b, t.masters.map fun m => m.pos)) = some (6, [4]) := by decide +kernel

/-- 30_encoding.md R66: `rd256` reads the eight words in order, and its result is Σ wordᵢ·2³²ⁱ. -/
theorem test_rd256 :
    (rd256 .h 3)[7]? = some (.rd .b32 (offsetOf 0x3FC) (some 10)) ∧
      rd256Result { Master.start [] with temps := [(3, 1), (4, 2), (5, 0), (6, 0), (7, 0), (8, 0), (9, 0), (10, 5)] } 3 =
        some (1 + 2 * 2 ^ 32 + 5 * 2 ^ 224) := by decide +kernel

/-- 10_state.md R15, R20: STATUS shows ERR in bit 2 and RESULT in bit 3, PFLAGS shows P2INF in bit 1. -/
theorem test_status_and_pflags_bits :
    (memRead { State.reset with err := true } .b32 (offsetOf 0x008)).data = 0x04#32 ∧
      (memRead { State.reset with result := true } .b32 (offsetOf 0x008)).data = 0x08#32 ∧
      (memRead { State.reset with p2inf := true } .b32 (offsetOf 0x01C)).data = 0x02#32 := by decide +kernel

/-- 70_reset_and_hazards.md R135: a reset abandons a running command. -/
theorem test_reset_abandons :
    (after (step { accept 1 (load [(.a, 3), (.m, 5)] State.reset) with turns := [.reset] })).map
      (fun t => (t.running, t.done, t.num .a)) = some (none, false, 0) := by decide +kernel

/-! ### Witnesses: a concrete state that meets the hypotheses of each statement -/

theorem exists_next {r : Result} {P : State → Bool} (h : (after r).any P = true) : ∃ t, r = .next t ∧ P t = true := by
  cases r with
  | next t => exact ⟨t, rfl, h⟩
  | fault f => cases h
  | refused f => cases h

/-- A core that runs MODMUL. -/
def busyModmul : State := accept 1 State.reset

theorem witness_IllegalWordsAreAcceptedAndRejected :
    ¬ legal 0x0000000C#32 ∧ ¬ legal 0x00008809#32 ∧ State.reset.busy = false ∧
      (accept 0x0000000C#32 State.reset).running = some 0x0000000C#32 := by unfold legal; decide +kernel

theorem witness_DecodeAfterEncode : Instr.wellFormed (.hfinal 0#8) = true ∧ Instr.wellFormed (.hfinal 135#8) = true := by
  decide

theorem witness_EncodeAfterDecode : decode 0x00008709#32 = .ok (.hfinal 135#8) := by decide

theorem witness_OperationCodes : (0x00000100#32).toNat % 256 = 0 ∧ 0x0C ≤ (0x0000000C#32).toNat % 256 := by decide

theorem witness_StepRunsTheLatchedCommand :
    nextTurn busyModmul = .engine ∧ busyModmul.running = some 1 ∧ decode 1#32 = .ok .modmul ∧
      nextTurn { State.reset with turns := [.engine] } = .engine ∧ State.reset.running = none := by decide +kernel

theorem witness_AcceptanceOfEveryWord :
    State.reset.busy = false ∧ ¬ NotServed (offsetOf 0x00C).toNat ∧ ¬ NotServed (offsetOf 0x61C).toNat := by
  unfold NotServed; decide +kernel

theorem witness_BusyWritesAreDropped :
    busyModmul.busy = true ∧ ¬ NotServed (offsetOf 0x00C).toNat ∧ ¬ NotServed (offsetOf 0x3FC).toNat := by
  unfold NotServed; decide +kernel

theorem witness_OperandsAreFrozenWhileBusy :
    ∃ t, State.busy { accept 1 (running [hostWr (.operand .a 0) 9] []) with turns := [.master 0] } = true ∧
      step { accept 1 (running [hostWr (.operand .a 0) 9] []) with turns := [.master 0] } = .next t ∧
      t.wign = true := by
  obtain ⟨t, h1, h2⟩ := exists_next (P := fun t => t.wign)
    (r := step { accept 1 (running [hostWr (.operand .a 0) 9] []) with turns := [.master 0] }) (by decide +kernel)
  exact ⟨t, rfl, h1, h2⟩

theorem witness_RunningCommandEventuallyCompletes : busyModmul.busy = true := by decide

/-- A master at a `wait` behind another statement, with a command running and the engine's and five own turns to come. -/
theorem witness_RunningCommandEventuallyCompletes_wait :
    (running (hostRd .id :: wait 0 3) (.engine :: List.replicate 5 (.master 0))).masters[0]? =
        some (Master.start (hostRd .id :: wait 0 3)) ∧
      HoldsWait { Master.start (hostRd .id :: wait 0 3) with pos := 1 } 1 0 3 ∧
      (running (hostRd .id :: wait 0 3) (.engine :: List.replicate 5 (.master 0))).turns =
        [] ++ .engine :: (List.replicate 5 (.master 0) ++ []) :=
  ⟨rfl, ⟨⟨[hostRd .id], [], rfl, rfl⟩, by decide⟩, rfl⟩

/-- At the branch, with a word read that shows BUSY = 1; and not the master's turn. -/
theorem witness_RunningCommandEventuallyCompletes_branch :
    HoldsWait { Master.start (wait 0 3) with pos := 2, temps := [(3, 1)] } 0 0 3 ∧
      readTemp [(3, 1)] 3 = some 1 ∧ nextTurn busyModmul ≠ .master 0 :=
  ⟨⟨⟨[], [], rfl, rfl⟩, by decide⟩, rfl, by decide⟩

theorem witness_ErrorsWriteNoOutput :
    (∃ t, exec .modmul State.reset = .next t ∧ t.errcode = .range) ∧
      ∃ t, exec (.sign .registerK) (toy 5 7) = .next t ∧ t.errcode = .nonceRejected := by
  constructor
  · simpa using exists_next (r := exec .modmul State.reset) (P := fun t => t.errcode == .range) (by decide +kernel)
  · simpa using exists_next (r := exec (.sign .registerK) (toy 5 7)) (P := fun t => t.errcode == .nonceRejected)
      (by decide +kernel)

theorem witness_CommandsChangeOnlyTheirWriteSet :
    (∃ t, exec .hinit State.reset = .next t) ∧ writesSlot .hinit (.digest 0) = false := ⟨⟨_, rfl⟩, by decide⟩

theorem witness_ErrorCodesByCommand :
    ∃ t, exec .verify (signedToy 19 4) = .next t ∧ t.errcode = .malformedSignature := by
  simpa using exists_next (r := exec .verify (signedToy 19 4)) (P := fun t => t.errcode == .malformedSignature)
    (by decide +kernel)

theorem witness_UnreadRegistersHaveNoInfluence :
    readsReg .modmul .cb = false ∧ writesReg .modmul .cb = false ∧ readsReg (.sign .entropy) .k = false ∧
      writesReg (.sign .entropy) .k = false := by decide

theorem witness_EIsWrittenOnlyBySuccess :
    State.reset.busy = false ∧ ∃ t, exec .verify (signedToy 7 4) = .next t ∧ t.reg .e ≠ (signedToy 7 4).reg .e := by
  refine ⟨by decide, ?_⟩
  simpa using exists_next (r := exec .verify (signedToy 7 4)) (P := fun t => t.reg .e != (signedToy 7 4).reg .e)
    (by decide +kernel)

theorem witness_BadAccessesDoNothing :
    AccessSize.b8 ≠ .b32 ∧ NotServed (offsetOf 0x020).toNat ∧ NotServed (offsetOf 0x4C8).toNat ∧
      NotServed (offsetOf 0x620).toNat ∧ NotServed (offsetOf 0x101).toNat := by unfold NotServed; decide +kernel

theorem witness_WindowMapIsOneToOne :
    slotAt (offsetOf 0x61C) = some (.digest 7) ∧ ¬ NotServed (offsetOf 0x61C).toNat := by
  unfold NotServed; decide +kernel

theorem witness_OperandWordLayout : (7 : Nat) < 8 ∧ State.reset.busy = false ∧ OpReg.h ≠ .d ∧ OpReg.h ≠ .e := by decide

/-- An idle core; and a core running MODMUL, read at A. -/
theorem witness_PrivateScalarIsNotReadable :
    (7 : Nat) < 8 ∧ State.reset.busy = false ∧ busyModmul.running = some 1 ∧ decode 1#32 = .ok .modmul ∧
      slotAt (offsetOf 0x100) = some (.operand .a 0) ∧ writesSlot .modmul (.operand .a 0) = false := by decide +kernel

theorem witness_LaneLayout : (4 : Nat) < 5 ∧ (1 : Nat) < 2 ∧ State.reset.busy = false := by decide

theorem witness_BufferByteLayout : (33 : Nat) < 34 ∧ State.reset.busy = false := by decide

theorem witness_DigestImageEqualsH :
    (7 : Nat) < 8 ∧ State.reset.busy = false ∧ (135#8).toNat ≤ 135 ∧ ∃ t, exec (.hfinal 135#8) State.reset = .next t :=
  ⟨by decide, by decide, by decide, _, rfl⟩

theorem witness_ReservedBitsAndReadOnlyRegisters :
    State.reset.busy = false ∧ ¬ NotServed (offsetOf 0x3C0).toNat ∧ ¬ NotServed (offsetOf 0x3DC).toNat ∧
      ¬ NotServed (offsetOf 0x600).toNat := by unfold NotServed; decide +kernel

theorem witness_ReadsWhileBusy :
    Inv busyModmul ∧ busyModmul.busy = true ∧ slotAt (offsetOf 0x100) = some (.operand .a 0) ∧
      busyModmul.running = some 1 ∧ decode 1#32 = .ok .modmul ∧ writesSlot .modmul (.operand .a 0) = false := by
  refine ⟨⟨by decide, by decide, by decide, by decide, fun m hm => by cases hm⟩, by decide, by decide, rfl, by decide,
    by decide⟩

theorem witness_ReadsHaveNoSideEffect :
    nextTurn (running [hostRd .id] []) = .master 0 ∧
      (running [hostRd .id] []).masters[0]? = some (Master.start [hostRd .id]) ∧
      (Master.start [hostRd .id]).program[(Master.start [hostRd .id]).pos]? = some (.rd .b32 (offsetOf 0) none) := by
  decide +kernel

theorem witness_InterruptFollowsDone :
    (∃ t, exec .hinit State.reset = .next t) ∧ (0x2#32).getLsbD 1 = true ∧ State.reset.busy = false :=
  ⟨⟨_, rfl⟩, by decide, by decide⟩

theorem witness_ResetValues : nextTurn { busyModmul with turns := [.reset] } = .reset := by decide +kernel

theorem witness_InvariantIsKept : Inv State.reset ∧ ∃ t, step State.reset = .next t :=
  ⟨⟨by decide, by decide, by decide, by decide, fun m hm => by cases hm⟩, _, rfl⟩

theorem witness_ParametersNeverChange : ∃ t, step busyModmul = .next t := by
  obtain ⟨t, h, -⟩ := exists_next (r := step busyModmul) (P := fun _ => true) (by decide +kernel)
  exact ⟨t, h⟩

theorem witness_ModmulWritesTheProduct : (load [(.m, 13)] State.reset).num .m ≠ 0 ∧ State.reset.num .m = 0 := by
  decide +kernel

theorem witness_ModinvWritesTheInverse :
    (load [(.a, 3), (.m, 7)] State.reset).num .m ≠ 0 ∧
      Nat.gcd ((load [(.a, 3), (.m, 7)] State.reset).num .a) ((load [(.a, 3), (.m, 7)] State.reset).num .m) = 1 ∧
      (load [(.a, 0), (.m, 1)] State.reset).num .m ≠ 0 ∧
      Nat.gcd ((load [(.a, 0), (.m, 1)] State.reset).num .a) ((load [(.a, 0), (.m, 1)] State.reset).num .m) = 1 ∧
      Nat.gcd ((load [(.a, 6), (.m, 9)] State.reset).num .a) ((load [(.a, 6), (.m, 9)] State.reset).num .m) ≠ 1 := by
  decide +kernel

theorem witness_InverseLaw :
    Nat.Prime ((load [(.a, 3), (.m, 7)] State.reset).num .m) ∧ 1 ≤ (load [(.a, 3), (.m, 7)] State.reset).num .a ∧
      (load [(.a, 3), (.m, 7)] State.reset).num .a < (load [(.a, 3), (.m, 7)] State.reset).num .m := by
  rw [show (load [(.a, 3), (.m, 7)] State.reset).num .m = 7 by decide +kernel,
    show (load [(.a, 3), (.m, 7)] State.reset).num .a = 3 by decide +kernel]
  norm_num

theorem witness_PaddWithInfinity :
    3 ≤ (points 5 1 6 3).num .cp ∧ { points 5 1 6 3 with p1inf := true }.p1inf = true ∧
      (points 5 1 6 3).num .p1x < (points 5 1 6 3).num .cp ∧ (points 5 1 6 3).num .p1y < (points 5 1 6 3).num .cp ∧
      (points 5 1 6 3).num .p2x < (points 5 1 6 3).num .cp ∧ (points 5 1 6 3).num .p2y < (points 5 1 6 3).num .cp := by
  decide +kernel

/-- The chord, with an inverse (p = 17) and without one (p = 15). -/
theorem witness_PaddChord :
    (∃ s : State, s = points 5 1 6 3 ∧ 3 ≤ s.num .cp ∧ s.p1inf = false ∧ s.p2inf = false ∧ s.num .p1x < s.num .cp ∧
      s.num .p1y < s.num .cp ∧ s.num .p2x < s.num .cp ∧ s.num .p2y < s.num .cp ∧ s.num .p1x ≠ s.num .p2x ∧
      Int.gcd ((s.num .p2x : Int) - s.num .p1x) (s.num .cp) = 1) ∧
    ∃ s : State, s = load [(.cp, 15)] (points 1 1 4 2) ∧ 3 ≤ s.num .cp ∧ s.p1inf = false ∧ s.p2inf = false ∧
      s.num .p1x < s.num .cp ∧ s.num .p1y < s.num .cp ∧ s.num .p2x < s.num .cp ∧ s.num .p2y < s.num .cp ∧
      s.num .p1x ≠ s.num .p2x ∧ Int.gcd ((s.num .p2x : Int) - s.num .p1x) (s.num .cp) ≠ 1 :=
  ⟨⟨_, rfl, by decide +kernel⟩, _, rfl, by decide +kernel⟩

/-- The premises that the four cases of the same abscissa share. -/
def SameAbscissa (s : State) : Prop :=
  3 ≤ s.num .cp ∧ s.p1inf = false ∧ s.p2inf = false ∧ s.num .p1x < s.num .cp ∧ s.num .p1y < s.num .cp ∧
    s.num .p2y < s.num .cp ∧ s.num .p1x = s.num .p2x

theorem witness_PaddSameAbscissa_opposite :
    SameAbscissa (points 5 1 5 16) ∧
      ((points 5 1 5 16).num .p1y + (points 5 1 5 16).num .p2y) % (points 5 1 5 16).num .cp = 0 := by
  unfold SameAbscissa; decide +kernel

theorem witness_PaddSameAbscissa_equal :
    SameAbscissa (points 5 1 5 1) ∧
      ((points 5 1 5 1).num .p1y + (points 5 1 5 1).num .p2y) % (points 5 1 5 1).num .cp ≠ 0 ∧
      (points 5 1 5 1).num .p1y = (points 5 1 5 1).num .p2y ∧
      Nat.gcd (2 * (points 5 1 5 1).num .p1y) ((points 5 1 5 1).num .cp) = 1 := by
  unfold SameAbscissa; decide +kernel

theorem witness_PaddSameAbscissa_no_inverse :
    SameAbscissa (load [(.cp, 15)] (points 1 3 1 3)) ∧
      ((load [(.cp, 15)] (points 1 3 1 3)).num .p1y + (load [(.cp, 15)] (points 1 3 1 3)).num .p2y) %
        (load [(.cp, 15)] (points 1 3 1 3)).num .cp ≠ 0 ∧
      (load [(.cp, 15)] (points 1 3 1 3)).num .p1y = (load [(.cp, 15)] (points 1 3 1 3)).num .p2y ∧
      Nat.gcd (2 * (load [(.cp, 15)] (points 1 3 1 3)).num .p1y) ((load [(.cp, 15)] (points 1 3 1 3)).num .cp) ≠ 1 := by
  unfold SameAbscissa; decide +kernel

theorem witness_PaddSameAbscissa_uncovered :
    SameAbscissa (points 5 1 5 2) ∧
      ((points 5 1 5 2).num .p1y + (points 5 1 5 2).num .p2y) % (points 5 1 5 2).num .cp ≠ 0 ∧
      (points 5 1 5 2).num .p1y ≠ (points 5 1 5 2).num .p2y := by
  unfold SameAbscissa; decide +kernel

theorem witness_PointAdditionIsSymmetric :
    (3 : Nat) ≤ 17 ∧ checkPoint 17 (.affine 5 1) = .ok () ∧ checkPoint 17 (.affine 5 2) = .ok () := by decide

/-- O; 2y ≡ 0 mod p; an invertible 2y; and p = 15, where 2·3 has no inverse. -/
theorem witness_PdblDoublesP1 :
    3 ≤ (points 3 0 0 0).num .cp ∧ 2 * (points 3 0 0 0).num .p1y % (points 3 0 0 0).num .cp = 0 ∧
      2 * (points 5 1 0 0).num .p1y % (points 5 1 0 0).num .cp ≠ 0 ∧
      Nat.gcd (2 * (points 5 1 0 0).num .p1y) ((points 5 1 0 0).num .cp) = 1 ∧
      2 * (load [(.cp, 15)] (points 1 3 0 0)).num .p1y % (load [(.cp, 15)] (points 1 3 0 0)).num .cp ≠ 0 ∧
      Nat.gcd (2 * (load [(.cp, 15)] (points 1 3 0 0)).num .p1y) ((load [(.cp, 15)] (points 1 3 0 0)).num .cp) ≠ 1 ∧
      (points 5 1 0 0).p1inf = false ∧ (load [(.cp, 15)] (points 1 3 0 0)).p1inf = false := by decide +kernel

theorem witness_PaddStaysOnTheCurve :
    (points 5 1 6 3).num .cp = 17 ∧ Nat.Prime 17 ∧
      OnCurve 17 ((points 5 1 6 3).num .ca) 2 ((points 5 1 6 3).point false .p1x .p1y) ∧
      OnCurve 17 ((points 5 1 6 3).num .ca) 2 ((points 5 1 6 3).point false .p2x .p2y) := by
  refine ⟨by decide +kernel, by norm_num, ?_, ?_⟩ <;>
  · simp only [State.point, Bool.false_eq_true, if_false, OnCurve]
    decide +kernel

theorem witness_ScalarRecursionIsTheLoop : (1 : Nat) ≤ 1 ∧ (1 : Nat) ≤ 19 := by decide

/-- A = 0, A = 1, A = 10, and p = 15, where the loop meets an error. -/
theorem witness_PmulMultipliesByA :
    3 ≤ (points 5 1 0 0).num .cp ∧ (points 5 1 0 0).num .p1x < (points 5 1 0 0).num .cp ∧
      (points 5 1 0 0).num .p1y < (points 5 1 0 0).num .cp ∧ (points 5 1 0 0).num .a = 0 ∧
      (load [(.a, 1)] (points 5 1 0 0)).num .a = 1 ∧ (points 5 1 0 0).p1inf = false ∧
      scalarMulLoop 17 2 (.affine 5 1) 10 = .ok (.affine 7 11) ∧
      scalarMulLoop 15 0 (.affine 1 3) 2 = .error .notInvertible := by decide +kernel

theorem witness_ScalarMultiplicationIsAHomomorphism :
    Nat.Prime 17 ∧ (3 : Nat) ≤ 17 ∧ OnCurve 17 2 2 (.affine 5 1) ∧ OnCurve 17 2 2 (.affine 6 3) ∧ OnCurve 17 2 2 .infinity := by
  refine ⟨by norm_num, by decide, ?_, ?_, trivial⟩ <;> (simp only [OnCurve]; decide)

theorem witness_CurveRangeChecks :
    State.reset.num .cp < 3 ∧ (points 17 1 6 17).p1inf = false ∧ (points 17 1 6 17).num .cp ≤ (points 17 1 6 17).num .p1x ∧
      (points 17 1 6 17).p2inf = false ∧ (points 17 1 6 17).num .cp ≤ (points 17 1 6 17).num .p2y := by decide +kernel

theorem witness_StepMappings : (0 : Nat) < 5 ∧ (4 : Nat) < 5 := by decide

theorem witness_PaddingRule :
    ([] : List Byte).length ≤ 134 ∧ (List.replicate 134 (0 : Byte)).length ≤ 134 ∧
      (List.replicate 135 (0 : Byte)).length ≤ 135 := by decide +kernel

theorem witness_HfinalSqueezesTheDigest : (0#8).toNat ≤ 135 ∧ (135#8).toNat ≤ 135 := by decide

theorem witness_HfinalIgnoresTheRestOfBuf :
    (3#8).toNat ≤ 135 ∧ (∀ (i : Nat) (h : i < 136), i < (3#8).toNat →
      (State.reset.buf.set 3 1)[i] = State.reset.buf[i]) ∧ 136 ≤ (136#8).toNat := by
  refine ⟨by decide, ?_, by decide⟩
  intro i h hi
  rw [Vector.getElem_set_ne _ _ (by simp at hi; omega)]

/-- The nonce 10 signs, the nonce 7 is rejected, and with p = 15 the nonce 2 meets an error. -/
theorem witness_SignWithTheHostsNonce :
    SignContext (toy 5 10) ∧ 1 ≤ (toy 5 10).num .k ∧ (toy 5 10).num .k < (toy 5 10).num .cq ∧
      SignsWith (toy 5 10) 10 7 4 ∧ Rejects (toy 5 7) 7 ∧
      scalarMulLoop 15 0 (.affine 1 3) 2 = .error .notInvertible := by
  refine ⟨by unfold SignContext; decide +kernel, by decide +kernel, by decide +kernel,
    ⟨⟨7, 11, by decide +kernel, by decide +kernel⟩, by decide, by decide +kernel, by decide⟩,
    .inr ⟨0, 6, by decide +kernel, .inl (by decide +kernel)⟩, by decide +kernel⟩

theorem witness_SignWithTheEntropySource : SignContext (toy 5 10) := by unfold SignContext; decide +kernel

/-- d = 0, and K = q. -/
theorem witness_SignRangeChecks :
    ¬ SignContext (load [(.d, 0)] (toy 5 10)) ∧ ¬ (1 ≤ (toy 5 19).num .k ∧ (toy 5 19).num .k < (toy 5 19).num .cq) := by
  unfold SignContext; decide +kernel

theorem witness_SignaturesAreInRange : ∃ t, exec (.sign .registerK) (toy 19 10) = .next t ∧ t.errcode = .noError := by
  simpa using exists_next (r := exec (.sign .registerK) (toy 19 10)) (P := fun t => t.errcode == .noError)
    (by decide +kernel)

/-- 95_test_vectors.md §3.5, the first row of VERIFY. -/
theorem witness_VerifyGivesTheVerdict :
    VerifyContext (signedToy 7 4) ∧ digestOf (signedToy 7 4) * 4 % 19 = 1 ∧ 16 = (signedToy 7 4).num .ss * 4 % 19 ∧
      (10 + (signedToy 7 4).num .sr * 4) % 19 = 0 ∧ (signedToy 7 4).num .cq = 19 ∧
      scalarMulLoop 17 2 (signedToy 7 4).basePoint 16 = .ok (.affine 10 11) ∧
      scalarMulLoop 17 2 (signedToy 7 4).publicPoint 10 = .ok (.affine 16 4) ∧
      pointAdd 17 2 (.affine 10 11) (.affine 16 4) = .ok (.affine 7 11) := by
  unfold VerifyContext; decide +kernel

/-- RANGE by q = 1; a malformed r = q; no inverse of e = 2 mod 4; and, with p = 15, the error of z1·G. -/
theorem witness_VerifyErrors :
    (load [(.cq, 1)] (signedToy 7 4)).num .cq < 2 ∧ (signedToy 19 4).num .cq ≤ (signedToy 19 4).num .sr ∧
      VerifyContext (load [(.cq, 4), (.h, 2)] (signedToy 1 1)) ∧
      Nat.gcd (digestOf (load [(.cq, 4), (.h, 2)] (signedToy 1 1))) 4 ≠ 1 ∧
      VerifyContext (load [(.cp, 15), (.ca, 0), (.gx, 1), (.gy, 3)] (signedToy 7 4)) ∧
      scalarMulLoop 15 0 (.affine 1 3) 16 = .error .notInvertible := by
  unfold VerifyContext; decide +kernel

theorem witness_SignVerifyRoundTrip :
    Nat.Prime 17 ∧ Nat.Prime 19 ∧ (toy 5 10).num .cp = 17 ∧ (toy 5 10).num .cq = 19 ∧
      OnCurve 17 ((toy 5 10).num .ca) 2 (.affine 5 1) ∧ (toy 5 10).basePoint = .affine 5 1 ∧
      scalarMul 17 ((toy 5 10).num .ca) (.affine 5 1) 19 = .ok .infinity ∧ 1 ≤ (toy 5 10).num .d ∧
      (toy 5 10).num .d < 19 ∧ scalarMul 17 ((toy 5 10).num .ca) (.affine 5 1) ((toy 5 10).num .d) = .ok (.affine 0 6) ∧
      ∃ t, exec (.sign .registerK) (toy 5 10) = .next t ∧ t.errcode = .noError := by
  refine ⟨by norm_num, by norm_num, by decide +kernel, by decide +kernel, ?_, by decide +kernel, by decide +kernel,
    by decide +kernel, by decide +kernel, by decide +kernel, ?_⟩
  · simp only [OnCurve]; decide +kernel
  · simpa using exists_next (r := exec (.sign .registerK) (toy 5 10)) (P := fun t => t.errcode == .noError)
      (by decide +kernel)

end Sys2Proof.Tests
end

section
/-! SUPPORT. The window's map, the control words as numbers, and host accesses at a known slot. -/

namespace Sys2Proof.Machine

open Sys2Proof.Safety

/-! ### The window's map (20_memory.md R33, R34, R38) -/

/-- Every slot's offset lies in the window. -/
theorem toNat_off (sl : Slot) : sl.off.toNat = slotOffset sl := by
  rw [Slot.off, BitVec.toNat_ofNat]
  apply Nat.mod_eq_of_lt
  cases sl <;> simp only [slotOffset] <;> omega

/-- What stands at a slot's own offset is the slot. -/
@[simp] theorem slotAt_off (sl : Slot) : slotAt sl.off = some sl := by
  cases sl with
  | operand r i =>
    simp only [slotAt, toNat_off, slotOffset]
    rw [if_neg (by omega), if_neg (by omega), if_pos (by omega)]
    have hr : Fin.ofNat 24 ((0x100 + 0x20 * r.index.val + 4 * i.val - 0x100) / 0x20) = r.index := by
      ext; simp only [Fin.val_ofNat]; omega
    have hi : Fin.ofNat 8 ((0x100 + 0x20 * r.index.val + 4 * i.val) % 0x20 / 4) = i := by
      ext; simp only [Fin.val_ofNat]; omega
    rw [hr, hi, OpReg.ofIndex_index]
  | lane l i => revert l i; decide
  | buf w => revert w; decide
  | digest w => revert w; decide
  | id | ctrl | status | cmd | errcode | attempts | cfg | pflags => decide

/-- A control register stands at its own word. -/
theorem slotOffset_of_controlSlot {n : Nat} {sl : Slot} (h : controlSlot n = some sl) : slotOffset sl = 4 * n := by
  unfold controlSlot at h
  split at h <;> cases h <;> rfl

/-- A slot stands at its own offset only. -/
theorem toNat_of_slotAt {off : Offset} {sl : Slot} (h : slotAt off = some sl) : off.toNat = slotOffset sl := by
  simp only [slotAt] at h
  split_ifs at h
  · rw [slotOffset_of_controlSlot h]; omega
  · cases h
    simp only [slotOffset, OpReg.index_ofIndex, Fin.val_ofNat]; omega
  · cases h
    simp only [slotOffset, Fin.val_ofNat]; omega
  · cases h
    simp only [slotOffset, Fin.val_ofNat]; omega
  · cases h
    simp only [slotOffset, Fin.val_ofNat]; omega

/-- Of the words below 0x100, only the first eight hold a register. -/
theorem le_of_controlSlot_eq_none {n : Nat} (h : controlSlot n = none) : 8 ≤ n := by
  by_contra hlt
  interval_cases n <;> cases h

/-- Something stands at every served offset. -/
theorem exists_slotAt {off : Offset} (h : ¬ NotServed off.toNat) : ∃ sl, slotAt off = some sl := by
  rw [← Option.ne_none_iff_exists']
  intro hnone
  apply h
  unfold NotServed
  simp only [slotAt] at hnone
  split_ifs at hnone
  · omega
  · have := le_of_controlSlot_eq_none hnone
    omega
  · omega
  · omega
  · omega

/-! ### Host accesses at a known slot -/

/-- A read on an idle core answers the slot's word (20_memory.md R36). -/
theorem memRead_off_of_idle {s : State} (h : s.busy = false) (sl : Slot) :
    memRead s .b32 sl.off = ⟨slotWord s sl, .okay⟩ := by
  simp [memRead, h, busOkay]

/-- A write on an idle core is the slot's own (20_memory.md R37). -/
theorem memWrite_of_idle {s : State} {off : Offset} {sl : Slot} (hs : slotAt off = some sl) (h : s.busy = false)
    (v : Word) : memWrite s .b32 off v = (writeSlot s sl v, busOkay 0) := by
  simp [memWrite, hs, h]

/-- CTRL and STATUS take a write, busy or idle (20_memory.md R47). -/
theorem memWrite_of_openWhileBusy {sl : Slot} (h : openWhileBusy sl = true) (s : State) (v : Word) :
    memWrite s .b32 sl.off v = (writeSlot s sl v, busOkay 0) := by
  simp [memWrite, h]

/-- The registers that ignore every host write (10_state.md R25, R30). -/
def ReadOnly : Slot → Prop
  | .id | .errcode | .attempts | .cfg | .digest _ => True
  | .operand r _ => r = .e
  | _ => False

/-- A read-only register ignores the write. -/
theorem writeSlot_of_readOnly {sl : Slot} (h : ReadOnly sl) (s : State) (v : Word) : writeSlot s sl v = s := by
  cases sl with
  | id | errcode | attempts | cfg | digest => rfl
  | operand r i => exact if_pos h
  | ctrl | status | cmd | pflags | lane | buf => exact h.elim

/-- An operand register is written through its own words alone, and E not even through them (10_state.md R25). -/
theorem writeSlot_reg {sl : Slot} {r : OpReg} (h : ∀ i, sl = .operand r i → r = .e) (s : State) (v : Word) :
    (writeSlot s sl v).reg r = s.reg r := by
  cases sl with
  | operand r' i =>
    simp only [writeSlot]
    split
    · rfl
    · next hne => exact State.reg_setReg_of_ne _ _ fun e => hne (e ▸ h i (e ▸ rfl))
  | id | ctrl | status | cmd | errcode | attempts | cfg | pflags | lane | buf | digest => rfl

/-- No host write changes E (10_state.md R25). -/
theorem memWrite_reg_e (s : State) (size : AccessSize) (off : Offset) (v : Word) :
    (memWrite s size off v).1.reg .e = s.reg .e := by
  rcases memWrite_cases s size off v with ⟨-, e⟩ | ⟨sl, -, -, -, -, e⟩ | ⟨sl, -, -, -, e⟩ <;> rw [e]
  · rfl
  · exact writeSlot_reg (fun _ _ => rfl) s v

/-- The slots that R30 names by their offsets are read-only. -/
theorem readOnly_of_slotAt {off : Offset} {sl : Slot} (hs : slotAt off = some sl)
    (h : off.toNat = 0x000 ∨ off.toNat = 0x010 ∨ off.toNat = 0x014 ∨ off.toNat = 0x018 ∨
      (0x3C0 ≤ off.toNat ∧ off.toNat < 0x3E0) ∨ 0x600 ≤ off.toNat) : ReadOnly sl := by
  rw [toNat_of_slotAt hs] at h
  cases sl with
  | id | errcode | attempts | cfg | digest => trivial
  | operand r i =>
    simp only [slotOffset] at h
    exact OpReg.index_injective (Fin.ext (show r.index.val = 22 by omega))
  | ctrl | status | cmd | pflags | lane | buf => simp only [slotOffset] at h; omega

/-! ### The control and status registers as numbers -/

/-- Three bits, each in its place, as a number. -/
theorem bits3_eq : ∀ b0 b1 b2 : Bool, bitAt b0 0 ||| bitAt b1 1 ||| bitAt b2 2 =
    BitVec.ofNat 32 (b0.toNat + 2 * b1.toNat + 4 * b2.toNat) := by decide

/-- Five bits, each in its place, as a number. -/
theorem bits5_eq : ∀ b0 b1 b2 b3 b4 : Bool,
    bitAt b0 0 ||| bitAt b1 1 ||| bitAt b2 2 ||| bitAt b3 3 ||| bitAt b4 4 =
      BitVec.ofNat 32 (b0.toNat + 2 * b1.toNat + 4 * b2.toNat + 8 * b3.toNat + 16 * b4.toNat) := by decide

/-- CTRL holds IE alone (10_state.md R14). -/
theorem ctrlWord_eq (s : State) : ctrlWord s = BitVec.ofNat 32 s.ie.toNat := by
  unfold ctrlWord; cases s.ie <;> rfl

/-- STATUS holds BUSY, DONE, ERR, RESULT and WIGN in bits 0 to 4 (10_state.md R15). -/
theorem statusWord_eq (s : State) : statusWord s = BitVec.ofNat 32
    (s.busy.toNat + 2 * s.done.toNat + 4 * s.err.toNat + 8 * s.result.toNat + 16 * s.wign.toNat) := bits5_eq ..

/-- PFLAGS holds P1INF, P2INF and RINF in bits 0 to 2 (10_state.md R20). -/
theorem pflagsWord_eq (s : State) :
    pflagsWord s = BitVec.ofNat 32 (s.p1inf.toNat + 2 * s.p2inf.toNat + 4 * s.rinf.toNat) := bits3_eq ..

/-- The reserved bits of the control and status registers read 0 (10_state.md R30). -/
theorem controlWords_lt (s : State) : (ctrlWord s).toNat < 2 ∧ (statusWord s).toNat < 32 ∧ (errcodeWord s).toNat < 8 ∧
    (attemptsWord s).toNat < 65536 ∧ (cfgWord s).toNat < 65536 ∧ (pflagsWord s).toNat < 8 := by
  have bit := Bool.toNat_le
  refine ⟨?_, ?_, ?_, ?_, ?_, ?_⟩
  · rw [ctrlWord_eq, BitVec.toNat_ofNat]
    have := bit s.ie
    omega
  · rw [statusWord_eq, BitVec.toNat_ofNat]
    have := bit s.busy; have := bit s.done; have := bit s.err; have := bit s.result; have := bit s.wign
    omega
  · unfold errcodeWord; cases s.errcode <;> decide
  · rw [attemptsWord, BitVec.toNat_setWidth]
    have := s.attempts.isLt
    omega
  · rw [cfgWord, BitVec.toNat_ofNat]
    have := s.params.maxAttempts_le
    omega
  · rw [pflagsWord_eq, BitVec.toNat_ofNat]
    have := bit s.p1inf; have := bit s.p2inf; have := bit s.rinf
    omega

end Sys2Proof.Machine
end

section
/-! SUPPORT. The frame of every update of the state, and what a command can do. -/

namespace Sys2Proof.Safety

open Sys2Proof.Machine

/-! ### The frame of each update of the state -/

section
variable {s t : State} {parts : List Part}

theorem OnlyWrites.refl (s : State) (parts : List Part) : OnlyWrites s s parts :=
  ⟨⟨rfl, rfl, rfl, rfl, rfl, rfl, rfl, rfl, rfl⟩, fun _ _ => rfl, fun _ => rfl,
    fun _ => rfl, fun _ => rfl, fun _ => rfl⟩

/-- A completion changes ERRCODE and STATUS alone, which every frame leaves open. -/
theorem OnlyWrites.complete (h : OnlyWrites s t parts) (c : ErrCode) (v : Bool) :
    OnlyWrites s (complete c v t) parts := h

theorem OnlyWrites.setReg (h : OnlyWrites s t parts) {r : OpReg} (hr : .reg r ∈ parts) (v : U256) :
    OnlyWrites s (t.setReg r v) parts := by
  obtain ⟨hout, hreg, hrest⟩ := h
  refine ⟨hout, fun r' hr' => ?_, hrest⟩
  have hne : r' ≠ r := by rintro rfl; exact hr' hr
  rw [State.reg_setReg_of_ne t v hne, hreg r' hr']

theorem OnlyWrites.setNum (h : OnlyWrites s t parts) {r : OpReg} (hr : .reg r ∈ parts) (n : Nat) :
    OnlyWrites s (t.setNum r n) parts := h.setReg hr _

theorem OnlyWrites.setRinf (h : OnlyWrites s t parts) (hr : .rinf ∈ parts) (b : Bool) :
    OnlyWrites s { t with rinf := b } parts := by
  obtain ⟨hout, hreg, -, hrest⟩ := h
  exact ⟨hout, hreg, absurd hr, hrest⟩

theorem OnlyWrites.setLanes (h : OnlyWrites s t parts) (hl : .lanes ∈ parts) (S : Lanes) :
    OnlyWrites s { t with lanes := S } parts := by
  obtain ⟨hout, hreg, hrinf, -, hrest⟩ := h
  exact ⟨hout, hreg, hrinf, absurd hl, hrest⟩

theorem OnlyWrites.setDigest (h : OnlyWrites s t parts) (hd : .digest ∈ parts) (out : Vector Byte 32) :
    OnlyWrites s { t with digest := out } parts := by
  obtain ⟨hout, hreg, hrinf, hlanes, -, hatt⟩ := h
  exact ⟨hout, hreg, hrinf, hlanes, absurd hd, hatt⟩

theorem OnlyWrites.setAttempts (h : OnlyWrites s t parts) (ha : .attempts ∈ parts) (n : Nat) :
    OnlyWrites s (t.setAttempts n) parts := by
  obtain ⟨hout, hreg, hrinf, hlanes, hdigest, -⟩ := h
  exact ⟨hout, hreg, hrinf, hlanes, hdigest, absurd ha⟩

/-- `writeR` writes RX, RY and RINF (41_ecc.md R79). -/
theorem onlyWrites_writeR (s : State) (R : Point) : OnlyWrites s (writeR s R) [.reg .rx, .reg .ry, .rinf] := by
  cases R <;> exact (((OnlyWrites.refl s _).setNum (by simp) _).setNum (by simp) _).setRinf (by simp) _

end

/-! ### What a command can do -/

/-- `u` is `s` with outputs of the command written: the registers of its write set (20_memory.md R48), whatever their
values. -/
def Outputs (s u : State) : Instr → Prop
  | .modmul | .modinv => ∃ n, u = s.setNum .z n
  | .padd | .pdbl | .pmul => ∃ R, u = writeR s R
  | .keccakf | .hinit | .habsorb => ∃ S, u = { s with lanes := S }
  | .hfinal _ => ∃ S out v, u = { s with lanes := S, digest := out }.setReg .h v
  | .sign _ => ∃ n r sig e, u = (((s.setAttempts n).setNum .sr r).setNum .ss sig).setNum .e e
  | .verify => ∃ e, u = s.setNum .e e

/-- How a command can complete (60_exceptions.md R122, R123): at an error, with no output but SIGN's ATTEMPTS; or
without one, with its outputs. -/
inductive Completes (i : Instr) (s : State) : State → Prop where
  | raised (c : ErrCode) : Completes i s (complete c false s)
  | signRaised (k : NonceSource) (c : ErrCode) (n : Nat) (hi : i = .sign k) :
      Completes i s (complete c false (s.setAttempts n))
  | succeeded (v : Bool) (u : State) (hu : Outputs s u i) (hv : v = true → i = .verify) :
      Completes i s (complete .noError v u)

/-- A computation that answers a value answered one at its first step too. -/
theorem exists_of_bind_eq_ok {ε α β : Type} {x : Except ε α} {f : α → Except ε β} {b : β} (h : x >>= f = .ok b) :
    ∃ a, f a = .ok b := by
  cases x with
  | error e => cases h
  | ok a => exact ⟨a, h⟩

/-- A conclusion completes the command, if what it computed are the command's outputs. -/
theorem completes_of_conclude {i : Instr} {o : Except ErrCode State} {s t : State}
    (ho : ∀ u, o = .ok u → Outputs s u i) (h : conclude o s = .next t) : Completes i s t := by
  rcases conclude_cases o s with ⟨u, hu, e⟩ | ⟨c, -, e⟩ <;> rw [e] at h <;> cases h
  · exact .succeeded _ u (ho u hu) (by simp)
  · exact .raised c

/-- What a curve command computes last is its result point, written (41_ecc.md R79). -/
theorem writesPoint_of_bind {s u : State} {o : Except ErrCode Point}
    (h : (o >>= fun R => .ok (writeR s R)) = .ok u) : ∃ R, u = writeR s R := by
  obtain ⟨R, hR⟩ := exists_of_bind_eq_ok h
  exact ⟨R, by cases hR; rfl⟩

/-- What a command's step can do. -/
theorem exec_completes {i : Instr} {s t : State} (h : exec i s = .next t) : Completes i s t := by
  cases i with
  | modmul =>
    simp only [exec, execModmul] at h
    split at h <;> cases h
    · exact .raised _
    · exact .succeeded _ _ ⟨_, rfl⟩ nofun
  | modinv =>
    simp only [exec, execModinv] at h
    split at h
    · cases h; exact .raised _
    · refine completes_of_conclude (fun u hu => ?_) h
      cases hf : finv (s.num .a) (s.num .m) with
      | error e => rw [hf] at hu; cases hu
      | ok v => rw [hf] at hu; cases hu; exact ⟨v, rfl⟩
  | padd =>
    refine completes_of_conclude (fun u hu => ?_) h
    obtain ⟨_, hu⟩ := exists_of_bind_eq_ok hu
    obtain ⟨_, hu⟩ := exists_of_bind_eq_ok hu
    obtain ⟨_, hu⟩ := exists_of_bind_eq_ok hu
    exact writesPoint_of_bind hu
  | pdbl =>
    refine completes_of_conclude (fun u hu => ?_) h
    obtain ⟨_, hu⟩ := exists_of_bind_eq_ok hu
    obtain ⟨_, hu⟩ := exists_of_bind_eq_ok hu
    exact writesPoint_of_bind hu
  | pmul =>
    refine completes_of_conclude (fun u hu => ?_) h
    obtain ⟨_, hu⟩ := exists_of_bind_eq_ok hu
    obtain ⟨_, hu⟩ := exists_of_bind_eq_ok hu
    split at hu
    · cases hu
    · exact writesPoint_of_bind hu
  | keccakf | hinit | habsorb => cases h; exact .succeeded _ _ ⟨_, rfl⟩ nofun
  | hfinal len =>
    simp only [exec, execHfinal] at h
    split at h <;> cases h
    · exact .succeeded _ _ ⟨_, _, _, rfl⟩ nofun
    · exact .raised _
  | sign k =>
    simp only [exec, execSign] at h
    split at h <;> [skip; split at h] <;> cases h
    · exact .signRaised k _ _ rfl
    · exact .signRaised k _ _ rfl
    · exact .succeeded _ _ ⟨_, _, _, _, rfl⟩ nofun
  | verify =>
    simp only [exec, execVerify] at h
    split at h <;> [skip; split at h] <;> cases h
    · exact .raised _
    · exact .raised _
    · exact .succeeded _ _ ⟨_, rfl⟩ fun _ => rfl

/-- The outputs of a command lie in its write set (20_memory.md R48). -/
theorem Outputs.onlyWrites {i : Instr} {s u : State} (h : Outputs s u i) : OnlyWrites s u (writeParts i) := by
  have start := OnlyWrites.refl s (writeParts i)
  cases i with
  | modmul | modinv => obtain ⟨n, rfl⟩ := h; exact start.setNum (by simp [writeParts]) n
  | padd | pdbl | pmul => obtain ⟨R, rfl⟩ := h; exact onlyWrites_writeR s R
  | keccakf | hinit | habsorb => obtain ⟨S, rfl⟩ := h; exact start.setLanes (by simp [writeParts]) S
  | hfinal len =>
    obtain ⟨S, out, v, rfl⟩ := h
    exact ((start.setLanes (by simp [writeParts]) S).setDigest (by simp [writeParts]) out).setReg
      (by simp [writeParts]) v
  | sign k =>
    obtain ⟨n, r, sig, e, rfl⟩ := h
    exact (((start.setAttempts (by simp [writeParts]) n).setNum (by simp [writeParts]) r).setNum
      (by simp [writeParts]) sig).setNum (by simp [writeParts]) e
  | verify => obtain ⟨e, rfl⟩ := h; exact start.setNum (by simp [writeParts]) e

/-- No command writes outside its write set. -/
theorem exec_onlyWrites {i : Instr} {s t : State} (h : exec i s = .next t) : OnlyWrites s t (writeParts i) := by
  cases exec_completes h with
  | raised c => exact (OnlyWrites.refl s _).complete c false
  | signRaised k c n hi =>
    subst hi
    exact ((OnlyWrites.refl s _).setAttempts (by simp [writeParts]) n).complete c false
  | succeeded v u hu hv => exact hu.onlyWrites.complete .noError v

/-- Only SIGN and VERIFY have E in their write set. -/
theorem sign_or_verify_of_reg_e_mem {i : Instr} (h : .reg .e ∈ writeParts i) : (∃ k, i = .sign k) ∨ i = .verify := by
  cases i with
  | sign k => exact .inl ⟨k, rfl⟩
  | verify => exact .inr rfl
  | _ => simp [writeParts] at h

/-- A command that changes a register has completed without error (60_exceptions.md R123). -/
theorem exec_noError_of_reg_ne {i : Instr} {s t : State} {r : OpReg} (h : exec i s = .next t)
    (hr : t.reg r ≠ s.reg r) : t.errcode = .noError := by
  cases exec_completes h with
  | raised c => exact absurd rfl hr
  | signRaised k c n hi => exact absurd rfl hr
  | succeeded v u hu hv => rfl

/-- Every completion raises DONE, and leaves IE as it was (60_exceptions.md R122). -/
theorem irq_of_exec {i : Instr} {s t : State} (h : exec i s = .next t) : irq t = s.ie := by
  obtain ⟨⟨-, hie, -⟩, -⟩ := exec_onlyWrites h
  obtain ⟨c, v, u, hu⟩ := exec_is_completion i s
  obtain rfl : complete c v u = t := by rw [hu] at h; exact Host.Outcome.next.inj h
  simpa [irq] using hie

end Sys2Proof.Safety
end

section
/-! The statements of the family 10_state.md. -/

namespace Sys2Proof.Proofs

open Sys2Proof.Machine Sys2Proof.Safety

/-- Settles O27: a completion sets DONE and keeps IE (`irq_of_exec`), and W1C and acceptance clear DONE. -/
theorem interruptFollowsDone : Obligations.InterruptFollowsDone := by
  unfold Obligations.InterruptFollowsDone
  refine ⟨fun s => by simp [irq], rfl, fun i s t h => irq_of_exec h, fun s w hw => ?_, fun s w hb => ?_⟩
  · rw [show offsetOf 0x008 = Slot.status.off from rfl, memWrite_of_openWhileBusy rfl]
    simp [writeSlot, irq, hw]
  · have hcmd : slotAt (offsetOf 0x00C) = some .cmd := slotAt_off .cmd
    rw [memWrite_of_idle hcmd hb]
    simp [writeSlot, irq]

/-- Settles O15: host writes by what a write of a slot can do, commands by their write sets and by how they complete. -/
theorem eIsWrittenOnlyBySuccess : Obligations.EIsWrittenOnlyBySuccess := by
  unfold Obligations.EIsWrittenOnlyBySuccess
  refine ⟨fun s j v hj hb => ?_, memWrite_reg_e, fun i s t h he => ⟨exec_noError_of_reg_ne h he, ?_⟩⟩
  · have hword : slotAt (offsetOf (0x100 + 0x20 * 22 + 4 * j)) = some (.operand .e ⟨j, hj⟩) :=
      slotAt_off (.operand .e ⟨j, hj⟩)
    rw [memWrite_of_idle hword hb, writeSlot_of_readOnly (sl := .operand .e _) rfl]
  · obtain ⟨-, hreg, -⟩ := exec_onlyWrites h
    exact sign_or_verify_of_reg_e_mem (by_contra fun hmem => he (hreg .e hmem))

/-- Settles O24: the registers' words as sums of their bits, and host accesses by the slot that stands at the offset. -/
theorem reservedBitsAndReadOnlyRegisters : Obligations.ReservedBitsAndReadOnlyRegisters := by
  unfold Obligations.ReservedBitsAndReadOnlyRegisters
  refine ⟨controlWords_lt, fun s v => ?_, fun s v hb => ?_, fun s v => ?_, fun s off v hb hserved hro => ?_,
    fun s hb => ?_⟩
  · exact ⟨_, memWrite_of_openWhileBusy (sl := .ctrl) rfl s v, rfl⟩
  · exact ⟨_, memWrite_of_idle (slotAt_off .pflags) hb v, rfl⟩
  · exact ⟨_, memWrite_of_openWhileBusy (sl := .status) rfl s v, rfl⟩
  · obtain ⟨sl, hs⟩ := exists_slotAt hserved
    rw [memWrite_of_idle hs hb, writeSlot_of_readOnly (readOnly_of_slotAt hs hro)]
    rfl
  · have rd := memRead_off_of_idle hb
    refine ⟨rd .id, ?_, ?_, rd .cmd, ?_, ?_, rd .cfg, ?_⟩
    · rw [← ctrlWord_eq]; exact rd .ctrl
    · have hstatus := statusWord_eq s
      rw [hb, Bool.toNat_false, Nat.zero_add] at hstatus
      rw [← hstatus]; exact rd .status
    · rw [BitVec.ofNat_toNat]; exact rd .errcode
    · rw [BitVec.ofNat_toNat]; exact rd .attempts
    · rw [← pflagsWord_eq]; exact rd .pflags

end Sys2Proof.Proofs
end

section
/-! SUPPORT. Host accesses to offsets that nothing serves, to a busy core, and to the words of an operand register. -/

namespace Sys2Proof.Machine

open Sys2Proof.Safety

/-! ### Which offsets are served (20_memory.md R33, R34, R38) -/

/-- The offset of every slot is aligned and unreserved. -/
theorem not_notServed_slotOffset (sl : Slot) : ¬ NotServed (slotOffset sl) := by
  unfold NotServed
  cases sl <;> simp only [slotOffset] <;> omega

/-- Nothing stands exactly at the reserved and the misaligned offsets. -/
theorem slotAt_eq_none_iff {off : Offset} : slotAt off = none ↔ NotServed off.toNat := by
  constructor
  · intro hnone
    by_contra hserved
    obtain ⟨sl, hs⟩ := exists_slotAt hserved
    rw [hs] at hnone
    cases hnone
  · intro hbad
    by_contra hne
    obtain ⟨sl, hs⟩ := Option.ne_none_iff_exists'.1 hne
    rw [toNat_of_slotAt hs] at hbad
    exact not_notServed_slotOffset sl hbad

/-! ### Host accesses that are not served (20_memory.md R34, R35, R38) -/

section
variable {size : AccessSize} {off : Offset} (h : size ≠ .b32 ∨ slotAt off = none)
include h

/-- A read of another width, or at an offset where nothing stands, answers BUSERR. -/
theorem memRead_eq_busError (s : State) : memRead s size off = busError := by
  rcases memRead_cases s size off with ⟨-, e⟩ | ⟨sl, hb32, hs, -⟩ | ⟨sl, hb32, hs, -⟩
  · exact e
  all_goals simp [hb32, hs] at h

/-- A write of another width, or at an offset where nothing stands, does nothing and answers BUSERR. -/
theorem memWrite_eq_busError (s : State) (v : Word) : memWrite s size off v = (s, busError) := by
  rcases memWrite_cases s size off v with ⟨-, e⟩ | ⟨sl, hb32, hs, -⟩ | ⟨sl, hb32, hs, -⟩
  · exact e
  all_goals simp [hb32, hs] at h

end

/-! ### Writes to a busy core (20_memory.md R47) -/

/-- The slots that take a write while BUSY = 1 stand at the offsets of CTRL and STATUS. -/
theorem openWhileBusy_eq_false {off : Offset} {sl : Slot} (hs : slotAt off = some sl) (hctrl : off.toNat ≠ 0x004)
    (hstatus : off.toNat ≠ 0x008) : openWhileBusy sl = false := by
  rw [toNat_of_slotAt hs] at hctrl hstatus
  cases sl with
  | ctrl => exact absurd rfl hctrl
  | status => exact absurd rfl hstatus
  | _ => rfl

/-- A busy core drops the write to any other slot, and sets WIGN. -/
theorem memWrite_of_busy {s : State} {off : Offset} {sl : Slot} (hs : slotAt off = some sl) (h : s.busy = true)
    (hopen : openWhileBusy sl = false) (v : Word) :
    memWrite s .b32 off v = ({ s with wign := true }, busOkay 0) := by
  simp [memWrite, hs, h, hopen]

/-! ### The words of an operand register (20_memory.md R40) -/

/-- An operand register other than D reads as its words. -/
theorem slotWord_operand {r : OpReg} (h : r ≠ .d) (s : State) (i : Fin 8) :
    slotWord s (.operand r i) = getWord (s.reg r) i := if_neg h

/-- A write to a word of an operand register other than E replaces that word of the register. -/
theorem writeSlot_operand {r : OpReg} (h : r ≠ .e) (s : State) (i : Fin 8) (v : Word) :
    writeSlot s (.operand r i) v = s.setReg r (putWord (s.reg r) i v) := if_neg h

end Sys2Proof.Machine
end

section
/-! The statements of the family 20_memory.md. -/

namespace Sys2Proof.Proofs

open Sys2Proof.Machine Sys2Proof.Safety

/-- Settles O18: the offset is that of the slot of word i, whose read is `getWord` and whose write is `putWord`. -/
theorem operandWordLayout : Obligations.OperandWordLayout := by
  unfold Obligations.OperandWordLayout
  intro s r i v hi hb
  constructor
  · intro hd
    rw [← getWord, ← slotWord_operand hd s ⟨i, hi⟩]
    exact memRead_off_of_idle hb (.operand r ⟨i, hi⟩)
  · intro he
    have hwrite := memWrite_of_idle (slotAt_off (.operand r ⟨i, hi⟩)) hb v
    rw [writeSlot_operand he] at hwrite
    have hframe := (OnlyWrites.refl s [.reg r]).setReg (List.mem_singleton_self _) (putWord (s.reg r) i v)
    refine ⟨_, hwrite, ?_, fun j hj hji => ?_, hframe, rfl, rfl, rfl, rfl, rfl⟩ <;> rw [State.reg_setReg_self]
    · exact getWord_putWord_self _ i v (by omega)
    · exact getWord_putWord_of_ne _ v hji (by omega)

/-- Settles O7: a slot other than CTRL and STATUS stands at the offset, and drops the write. -/
theorem busyWritesAreDropped : Obligations.BusyWritesAreDropped := by
  unfold Obligations.BusyWritesAreDropped
  intro s off v hb hserved hctrl hstatus
  obtain ⟨sl, hs⟩ := exists_slotAt hserved
  exact memWrite_of_busy hs hb (openWhileBusy_eq_false hs hctrl hstatus) v

/-- Settles O16: nothing stands at an offset that is not served, so the bus answers BUSERR. -/
theorem badAccessesDoNothing : Obligations.BadAccessesDoNothing := by
  unfold Obligations.BadAccessesDoNothing
  intro s size off v h
  rw [← slotAt_eq_none_iff] at h
  exact ⟨memRead_eq_busError h s, memWrite_eq_busError h s v⟩

end Sys2Proof.Proofs
end

section
/-! SUPPORT. Which words decode, and what an illegal word does. -/

namespace Sys2Proof

/-! ### Decoding answers a command exactly on the legal words (30_encoding.md R59) -/

/-- The commands other than HFINAL and SIGN: a word that carries one of them is legal exactly if it decodes. -/
theorem exists_decodePlain_iff_legal {w : Word} (i : Instr) (hr : rsvField w = 0)
    (hop : 1 ≤ (opField w).toNat ∧ (opField w).toNat ≤ 0x0B) (hhfinal : opField w ≠ 0x09#8)
    (hsign : opField w ≠ 0x0A#8) : (∃ j, decodePlain w i = .ok j) ↔ legal w := by
  simp [decodePlain_eq_ok, legal, hr, hop, hhfinal, hsign]

theorem exists_decodeHfinal_iff_legal {w : Word} (hr : rsvField w = 0) (hop : opField w = 0x09#8) :
    (∃ j, decodeHfinal w = .ok j) ↔ legal w := by
  simp [decodeHfinal_eq_ok, legal, hr, hop]

theorem exists_decodeSign_iff_legal {w : Word} (hr : rsvField w = 0) (hop : opField w = 0x0A#8) :
    (∃ j, decodeSign w = .ok j) ↔ legal w := by
  simp [decodeSign_eq_ok, legal, hr, hop]

theorem exists_decode_iff_legal (w : Word) : (∃ i, decode w = .ok i) ↔ legal w := by
  by_cases hr : rsvField w = 0
  case neg => exact ⟨by simp [decode_reserved hr], fun ⟨hr0, _⟩ => absurd hr0 hr⟩
  have hne {op : BitVec 8} (h : (opField w).toNat ≠ op.toNat) : opField w ≠ op := fun e => h (e ▸ rfl)
  rw [decode, if_neg (not_not_intro hr)]
  split
  case h_9 hop => exact exists_decodeHfinal_iff_legal hr (BitVec.eq_of_toNat_eq hop)
  case h_10 hop => exact exists_decodeSign_iff_legal hr (BitVec.eq_of_toNat_eq hop)
  case h_12 =>
    have hunassigned : ¬ (1 ≤ (opField w).toNat ∧ (opField w).toNat ≤ 0x0B) := by
      simp only [imp_false] at *
      omega
    simp [legal, hunassigned]
  all_goals
    next hop =>
      exact exists_decodePlain_iff_legal _ hr (by omega) (hne (by simp [hop])) (hne (by simp [hop]))

/-- OP is the low byte of the word (30_encoding.md R57). -/
theorem toNat_opField (w : Word) : (opField w).toNat = w.toNat % 256 := by
  simp [opField, BitVec.extractLsb'_toNat]

/-- A word whose OP is unassigned decodes to none (30_encoding.md R58). -/
theorem decode_ne_ok_of_unassigned {w : Word} (h : (opField w).toNat = 0 ∨ 0x0C ≤ (opField w).toNat) (i : Instr) :
    decode w ≠ .ok i := by
  intro hd
  obtain ⟨-, ⟨hlow, hhigh⟩, -⟩ := (exists_decode_iff_legal w).1 ⟨i, hd⟩
  omega

end Sys2Proof

namespace Sys2Proof.Machine

open Sys2Proof.Safety

/-! ### The lifecycle of an illegal word (30_encoding.md R59; 60_exceptions.md R121, R122) -/

/-- An illegal word completes with ILLEGAL_CMD. -/
theorem runWord_of_not_legal {w : Word} (h : ¬ legal w) (s : State) :
    runWord w s = .next (complete .illegalCmd false s) := by
  cases hd : decode w with
  | ok i => exact absurd ((exists_decode_iff_legal w).1 ⟨i, hd⟩) h
  | error e => rw [runWord, hd, raise_eq]

/-- The engine's turn performs the latched word. -/
theorem engineTurn_of_running {w : Word} {s : State} (h : s.running = some w) : engineTurn s = runWord w s := by
  rw [engineTurn, h]

/-- An idle core accepts any word that is written to CMD. -/
theorem memWrite_cmd_of_idle {s : State} (h : s.busy = false) (w : Word) :
    memWrite s .b32 (offsetOf 0x00C) w = (accept w s, busOkay 0) :=
  memWrite_of_idle (slotAt_off .cmd) h w

/-- Acceptance changes STATUS, ERRCODE and the latched word alone, which every frame leaves open. -/
theorem onlyWrites_accept (s : State) (w : Word) (parts : List Part) : OnlyWrites s (accept w s) parts :=
  OnlyWrites.refl s parts

theorem completed_complete {c : ErrCode} (hc : c ≠ .noError) (v : Bool) (s : State) :
    Completed (complete c v s) c false := by
  simp [Completed, hc]

end Sys2Proof.Machine
end

section
/-! The statements of the family 30_encoding.md. -/

namespace Sys2Proof.Proofs

open Sys2Proof.Machine Sys2Proof.Safety

/-- Settles O1: `decode` answers a command on the legal words only, so an illegal one, once accepted, is raised. -/
theorem illegalWordsAreAcceptedAndRejected : Obligations.IllegalWordsAreAcceptedAndRejected := by
  unfold Obligations.IllegalWordsAreAcceptedAndRejected
  refine ⟨exists_decode_iff_legal, fun s w hw hb => ⟨?_, fun u hu => ?_⟩⟩
  · exact ⟨accept w s, memWrite_cmd_of_idle hb w, rfl, onlyWrites_accept s w []⟩
  · have hturn : engineTurn u = .next (complete .illegalCmd false u) := by
      rw [engineTurn_of_running hu, runWord_of_not_legal hw]
    exact ⟨_, hturn, completed_complete (by decide) false u, (OnlyWrites.refl u []).complete _ _⟩

/-- Settles O4: the table's words by evaluation, every other OP by `decode_ne_ok_of_unassigned`. -/
theorem operationCodes : Obligations.OperationCodes := by
  unfold Obligations.OperationCodes
  refine ⟨rfl, rfl, rfl, rfl, rfl, rfl, rfl, rfl, rfl, rfl, rfl, rfl, fun w hop => ?_⟩
  rw [← toNat_opField] at hop
  exact decode_ne_ok_of_unassigned hop

end Sys2Proof.Proofs
end

section
/-! SUPPORT. How a command ends with an error, or with one number written, and the cases of MODMUL and MODINV. -/

namespace Sys2Proof.Machine

open Sys2Proof.Safety

/-- A command whose step is the completion of the unchanged state with an error ends with that error
(60_exceptions.md R123). -/
theorem endsWithError_of_exec_eq {i : Instr} {s : State} {c : ErrCode} (hc : c ≠ .noError)
    (h : exec i s = .next (complete c false s)) : EndsWithError i s c :=
  ⟨_, h, completed_complete hc false s, (OnlyWrites.refl s []).complete c false⟩

/-- A command whose step is the completion of a state with one number written: the number is there, and nothing else
changed (60_exceptions.md R122). -/
theorem exists_exec_of_eq_setNum {i : Instr} {s : State} {r : OpReg} {n : Nat} (hn : n < 2 ^ 256)
    (h : exec i s = .next (complete .noError false (s.setNum r n))) :
    ∃ t, exec i s = .next t ∧ Completed t .noError false ∧ t.num r = n ∧ OnlyWrites s t [.reg r] := by
  have hframe := (OnlyWrites.refl s [.reg r]).setNum (List.mem_singleton_self _) n
  refine ⟨_, h, ⟨rfl, rfl, rfl, rfl, rfl⟩, ?_, hframe.complete .noError false⟩
  rw [complete_num, State.num_setNum s r r hn, if_pos rfl]

/-! ### MODMUL (40_modular.md R71) -/

theorem exec_modmul_of_eq_zero {s : State} (hm : s.num .m = 0) :
    exec .modmul s = .next (complete .range false s) := if_pos hm

theorem exec_modmul_of_ne_zero {s : State} (hm : s.num .m ≠ 0) :
    exec .modmul s = .next (complete .noError false (s.setNum .z (fmul (s.num .a) (s.num .b) (s.num .m)))) :=
  if_neg hm

/-! ### MODINV (40_modular.md R72) -/

theorem exec_modinv_of_eq_zero {s : State} (hm : s.num .m = 0) :
    exec .modinv s = .next (complete .range false s) := if_pos hm

theorem exec_modinv_of_finv_ok {s : State} {v : Nat} (hm : s.num .m ≠ 0)
    (hv : finv (s.num .a) (s.num .m) = .ok v) :
    exec .modinv s = .next (complete .noError false (s.setNum .z v)) := by
  rw [exec, execModinv, if_neg hm, hv]
  rfl

theorem exec_modinv_of_finv_error {s : State} {e : ErrCode} (hm : s.num .m ≠ 0)
    (he : finv (s.num .a) (s.num .m) = .error e) : exec .modinv s = .next (complete e false s) := by
  rw [exec, execModinv, if_neg hm, he]
  rfl

end Sys2Proof.Machine
end

section
/-! The statements of the family 40_modular.md. -/

namespace Sys2Proof.Proofs

open Sys2Proof.Machine Sys2Proof.Safety

/-- Settles O33: where A has an inverse, `finv` finds it below M, so that it fits Z; elsewhere `finv` raises
NOT_INVERTIBLE. -/
theorem modinvWritesTheInverse : Obligations.ModinvWritesTheInverse := by
  unfold Obligations.ModinvWritesTheInverse
  refine ⟨rfl, fun s hm hgcd => ?_, fun s hm => ?_, fun s hm hgcd => ?_⟩
  · obtain ⟨v, hv, hlt, hinv⟩ := finv_ok (Nat.pos_of_ne_zero hm) hgcd
    obtain ⟨t, hexec, hdone, hz, hframe⟩ :=
      exists_exec_of_eq_setNum (hlt.trans (s.num_lt .m)) (exec_modinv_of_finv_ok hm hv)
    exact ⟨t, hexec, hdone, hz ▸ hlt, hz ▸ hinv, hframe⟩
  · exact endsWithError_of_exec_eq (by decide) (exec_modinv_of_eq_zero hm)
  · exact endsWithError_of_exec_eq (by decide) (exec_modinv_of_finv_error hm (finv_error hgcd))

/-- Settles O32: the product mod M is below M, so that Z holds it exactly. -/
theorem modmulWritesTheProduct : Obligations.ModmulWritesTheProduct := by
  unfold Obligations.ModmulWritesTheProduct
  refine ⟨rfl, fun s hm => ?_, fun s hm => ?_⟩
  · have hlt : fmul (s.num .a) (s.num .b) (s.num .m) < 2 ^ 256 :=
      (fmul_lt _ _ (Nat.pos_of_ne_zero hm)).trans (s.num_lt .m)
    exact exists_exec_of_eq_setNum hlt (exec_modmul_of_ne_zero hm)
  · exact endsWithError_of_exec_eq (by decide) (exec_modmul_of_eq_zero hm)

end Sys2Proof.Proofs
end

section
/-! SUPPORT. The lanes after each step mapping of the permutation, at any indexes mod 5. -/

namespace Sys2Proof.Machine

theorem laneAt_congr (A : Lanes) {x y x' y' : Nat} (hx : x % 5 = x' % 5) (hy : y % 5 = y' % 5) :
    laneAt A x y = laneAt A x' y' := by
  simp only [laneAt, laneIndex_inj.2 ⟨hx, hy⟩]

theorem columnParity_congr (A : Lanes) {x x' : Nat} (hx : x % 5 = x' % 5) :
    columnParity A x = columnParity A x' := by
  simp only [columnParity, laneAt_congr A hx rfl]

/-- 42_keccak.md R87. -/
theorem laneAt_theta (A : Lanes) (x y : Nat) :
    laneAt (theta A) x y =
      laneAt A x y ^^^ (columnParity A (x + 4) ^^^ (columnParity A (x + 1)).rotateLeft 1) := by
  rw [theta, laneAt_tabulate, laneAt_mod, rotl_eq_rotateLeft _ (by decide),
    columnParity_congr A (Nat.mod_add_mod x 5 4), columnParity_congr A (Nat.mod_add_mod x 5 1)]

/-- 42_keccak.md R88: the source that rho and pi read for the target (y, 2x + 3y) is (x, y). -/
theorem laneIndex_rhoPi_source (x y : Nat) :
    laneIndex (y % 5 + 3 * ((2 * x + 3 * y) % 5)) (y % 5) = laneIndex x y :=
  laneIndex_inj.2 ⟨by omega, Nat.mod_mod y 5⟩

/-- 42_keccak.md R88. -/
theorem laneAt_rhoPi (rho : Vector (Fin 64) 25) (A : Lanes) (x y : Nat) :
    laneAt (rhoPi rho A) y (2 * x + 3 * y) = (laneAt A x y).rotateLeft (rho[laneIndex x y]).val := by
  rw [rhoPi, laneAt_tabulate, rotl_eq_rotateLeft _ (Fin.isLt _)]
  simp only [laneAt, laneIndex_rhoPi_source]

/-- 42_keccak.md R88: the map (x, y) → (y, 2x + 3y) is a bijection of the positions; (u + 3v, u) goes to (u, v). -/
theorem existsUnique_rhoPi_source {u v : Nat} (hu : u < 5) (hv : v < 5) :
    ∃! q : Nat × Nat, q.1 < 5 ∧ q.2 < 5 ∧ q.2 = u ∧ (2 * q.1 + 3 * q.2) % 5 = v := by
  refine ⟨((u + 3 * v) % 5, u), ⟨by omega, hu, rfl, by omega⟩, ?_⟩
  rintro ⟨x, y⟩ ⟨hx, -, rfl, rfl⟩
  rw [Prod.mk.injEq]
  exact ⟨by omega, rfl⟩

/-- 42_keccak.md R89. -/
theorem laneAt_chi (B : Lanes) (x y : Nat) :
    laneAt (chi B) x y = laneAt B x y ^^^ (~~~(laneAt B (x + 1) y) &&& laneAt B (x + 2) y) := by
  rw [chi, laneAt_tabulate, laneAt_mod, laneAt_congr B (Nat.mod_add_mod x 5 1) (Nat.mod_mod y 5),
    laneAt_congr B (Nat.mod_add_mod x 5 2) (Nat.mod_mod y 5)]

/-- 42_keccak.md R90. -/
theorem laneAt_iota (c : Lane) (A : Lanes) (x y : Nat) :
    laneAt (iota c A) x y = if x % 5 = 0 ∧ y % 5 = 0 then laneAt A 0 0 ^^^ c else laneAt A x y :=
  laneAt_putLane A 0 0 x y _

end Sys2Proof.Machine
end

section
/-! The statement of the family 42_keccak.md about the step mappings. -/

namespace Sys2Proof.Proofs

open Sys2Proof.Machine

/-- Settles O45: the lane of each step mapping, and the one source of each target of rho and pi. -/
theorem stepMappings : Obligations.StepMappings := by
  unfold Obligations.StepMappings
  refine ⟨fun u v hu hv => existsUnique_rhoPi_source hu hv, fun rho A c x y hx hy =>
    ⟨rfl, laneAt_theta A x y, laneAt_rhoPi rho A x y, laneAt_chi A x y, ?_⟩⟩
  rw [laneAt_iota, Nat.mod_eq_of_lt hx, Nat.mod_eq_of_lt hy]

end Sys2Proof.Proofs
end

section
/-! SUPPORT. What a command that writes the sponge state alone leaves behind, and the block operations of the sponge. -/

namespace Sys2Proof.Machine

open Sys2Proof.Safety

/-- A command whose step is the completion of a state with new lanes: the lanes are there, and nothing else changed
(60_exceptions.md R122). -/
theorem exists_exec_of_eq_setLanes {i : Instr} {s : State} {S : Lanes}
    (h : exec i s = .next (complete .noError false { s with lanes := S })) :
    ∃ t, exec i s = .next t ∧ Completed t .noError false ∧ t.lanes = S ∧ OnlyWrites s t [.lanes] := by
  have hframe := (OnlyWrites.refl s [.lanes]).setLanes (List.mem_singleton_self _) S
  exact ⟨_, h, ⟨rfl, rfl, rfl, rfl, rfl⟩, rfl, hframe.complete .noError false⟩

/-! ### HINIT (43_sponge.md R99) -/

theorem exec_hinit (s : State) :
    exec .hinit s = .next (complete .noError false { s with lanes := Vector.replicate 25 0 }) := rfl

@[simp] theorem laneAt_replicate (v : Lane) (x y : Nat) : laneAt (Vector.replicate 25 v) x y = v := by
  simp [laneAt]

/-! ### The lanes of a block (43_sponge.md R97) -/

/-- Eight bytes as a lane: the first is the most significant (00_scope.md R8). -/
theorem be64_eq_append (b0 b1 b2 b3 b4 b5 b6 b7 : Byte) :
    be64 [b0, b1, b2, b3, b4, b5, b6, b7] = b0 ++ b1 ++ b2 ++ b3 ++ b4 ++ b5 ++ b6 ++ b7 := by
  apply BitVec.eq_of_toNat_eq
  repeat rw [BitVec.toNat_append, ← Nat.shiftLeft_add_eq_or_of_lt (BitVec.isLt _)]
  simp only [be64, List.foldl_cons, List.foldl_nil, BitVec.toNat_ofNat, Nat.shiftLeft_eq]
  omega

theorem blockLane_toList (buf : Vector Byte 136) {j : Nat} (h : j < 17) :
    blockLane buf.toList j =
      buf[8 * j] ++ buf[8 * j + 1] ++ buf[8 * j + 2] ++ buf[8 * j + 3] ++ buf[8 * j + 4] ++ buf[8 * j + 5] ++
        buf[8 * j + 6] ++ buf[8 * j + 7] := by
  have hbytes : (buf.toList.drop (8 * j)).take 8 =
      [buf[8 * j], buf[8 * j + 1], buf[8 * j + 2], buf[8 * j + 3], buf[8 * j + 4], buf[8 * j + 5], buf[8 * j + 6],
        buf[8 * j + 7]] := by
    apply List.ext_getElem
    · simp; omega
    · intro k hk hk8
      have hlt : k < 8 := hk8
      interval_cases k <;> simp
  rw [blockLane, hbytes, be64_eq_append]

/-! ### HABSORB (43_sponge.md R98, R100) -/

/-- The sponge state after the first n of the seventeen iterations of `ABSORB` (43_sponge.md R98). -/
def absorbFirst (P : Params) (S : Lanes) (blk : List Byte) (n : Nat) : Lanes :=
  (List.range n).foldl (fun A j => absorbLane P A j (blockLane blk j)) S

theorem absorbFirst_zero (P : Params) (S : Lanes) (blk : List Byte) : absorbFirst P S blk 0 = S := rfl

theorem absorbFirst_succ (P : Params) (S : Lanes) (blk : List Byte) (n : Nat) :
    absorbFirst P S blk (n + 1) = absorbLane P (absorbFirst P S blk n) n (blockLane blk n) := by
  rw [absorbFirst, List.range_succ, List.foldl_concat, absorbFirst]

theorem absorb_eq_absorbFirst (P : Params) (S : Lanes) (blk : List Byte) :
    absorb P S blk = absorbFirst P S blk 17 := rfl

theorem exec_habsorb (s : State) : exec .habsorb s =
    .next (complete .noError false { s with lanes := absorb s.params s.lanes s.buf.toList }) := rfl

/-! ### The final block (43_sponge.md R101) -/

/-- What follows a tail of t ≤ 135 bytes and 0x01 in the final block (43_sponge.md R101). -/
def padFill (t : Nat) : List Byte :=
  if t = 135 then [] else List.replicate (134 - t) 0x00#8 ++ [0x80#8]

theorem padFill_of_le {t : Nat} (h : t ≤ 134) : padFill t = List.replicate (134 - t) 0x00#8 ++ [0x80#8] :=
  if_neg (by omega)

theorem padFill_length {t : Nat} (h : t ≤ 135) : (padFill t).length = 135 - t := by
  obtain rfl | hlt := h.eq_or_lt
  · rfl
  · rw [padFill_of_le (by omega), List.length_append, List.length_replicate, List.length_singleton]
    omega

/-- XOR into the last of the appended zeros. -/
theorem set_xor_last_zero {l : List Byte} {n : Nat} (h : l.length = n) (v : Byte) :
    (l ++ [0x00#8]).set n ((l ++ [0x00#8]).getD n 0 ^^^ v) = l ++ [v] := by
  subst h
  simp

/-- The final block is the tail, 0x01 and the fill. -/
theorem pad_eq_append {tail : List Byte} (h : tail.length ≤ 135) :
    pad tail = tail ++ 0x01#8 :: padFill tail.length := by
  obtain heq | hlt := h.eq_or_lt
  · simp [pad, padFill, heq]
  · have hzeros : 136 - (tail ++ [0x01#8]).length = 134 - tail.length + 1 := by
      rw [List.length_append, List.length_singleton]; omega
    have hshort : (tail ++ [0x01#8]).length % 136 ≠ 0 := by
      rw [List.length_append, List.length_singleton]; omega
    have hlen : (tail ++ [0x01#8] ++ List.replicate (134 - tail.length) 0x00#8).length = 135 := by
      simp; omega
    have hlast := set_xor_last_zero hlen 0x80#8
    simp only [pad]
    rw [if_pos hshort, hzeros, List.replicate_succ', ← List.append_assoc, hlast, padFill_of_le (by omega)]
    simp

end Sys2Proof.Machine
end

section
/-! The statements of the family 43_sponge.md about HINIT, HABSORB and the padding. -/

namespace Sys2Proof.Proofs

open Sys2Proof.Machine

/-- Settles O49: the sequence is `absorbFirst`, whose step j absorbs lane j of the block. -/
theorem habsorbAbsorbsTheBlock : Obligations.HabsorbAbsorbsTheBlock := by
  unfold Obligations.HabsorbAbsorbsTheBlock
  refine ⟨rfl, fun s => ?_⟩
  obtain ⟨t, hexec, hdone, hlanes, hframe⟩ := exists_exec_of_eq_setLanes (exec_habsorb s)
  refine ⟨t, absorbFirst s.params s.lanes s.buf.toList, hexec, hdone, absorbFirst_zero .., fun j hj => ?_, ?_, hframe⟩
  · rw [absorbFirst_succ, blockLane_toList s.buf hj, absorbLane]
  · rw [hlanes, absorb_eq_absorbFirst]

/-- Settles O50: each clause reads off the tail, 0x01 or the fill in `pad_eq_append`. -/
theorem paddingRule : Obligations.PaddingRule := by
  unfold Obligations.PaddingRule
  intro tail ht
  rw [pad_eq_append ht]
  refine ⟨?_, fun i hi => List.getElem?_append_left hi, by simp, fun hle => ⟨fun i hlow hhigh => ?_, ?_⟩⟩
  · rw [List.length_append, List.length_cons, padFill_length ht]
    omega
  · obtain ⟨k, rfl⟩ := Nat.exists_eq_add_of_lt hlow
    rw [padFill_of_le hle, List.getElem?_append_right (by omega), Nat.add_assoc, Nat.add_sub_cancel_left,
      List.getElem?_cons_succ, List.getElem?_append_left (by simp; omega), List.getElem?_replicate_of_lt (by omega)]
  · rw [padFill_of_le hle, List.getElem?_append_right (by omega),
      show 135 - tail.length = (134 - tail.length) + 1 by omega, List.getElem?_cons_succ]
    simp

/-- Settles O48: HINIT writes the state of 25 zero lanes. -/
theorem hinitClearsTheSponge : Obligations.HinitClearsTheSponge := by
  unfold Obligations.HinitClearsTheSponge
  refine ⟨rfl, fun s => ?_⟩
  obtain ⟨t, hexec, hdone, hlanes, hframe⟩ := exists_exec_of_eq_setLanes (exec_hinit s)
  exact ⟨t, hexec, hdone, fun x y => by rw [hlanes, laneAt_replicate], hframe⟩

end Sys2Proof.Proofs
end

section
/-! The statements of the family 60_exceptions.md. -/

namespace Sys2Proof.Proofs

open Sys2Proof.Machine Sys2Proof.Safety

/-- Settles O11: of the ways a command can complete (`exec_completes`), one that ends at an error completes the state as
it was, or, for SIGN alone, that state with ATTEMPTS written. -/
theorem errorsWriteNoOutput : Obligations.ErrorsWriteNoOutput := by
  unfold Obligations.ErrorsWriteNoOutput
  intro i s t h he
  cases exec_completes h with
  | raised c =>
    have hframe (parts : List Part) := (OnlyWrites.refl s parts).complete c false
    exact ⟨completed_complete he false s, hframe _, fun _ => hframe _⟩
  | signRaised k c n hi =>
    have hframe := (OnlyWrites.refl s [.attempts]).setAttempts (List.mem_singleton_self _) n
    exact ⟨completed_complete he false _, hframe.complete c false, fun hne => absurd hi (hne k)⟩
  | succeeded v u hu hv => exact absurd rfl he

/-- Settles O6: the write answers `accept w s`, which is busy, so that it drops the later writes as any busy core does
(`busyWritesAreDropped`). -/
theorem acceptanceOfEveryWord : Obligations.AcceptanceOfEveryWord := by
  unfold Obligations.AcceptanceOfEveryWord
  intro s w hb
  refine ⟨accept w s, memWrite_cmd_of_idle hb w, rfl, busy_accept w s, rfl, rfl, rfl, rfl, rfl,
    onlyWrites_accept s w [], fun off v => ?_⟩
  exact busyWritesAreDropped (accept w s) off v (busy_accept w s)

end Sys2Proof.Proofs
end

section
/-! SUPPORT. The registers right after a reset turn (70_reset_and_hazards.md R134), and CFG as a number. -/

namespace Sys2Proof.Machine

/-- CFG shows the whole of MAX_ATTEMPTS, which fits its word (10_state.md R19). -/
theorem toNat_cfgWord (s : State) : (cfgWord s).toNat = s.params.maxAttempts := by
  have := s.params.maxAttempts_le
  rw [cfgWord, BitVec.toNat_ofNat, Nat.mod_eq_of_lt (by omega)]

/-- The reset's turn resets the core, busy or idle (70_reset_and_hazards.md R134). -/
theorem step_of_nextTurn_eq_reset {s : State} (h : nextTurn s = .reset) :
    step s = .next (resetCore (takeTurn s)) := by
  simp [step, h]

@[simp] theorem reg_resetCore (s : State) (r : OpReg) : (resetCore s).reg r = 0 := Vector.getElem_replicate _

@[simp] theorem laneAt_resetCore (s : State) (x y : Nat) : laneAt (resetCore s).lanes x y = 0 :=
  laneAt_replicate 0 x y

@[simp] theorem buf_resetCore (s : State) (i : Nat) (h : i < 136) : (resetCore s).buf[i] = 0 :=
  Vector.getElem_replicate h

@[simp] theorem digest_resetCore (s : State) (i : Nat) (h : i < 32) : (resetCore s).digest[i] = 0 :=
  Vector.getElem_replicate h

@[simp] theorem statusWord_resetCore (s : State) : statusWord (resetCore s) = 0 := statusWord_eq _

@[simp] theorem pflagsWord_resetCore (s : State) : pflagsWord (resetCore s) = 0 := pflagsWord_eq _

/-- No command runs after a reset (70_reset_and_hazards.md R135). -/
@[simp] theorem busy_resetCore (s : State) : (resetCore s).busy = false := rfl

end Sys2Proof.Machine
end

section
/-! The statement of the family 70_reset_and_hazards.md. -/

namespace Sys2Proof.Proofs

open Sys2Proof.Machine

/-- Settles O28: the step answers `resetCore (takeTurn s)`, which is idle, so that its registers are read as they are:
all at their reset values but CFG, which shows the parameter that no reset touches. -/
theorem resetValues : Obligations.ResetValues := by
  unfold Obligations.ResetValues
  intro s h
  have rd := memRead_off_of_idle (busy_resetCore (takeTurn s))
  exact ⟨resetCore (takeTurn s), step_of_nextTurn_eq_reset h, rd .id, rfl, statusWord_resetCore _, rd .cmd, rfl, rfl,
    toNat_cfgWord _, pflagsWord_resetCore _, reg_resetCore _, laneAt_resetCore _, buf_resetCore _, digest_resetCore _,
    rfl, rfl⟩

end Sys2Proof.Proofs
end

section
/-! SUPPORT. What decodes to a command, by the fields of the word. -/

namespace Sys2Proof

/-- A word is determined by its four fields (30_encoding.md R57). -/
theorem word_ext {w w' : Word} (hop : opField w = opField w') (hlen : lenField w = lenField w')
    (hksrc : ksrcField w = ksrcField w') (hrsv : rsvField w = rsvField w') : w = w' := by
  apply BitVec.eq_of_toNat_eq
  rw [word_of_fields w, word_of_fields w', hop, hlen, hksrc, hrsv]

/-- The word carries the fields of the command, with RSV = 0 (30_encoding.md R57). -/
def CarriesFields (w : Word) (i : Instr) : Prop :=
  opField w = opcode i ∧ lenField w = lenOf i ∧ ksrcField w = ksrcOf i ∧ rsvField w = 0

/-- The word of every command carries its fields: the eleven lemmas of `Laws.EncodeFields` as one. -/
theorem carriesFields_encode (i : Instr) : CarriesFields (encode i) i := by
  cases i with
  | modmul => exact Laws.EncodeFields.modmul
  | modinv => exact Laws.EncodeFields.modinv
  | padd => exact Laws.EncodeFields.padd
  | pdbl => exact Laws.EncodeFields.pdbl
  | pmul => exact Laws.EncodeFields.pmul
  | keccakf => exact Laws.EncodeFields.keccakf
  | hinit => exact Laws.EncodeFields.hinit
  | habsorb => exact Laws.EncodeFields.habsorb
  | hfinal len => exact Laws.EncodeFields.hfinal len
  | sign ksrc => exact Laws.EncodeFields.sign ksrc
  | verify => exact Laws.EncodeFields.verify

/-- Only one word carries the fields of a command. -/
theorem eq_encode_of_carriesFields {w : Word} {i : Instr} (h : CarriesFields w i) : w = encode i := by
  obtain ⟨hop, hlen, hksrc, hrsv⟩ := h
  obtain ⟨hop', hlen', hksrc', hrsv'⟩ := carriesFields_encode i
  exact word_ext (hop.trans hop'.symm) (hlen.trans hlen'.symm) (hksrc.trans hksrc'.symm) (hrsv.trans hrsv'.symm)

/-- A word that carries the fields of a well-formed command decodes to it. -/
theorem decode_of_carriesFields {w : Word} {i : Instr} (h : CarriesFields w i) (hi : i.wellFormed = true) :
    decode w = .ok i := by
  obtain ⟨hop, hlen, hksrc, hrsv⟩ := h
  rw [decode, if_neg (not_not_intro hrsv), hop]
  cases i with
  | hfinal len => exact decodeHfinal_eq_ok.2 ⟨by simpa [hlen, lenOf, Instr.wellFormed] using hi, hksrc, by rw [hlen]; rfl⟩
  | sign ksrc => exact decodeSign_eq_ok.2 ⟨hlen, by cases ksrc <;> simp [hksrc, ksrcOf]⟩
  | _ => exact decodePlain_eq_ok.2 ⟨hlen, hksrc, rfl⟩

/-- The KSRC bit is the one that SIGN's nonce source has (30_encoding.md R61). -/
theorem ksrcOf_sign (b : BitVec 1) : ksrcOf (.sign (if b = 0 then .entropy else .registerK)) = b := by
  revert b; decide

/-- A word that decodes to a command carries its fields, and the command is well formed. -/
theorem carriesFields_of_decode {w : Word} {i : Instr} (h : decode w = .ok i) :
    CarriesFields w i ∧ i.wellFormed = true := by
  by_cases hrsv : rsvField w = 0
  case neg => rw [decode_reserved hrsv] at h; cases h
  rw [decode, if_neg (not_not_intro hrsv)] at h
  split at h
  case h_9 hop =>
    obtain ⟨hlen, hksrc, rfl⟩ := decodeHfinal_eq_ok.1 h
    exact ⟨⟨BitVec.eq_of_toNat_eq hop, rfl, hksrc, hrsv⟩, decide_eq_true hlen⟩
  case h_10 hop =>
    obtain ⟨hlen, rfl⟩ := decodeSign_eq_ok.1 h
    exact ⟨⟨BitVec.eq_of_toNat_eq hop, hlen, (ksrcOf_sign _).symm, hrsv⟩, rfl⟩
  case h_12 => cases h
  all_goals
    next hop =>
      obtain ⟨hlen, hksrc, rfl⟩ := decodePlain_eq_ok.1 h
      exact ⟨⟨BitVec.eq_of_toNat_eq hop, hlen, hksrc, hrsv⟩, rfl⟩

end Sys2Proof
end

section
/-! The statements of the family 30_encoding.md about encoding and decoding. -/

namespace Sys2Proof.Proofs

/-- Settles O2: the word of a command carries its fields, and such a word decodes to the command. -/
theorem decodeAfterEncode : Obligations.DecodeAfterEncode := by
  unfold Obligations.DecodeAfterEncode
  exact fun i hi => decode_of_carriesFields (carriesFields_encode i) hi

/-- Settles O3: a word that decodes to a command carries its fields, and only the command's own word does. -/
theorem encodeAfterDecode : Obligations.EncodeAfterDecode := by
  unfold Obligations.EncodeAfterDecode
  intro w i h
  obtain ⟨hfields, hwf⟩ := carriesFields_of_decode h
  exact ⟨hwf, (eq_encode_of_carriesFields hfields).symm⟩

end Sys2Proof.Proofs
end

section
/-! SUPPORT. The turn of each agent, what a host write leaves alone, and the invariant of the lifecycle. -/

namespace Sys2Proof.Machine

open Sys2Proof.Safety

/-! ### A step by whose turn it is -/

theorem step_of_nextTurn_eq_engine {s : State} (h : nextTurn s = .engine) : step s = engineTurn (takeTurn s) := by
  simp [step, h]

theorem step_of_nextTurn_eq_master {s : State} {n : Nat} (h : nextTurn s = .master n) :
    step s = masterTurn n (takeTurn s) := by
  simp [step, h]

/-- The engine's turn of an idle core holds all state (60_exceptions.md R133). -/
theorem engineTurn_of_idle {s : State} (h : s.running = none) : engineTurn s = .next s := by
  rw [engineTurn, h]

/-- A legal word is performed by its command's rule (60_exceptions.md R122). -/
theorem runWord_of_decode {w : Word} {i : Instr} (h : decode w = .ok i) (s : State) : runWord w s = exec i s := by
  rw [runWord, h]

/-- A statement of a master's program is performed on its turn (30_encoding.md R65). -/
theorem masterTurn_eq_hostStmt {s : State} {n : Nat} {m : Master} {st : HostStmt} (hm : s.masters[n]? = some m)
    (hst : m.program[m.pos]? = some st) : masterTurn n s = hostStmt s n m st := by
  simp only [masterTurn, hm, hst]

/-! ### What a bus master's turn can do -/

/-- Master `m'` is what a turn can make of master `m`: its program is the same, and its bound temporaries are in their
one order if those of `m` are. -/
def Progress (m m' : Master) : Prop :=
  m'.program = m.program ∧ ((m.temps.Pairwise fun x y => x.1 < y.1) → m'.temps.Pairwise fun x y => x.1 < y.1)

theorem progress_afterRead (m : Master) (dst : Option Nat) (a : BusAnswer) : Progress m (m.afterRead dst a) := by
  cases dst with
  | none => exact ⟨rfl, id⟩
  | some t => exact ⟨rfl, fun h => bindTemp_sorted h t a.data⟩

/-- A branch moves the master, or its program lacks the label. -/
theorem hostBranch_next {s t : State} {n l : Nat} {m : Master} {taken : Bool} (h : hostBranch s n m taken l = .next t) :
    ∃ m', Progress m m' ∧ t = s.setMaster n m' := by
  unfold hostBranch at h
  split at h
  · cases hl : labelPos m.program l with
    | none => rw [hl] at h; cases h
    | some p => rw [hl] at h; cases h; exact ⟨{ m with pos := p }, ⟨rfl, id⟩, rfl⟩
  · cases h; exact ⟨m.advance, ⟨rfl, id⟩, rfl⟩

/-- A statement lets its master progress, alone or with one host write. -/
theorem hostStmt_next {s t : State} {n : Nat} {m : Master} {st : HostStmt} (h : hostStmt s n m st = .next t) :
    ∃ m', Progress m m' ∧ (t = s.setMaster n m' ∨ ∃ size off v, t = (memWrite s size off v).1.setMaster n m') := by
  cases st with
  | rd size off dst => cases h; exact ⟨_, progress_afterRead m dst _, .inl rfl⟩
  | label l => cases h; exact ⟨m.advance, ⟨rfl, id⟩, .inl rfl⟩
  | wr size off v =>
    simp only [hostStmt] at h
    cases hv : hostValue m v with
    | none => rw [hv] at h; cases h
    | some w => rw [hv] at h; cases h; exact ⟨m.afterWrite _, ⟨rfl, id⟩, .inr ⟨size, off, w, rfl⟩⟩
  | bnz t mask l | bz t mask l =>
    simp only [hostStmt] at h
    cases ht : readTemp m.temps t with
    | none => rw [ht] at h; cases h
    | some w =>
      rw [ht] at h
      obtain ⟨m', hp, rfl⟩ := hostBranch_next h
      exact ⟨m', hp, .inl rfl⟩

/-- A master's turn does nothing, or lets that master progress, alone or with one host write. -/
theorem masterTurn_next {s t : State} {n : Nat} (h : masterTurn n s = .next t) :
    t = s ∨ ∃ m m', s.masters[n]? = some m ∧ Progress m m' ∧
      (t = s.setMaster n m' ∨ ∃ size off v, t = (memWrite s size off v).1.setMaster n m') := by
  unfold masterTurn at h
  cases hm : s.masters[n]? with
  | none => rw [hm] at h; cases h; exact .inl rfl
  | some m =>
    simp only [hm] at h
    cases hst : m.program[m.pos]? with
    | none => rw [hst] at h; cases h; exact .inl rfl
    | some st =>
      rw [hst] at h
      obtain ⟨m', hp, ht⟩ := hostStmt_next h
      exact .inr ⟨m, m', rfl, hp, ht⟩

/-! ### What a host write leaves alone -/

/-- No host write changes a parameter. -/
theorem memWrite_params (s : State) (size : AccessSize) (off : Offset) (v : Word) :
    (memWrite s size off v).1.params = s.params := by
  rcases memWrite_cases s size off v with ⟨-, e⟩ | ⟨sl, -, -, -, -, e⟩ | ⟨sl, -, -, -, e⟩ <;> rw [e]
  cases sl with
  | operand r i => simp only [writeSlot]; split <;> rfl
  | _ => rfl

/-- While a command runs, a host write sets WIGN, writes IE or clears status bits, and nothing else. -/
theorem memWrite_busy_cases {s : State} (h : s.busy = true) (size : AccessSize) (off : Offset) (v : Word) :
    (memWrite s size off v).1 = s ∨ (memWrite s size off v).1 = { s with wign := true } ∨
      (memWrite s size off v).1 = writeCtrl s v ∨ (memWrite s size off v).1 = clearStatus s v := by
  rcases memWrite_cases s size off v with ⟨-, e⟩ | ⟨sl, -, -, -, -, e⟩ | ⟨sl, -, -, hopen, e⟩ <;> rw [e]
  · exact .inl rfl
  · exact .inr (.inl rfl)
  · have hsl : openWhileBusy sl = true := hopen.resolve_left (by simp [h])
    cases sl with
    | ctrl => exact .inr (.inr (.inl rfl))
    | status => exact .inr (.inr (.inr rfl))
    | _ => cases hsl

/-! ### ATTEMPTS -/

/-- SIGN makes at most MAX_ATTEMPTS attempts (44_ecdsa.md R111). -/
theorem signRun_attempts_le (k : NonceSource) (s : State) : (signRun k s).1 ≤ s.params.maxAttempts := by
  have hpos := s.params.maxAttempts_pos
  cases k with
  | entropy =>
    obtain ⟨j, hj, hn, -⟩ := retryLoop_spec (draw s.fresh (s.num .cq))
      (attemptWith s (reducedDigest (s.num .h) (s.num .cq))) s.params.maxAttempts 0 hpos
    rw [signRun, hn]
    omega
  | registerK =>
    rw [signRun]
    cases attemptWith s (reducedDigest (s.num .h) (s.num .cq)) (s.num .k) <;> exact hpos

/-- ATTEMPTS holds any number of attempts that SIGN can make, exactly (10_state.md R18). -/
theorem toNat_setAttempts {s : State} {n : Nat} (h : n ≤ s.params.maxAttempts) :
    (s.setAttempts n).attempts.toNat = n := by
  have := s.params.maxAttempts_le
  rw [State.setAttempts_attempts, BitVec.toNat_ofNat, Nat.mod_eq_of_lt (by omega)]

/-- What SIGN leaves in ATTEMPTS: the number of its attempts, or 0 where a check failed (44_ecdsa.md R111). -/
theorem exec_sign_attempts {k : NonceSource} {s t : State} (h : exec (.sign k) s = .next t) :
    t.attempts = 0 ∨ t.attempts = BitVec.ofNat 16 (signRun k s).1 := by
  simp only [exec, execSign] at h
  split at h <;> [skip; split at h] <;> cases h
  · exact .inl rfl
  · exact .inr rfl
  · exact .inr rfl

/-- Every command but SIGN keeps ATTEMPTS, and SIGN counts to MAX_ATTEMPTS at most. -/
theorem exec_attempts_le {i : Instr} {s t : State} (h : exec i s = .next t)
    (hs : s.attempts.toNat ≤ s.params.maxAttempts) : t.attempts.toNat ≤ s.params.maxAttempts := by
  obtain ⟨-, -, -, -, -, hkeep⟩ := exec_onlyWrites h
  cases i with
  | sign k =>
    rcases exec_sign_attempts h with e | e <;> rw [e]
    · exact Nat.zero_le _
    · have hle := signRun_attempts_le k s
      rw [← State.setAttempts_attempts s, toNat_setAttempts hle]
      exact hle
  | _ => rw [hkeep (by simp [writeParts])]; exact hs

theorem exec_params {i : Instr} {s t : State} (h : exec i s = .next t) : t.params = s.params := by
  obtain ⟨⟨hparams, -⟩, -⟩ := exec_onlyWrites h
  exact hparams

/-! ### The invariant, in its two halves -/

/-- The core's half of the invariant: STATUS, ERRCODE and ATTEMPTS. -/
def CoreInv (s : State) : Prop :=
  (s.busy = true → s.done = false ∧ s.err = false ∧ s.result = false ∧ s.errcode = .noError) ∧
    (s.err = true → s.errcode ≠ .noError) ∧ (s.result = true → s.errcode = .noError) ∧
    s.attempts.toNat ≤ s.params.maxAttempts

/-- The masters' half of the invariant: bound temporaries are in their one order. -/
def TempsOrdered (s : State) : Prop := ∀ m ∈ s.masters, m.temps.Pairwise fun x y => x.1 < y.1

theorem inv_iff {s : State} : Safety.Inv s ↔ CoreInv s ∧ TempsOrdered s := by
  simp only [Safety.Inv, CoreInv, TempsOrdered, and_assoc]

/-- Every completion meets the core's half (60_exceptions.md R122). -/
theorem coreInv_complete {s : State} (c : ErrCode) (v : Bool) (h : s.attempts.toNat ≤ s.params.maxAttempts) :
    CoreInv (complete c v s) :=
  ⟨nofun, by simp, by simp, h⟩

/-- Acceptance clears what the core's half speaks of (60_exceptions.md R121). -/
theorem coreInv_accept {s : State} (h : CoreInv s) (w : Word) : CoreInv (accept w s) := by
  obtain ⟨-, -, -, hatt⟩ := h
  exact ⟨fun _ => ⟨rfl, rfl, rfl, rfl⟩, nofun, nofun, hatt⟩

/-- Clearing status bits keeps the core's half. -/
theorem coreInv_clearStatus {s : State} (h : CoreInv s) (w : Word) : CoreInv (clearStatus s w) := by
  obtain ⟨hbusy, herr, hresult, hatt⟩ := h
  refine ⟨fun hb => ?_, fun he => herr (Bool.and_elim_left he), hresult, hatt⟩
  obtain ⟨hd, he, hr, hc⟩ := hbusy hb
  exact ⟨by simp [hd], by simp [he], hr, hc⟩

/-- An operation that keeps STATUS, ERRCODE, ATTEMPTS and the parameters keeps the core's half. -/
theorem coreInv_writeSlot {s : State} (h : CoreInv s) (sl : Slot) (v : Word) : CoreInv (writeSlot s sl v) := by
  cases sl with
  | cmd => exact coreInv_accept h v
  | status => exact coreInv_clearStatus h v
  | operand r i => simp only [writeSlot]; split <;> exact h
  | id | ctrl | errcode | attempts | cfg | pflags | lane | buf | digest => exact h

theorem coreInv_memWrite {s : State} (h : CoreInv s) (size : AccessSize) (off : Offset) (v : Word) :
    CoreInv (memWrite s size off v).1 := by
  rcases memWrite_cases s size off v with ⟨-, e⟩ | ⟨sl, -, -, -, -, e⟩ | ⟨sl, -, -, -, e⟩ <;> rw [e]
  · exact h
  · exact h
  · exact coreInv_writeSlot h sl v

/-- The completion of a command word leaves the core's half behind, legal word or not. -/
theorem coreInv_runWord {w : Word} {s t : State} (hs : CoreInv s) (h : runWord w s = .next t) : CoreInv t := by
  obtain ⟨-, -, -, hatt⟩ := hs
  have hle : t.attempts.toNat ≤ t.params.maxAttempts := by
    cases hd : decode w with
    | ok i => rw [runWord_of_decode hd] at h; rw [exec_params h]; exact exec_attempts_le h hatt
    | error e => rw [runWord, hd] at h; cases h; exact hatt
  obtain ⟨c, v, u, hu⟩ := runWord_is_completion w s
  obtain rfl : complete c v u = t := by rw [hu] at h; exact Host.Outcome.next.inj h
  exact coreInv_complete c v hle

theorem coreInv_resetCore (s : State) : CoreInv (resetCore s) := ⟨nofun, nofun, nofun, Nat.zero_le _⟩

/-- A master that progresses keeps the masters' half. -/
theorem TempsOrdered.setMaster {s u : State} {n : Nat} {m m' : Master} (h : TempsOrdered s)
    (hm : s.masters[n]? = some m) (hp : Progress m m') (hu : u.masters = s.masters) :
    TempsOrdered (u.setMaster n m') := by
  intro x hx
  rw [State.setMaster_masters, hu] at hx
  rcases List.mem_or_eq_of_mem_set hx with hx | rfl
  · exact h x hx
  · exact hp.2 (h m (List.mem_of_getElem? hm))

/-- A bus master's turn keeps the invariant. -/
theorem inv_masterTurn {s t : State} {n : Nat} (hs : Safety.Inv s) (h : masterTurn n s = .next t) : Safety.Inv t := by
  rw [inv_iff] at hs ⊢
  obtain ⟨hcore, htemps⟩ := hs
  rcases masterTurn_next h with rfl | ⟨m, m', hm, hp, rfl | ⟨size, off, v, rfl⟩⟩
  · exact ⟨hcore, htemps⟩
  · exact ⟨hcore, htemps.setMaster hm hp rfl⟩
  · exact ⟨coreInv_memWrite hcore size off v, htemps.setMaster hm hp (memWrite_agents s size off v).1⟩

/-- The engine's turn keeps the invariant. -/
theorem inv_engineTurn {s t : State} (hs : Safety.Inv s) (h : engineTurn s = .next t) : Safety.Inv t := by
  rw [inv_iff] at hs ⊢
  obtain ⟨hcore, htemps⟩ := hs
  cases hr : s.running with
  | none => rw [engineTurn_of_idle hr] at h; cases h; exact ⟨hcore, htemps⟩
  | some w =>
    rw [engineTurn_of_running hr] at h
    refine ⟨coreInv_runWord hcore h, ?_⟩
    rw [TempsOrdered, (runWord_agents h).1]
    exact htemps

end Sys2Proof.Machine
end

section
/-! The statements about steps, the lifecycle's invariant and the parameters. -/

namespace Sys2Proof.Proofs

open Sys2Proof.Machine Sys2Proof.Safety

/-- Settles O30: each agent's turn keeps the invariant, and a reset restores its core half. -/
theorem invariantIsKept : Obligations.InvariantIsKept := by
  unfold Obligations.InvariantIsKept
  intro s t hs h
  have htake : Safety.Inv (takeTurn s) := hs
  cases hn : nextTurn s with
  | master n => rw [step_of_nextTurn_eq_master hn] at h; exact inv_masterTurn htake h
  | engine => rw [step_of_nextTurn_eq_engine hn] at h; exact inv_engineTurn htake h
  | reset =>
    rw [step_of_nextTurn_eq_reset hn] at h
    cases h
    exact inv_iff.2 ⟨coreInv_resetCore _, (inv_iff.1 htake).2⟩

/-- Settles O29: the core's half is that of any reset, and no master is placed. -/
theorem invariantAtReset : Obligations.InvariantAtReset := by
  unfold Obligations.InvariantAtReset
  exact inv_iff.2 ⟨coreInv_resetCore State.reset, nofun⟩

/-- Settles O8: a master's turn progresses a master, alone or with a write, which a busy core lets at WIGN, IE, DONE and
ERR only. -/
theorem operandsAreFrozenWhileBusy : Obligations.OperandsAreFrozenWhileBusy := by
  unfold Obligations.OperandsAreFrozenWhileBusy
  intro s t n hb hn h
  rw [step_of_nextTurn_eq_master hn] at h
  rcases masterTurn_next h with rfl | ⟨m, m', -, -, rfl | ⟨size, off, v, rfl⟩⟩
  · exact ⟨rfl, rfl, rfl, rfl, rfl, rfl, rfl, rfl, rfl, rfl, rfl, rfl⟩
  · exact ⟨rfl, rfl, rfl, rfl, rfl, rfl, rfl, rfl, rfl, rfl, rfl, rfl⟩
  · have hbusy : (takeTurn s).busy = true := hb
    rcases memWrite_busy_cases hbusy size off v with e | e | e | e <;> rw [e] <;>
      exact ⟨rfl, rfl, rfl, rfl, rfl, rfl, rfl, rfl, rfl, rfl, rfl, rfl⟩

/-- Settles O9: every way a command can complete (`exec_completes`) is a completion, with a verdict for VERIFY only. -/
theorem everyCommandCompletes : Obligations.EveryCommandCompletes := by
  unfold Obligations.EveryCommandCompletes
  intro i s
  obtain ⟨c, v, u, h⟩ := exec_is_completion i s
  refine ⟨_, h, ⟨rfl, rfl, rfl, rfl, rfl⟩, fun hr => ⟨?_, ?_⟩⟩
  · generalize complete c v u = t at h hr
    cases exec_completes h with
    | raised c => cases hr
    | signRaised k c n hi => cases hr
    | succeeded v u hu hv => exact hv (Bool.and_elim_left hr)
  · exact of_decide_eq_true (Bool.and_elim_right hr)

/-- Settles O31: no agent's turn writes the parameters, and CFG and ID show them and a constant. -/
theorem parametersNeverChange : Obligations.ParametersNeverChange := by
  unfold Obligations.ParametersNeverChange
  intro s t h
  have hparams : t.params = s.params := by
    rcases step_next_cases h with rfl | ⟨w, -, -, h⟩ | ⟨-, rfl⟩ | ⟨n, m, -, rfl⟩ | ⟨n, m, size, off, v, -, rfl⟩
    · rfl
    · cases hd : decode w with
      | ok i => rw [runWord_of_decode hd] at h; rw [exec_params h, takeTurn_params]
      | error e => rw [runWord, hd] at h; cases h; rfl
    · rfl
    · rfl
    · exact memWrite_params _ size off v
  exact ⟨hparams, by simp only [slotWord, cfgWord, hparams], rfl⟩

/-- Settles O5: the engine's turn performs the latched word, which `withFetchWord` latches with that turn next. -/
theorem stepRunsTheLatchedCommand : Obligations.StepRunsTheLatchedCommand := by
  unfold Obligations.StepRunsTheLatchedCommand
  refine ⟨fun s w i hn hw hd => ?_, fun s hn hr => ?_, fun s w i hw hd => ?_⟩
  · rw [step_of_nextTurn_eq_engine hn, engineTurn_of_running (s := takeTurn s) hw, runWord_of_decode hd]
  · rw [step_of_nextTurn_eq_engine hn, engineTurn_of_idle (s := takeTurn s) hr]
  · rw [State.withFetchWord, Nat.mod_eq_of_lt hw, step_of_nextTurn_eq_engine rfl,
      engineTurn_of_running (s := takeTurn { accept (BitVec.ofNat 32 w) s with turns := .engine :: s.turns }) rfl,
      runWord_of_decode hd]
    rfl

/-- Settles O26: on its turn the master performs the read, whose answer it gets and whose data it may bind. -/
theorem readsHaveNoSideEffect : Obligations.ReadsHaveNoSideEffect := by
  unfold Obligations.ReadsHaveNoSideEffect
  intro s n m size off dst hn hm hst
  have hturn := masterTurn_eq_hostStmt (s := takeTurn s) hm hst
  refine ⟨m.afterRead dst (memRead (takeTurn s) size off), ?_, ?_, ?_, ?_⟩
  · cases dst <;> rfl
  · cases dst <;> rfl
  · cases dst <;> rfl
  · rw [step_of_nextTurn_eq_master hn, hturn]
    rfl

/-- Settles O23: STATUS takes the write, busy or idle. -/
theorem statusIsWriteOneToClear : Obligations.StatusIsWriteOneToClear := by
  unfold Obligations.StatusIsWriteOneToClear
  intro s w
  exact ⟨clearStatus s w, memWrite_of_openWhileBusy (sl := .status) rfl s w, rfl, rfl, rfl, rfl⟩

end Sys2Proof.Proofs
end

section
/-! SUPPORT. Write sets as sets of slots, reads at a known slot, and the words of lanes, BUF and DIGEST. -/

namespace Sys2Proof.Machine

open Sys2Proof.Safety

/-! ### The two forms of a command's write set (20_memory.md R48) -/

theorem reg_mem_writeParts {i : Instr} {r : OpReg} : .reg r ∈ writeParts i ↔ writesReg i r = true := by
  cases i <;> simp [writeParts, writesReg]

theorem rinf_mem_writeParts {i : Instr} : .rinf ∈ writeParts i ↔ writesSlot i .pflags = true := by
  cases i <;> simp [writeParts, writesSlot]

theorem lanes_mem_writeParts {i : Instr} (l : Fin 25) (j : Fin 2) :
    .lanes ∈ writeParts i ↔ writesSlot i (.lane l j) = true := by
  cases i <;> simp [writeParts, writesSlot]

theorem digest_mem_writeParts {i : Instr} (w : Fin 8) : .digest ∈ writeParts i ↔ writesSlot i (.digest w) = true := by
  cases i <;> simp [writeParts, writesSlot]

theorem attempts_mem_writeParts {i : Instr} : .attempts ∈ writeParts i ↔ writesSlot i .attempts = true := by
  cases i <;> simp [writeParts, writesSlot]

/-- A slot that the frame does not hold reads as before, but for STATUS and ERRCODE, which every frame leaves open. -/
theorem slotWord_of_onlyWrites {i : Instr} {s t : State} {sl : Slot} (h : OnlyWrites s t (writeParts i))
    (hsl : writesSlot i sl = false) (hstatus : sl ≠ .status) (herr : sl ≠ .errcode) :
    slotWord t sl = slotWord s sl := by
  obtain ⟨⟨hparams, hie, -, hp1, hp2, hbuf, -⟩, hreg, hrinf, hlanes, hdigest, hatt⟩ := h
  rw [← Bool.not_eq_true] at hsl
  cases sl with
  | id | cmd => rfl
  | status => exact absurd rfl hstatus
  | errcode => exact absurd rfl herr
  | ctrl => simp only [slotWord, ctrlWord, hie]
  | cfg => simp only [slotWord, cfgWord, hparams]
  | attempts => simp only [slotWord, attemptsWord, hatt (mt attempts_mem_writeParts.1 hsl)]
  | pflags => simp only [slotWord, pflagsWord, hp1, hp2, hrinf (mt rinf_mem_writeParts.1 hsl)]
  | operand r j => simp only [slotWord, hreg r (mt reg_mem_writeParts.1 hsl)]
  | lane l j => simp only [slotWord, hlanes (mt (lanes_mem_writeParts l j).1 hsl)]
  | buf w => simp only [slotWord, hbuf]
  | digest w => simp only [slotWord, hdigest (mt (digest_mem_writeParts w).1 hsl)]

/-! ### Host accesses to a served offset -/

/-- A read outside the running command's write set answers the slot's word, busy or idle (20_memory.md R36, R48). -/
theorem memRead_of_not_inWriteSet {s : State} {off : Offset} {sl : Slot} (hs : slotAt off = some sl)
    (h : inWriteSet s sl = false) : memRead s .b32 off = ⟨slotWord s sl, .okay⟩ := by
  simp [memRead, hs, h, busOkay]

/-- A slot that no command writes is in no running command's write set. -/
theorem inWriteSet_eq_false {s : State} {sl : Slot}
    (h : ∀ w i, s.running = some w → decode w = .ok i → writesSlot i sl = false) : inWriteSet s sl = false := by
  unfold inWriteSet
  split
  · rfl
  · next w hw =>
    split
    · next i hd => exact h w i hw hd
    · rfl

/-- A 32-bit access at a slot is answered OKAY (20_memory.md R36, R37). -/
theorem resp_of_slotAt {off : Offset} {sl : Slot} (hs : slotAt off = some sl) (s : State) (v : Word) :
    (memRead s .b32 off).resp = .okay ∧ (memWrite s .b32 off v).2.resp = .okay := by
  simp only [memRead, memWrite, hs]
  exact ⟨rfl, by split <;> rfl⟩

/-- The host address of an offset lies in the window, at that offset (20_memory.md R33). -/
theorem windowOffset_hostAddress (off : Offset) : windowOffset (hostAddress off) = some off := by
  have := off.isLt
  rw [windowOffset, hostAddress, if_pos (by omega), Nat.add_sub_cancel_left, BitVec.ofNat_toNat, BitVec.setWidth_eq]

/-! ### The private scalar (10_state.md R23) -/

/-- D is in no command's write set (20_memory.md R48). -/
theorem writesReg_d (i : Instr) : writesReg i .d = false := by cases i <;> rfl

/-- No slot's word depends on D. -/
theorem slotWord_setReg_d (s : State) (v : U256) (sl : Slot) : slotWord (s.setReg .d v) sl = slotWord s sl := by
  cases sl with
  | operand r i =>
    by_cases hr : r = .d
    · simp [slotWord, hr]
    · simp only [slotWord, State.reg_setReg_of_ne s v hr]
  | _ => rfl

/-! ### The words of a lane (20_memory.md R41) -/

theorem offsetOf_lane {x y : Nat} (hx : x < 5) (hy : y < 5) (i : Fin 2) :
    offsetOf (0x400 + 8 * (x + 5 * y) + 4 * i.val) = Slot.off (.lane (laneIndex x y) i) := by
  rw [Slot.off, slotOffset, laneIndex_val, Nat.mod_eq_of_lt hx, Nat.mod_eq_of_lt hy, offsetOf]

/-- A write to a word of a lane replaces that word of that lane. -/
theorem writeSlot_lane (s : State) (x y : Nat) (i : Fin 2) (v : Word) :
    writeSlot s (.lane (laneIndex x y) i) v =
      { s with lanes := putLane s.lanes x y (putWord (laneAt s.lanes x y) i v) } := rfl

/-! ### The words of BUF and DIGEST (20_memory.md R42, R43) -/

theorem busWord_eq_ofNat (b0 b1 b2 b3 : Byte) : busWord b0 b1 b2 b3 =
    BitVec.ofNat 32 (b0.toNat + b1.toNat * 2 ^ 8 + b2.toNat * 2 ^ 16 + b3.toNat * 2 ^ 24) := by
  rw [← toNat_busWord, BitVec.ofNat_toNat, BitVec.setWidth_eq]

theorem busByte_eq_ofNat (v : Word) (k : Nat) : busByte v k = BitVec.ofNat 8 (v.toNat / 2 ^ (8 * k)) := by
  apply BitVec.eq_of_toNat_eq
  rw [toNat_busByte, BitVec.toNat_ofNat]

/-- BUF after a write to its word w: byte i of BUF is byte i mod 4 of the word, if it lies in that word. -/
theorem getElem_putBufWord (b : Vector Byte 136) (w : Fin 34) (v : Word) (i : Nat) (hi : i < 136) :
    (putBufWord b w v)[i] = if i / 4 = w.val then busByte v (i % 4) else b[i] := by
  simp only [putBufWord, Vector.getElem_set]
  by_cases hw : i / 4 = w.val
  · have hcases : i % 4 = 0 ∨ i % 4 = 1 ∨ i % 4 = 2 ∨ i % 4 = 3 := by omega
    rcases hcases with h | h | h | h <;> rw [if_pos hw, h]
    · rw [if_neg (by omega), if_neg (by omega), if_neg (by omega), if_pos (by omega)]
    · rw [if_neg (by omega), if_neg (by omega), if_pos (by omega)]
    · rw [if_neg (by omega), if_pos (by omega)]
    · rw [if_pos (by omega)]
  · rw [if_neg hw, if_neg (by omega), if_neg (by omega), if_neg (by omega), if_neg (by omega)]

end Sys2Proof.Machine
end

section
/-! The statements about the window and the commands' write sets. -/

namespace Sys2Proof.Proofs

open Sys2Proof.Machine Sys2Proof.Safety

/-- Settles O12: the frame of the command's parts, read through the slots. -/
theorem commandsChangeOnlyTheirWriteSet : Obligations.CommandsChangeOnlyTheirWriteSet := by
  unfold Obligations.CommandsChangeOnlyTheirWriteSet
  intro i s t h
  have hframe := exec_onlyWrites h
  exact ⟨hframe, fun sl hsl hstatus herr => slotWord_of_onlyWrites hframe hsl hstatus herr⟩

/-- Settles O17: a slot stands at its own offset only, and one stands at every served offset. -/
theorem windowMapIsOneToOne : Obligations.WindowMapIsOneToOne := by
  unfold Obligations.WindowMapIsOneToOne
  refine ⟨slotAt_off, fun off sl => toNat_of_slotAt, fun off => slotAt_eq_none_iff, fun s off v hserved => ?_,
    windowOffset_hostAddress⟩
  obtain ⟨sl, hs⟩ := exists_slotAt hserved
  exact resp_of_slotAt hs s v

/-- Settles O19: D is in no write set and its words read 0, so that only a read inside one could depend on it. -/
theorem privateScalarIsNotReadable : Obligations.PrivateScalarIsNotReadable := by
  unfold Obligations.PrivateScalarIsNotReadable
  refine ⟨fun s i hi => ?_, fun s v size off hopen => ?_⟩
  · exact memRead_of_not_inWriteSet (slotAt_off (.operand .d ⟨i, hi⟩)) (inWriteSet_eq_false fun _ j _ _ => writesReg_d j)
  · rcases memRead_cases s size off with ⟨hbad, e⟩ | ⟨sl, rfl, hs, hb, hin, -⟩ | ⟨sl, rfl, hs, hout, e⟩
    · rw [e, memRead_eq_busError hbad]
    · rcases hopen with hidle | hnot
      · rw [hidle] at hb; cases hb
      · rw [inWriteSet_eq_false fun w i => hnot sl w i hs] at hin; cases hin
    · have hpass : ((s.setReg .d v).busy && inWriteSet (s.setReg .d v) sl) = false :=
        Bool.and_eq_false_iff.2 hout
      rw [e]
      simp only [memRead, hs, hpass, slotWord_setReg_d]
      rfl

/-- Settles O20: the offset is that of the slot of the lane's word, whose read is `getWord` and whose write is
`putWord`. -/
theorem laneLayout : Obligations.LaneLayout := by
  unfold Obligations.LaneLayout
  intro s x y hi v hx hy hhi hb
  rw [offsetOf_lane hx hy ⟨hi, hhi⟩]
  refine ⟨memRead_off_of_idle hb (.lane (laneIndex x y) ⟨hi, hhi⟩), _, memWrite_of_idle (slotAt_off _) hb v, ?_⟩
  rw [writeSlot_lane]
  refine ⟨?_, ?_, fun x' y' hx' hy' hne => ?_, rfl⟩ <;> rw [laneAt_putLane]
  · rw [if_pos ⟨rfl, rfl⟩]
    exact getWord_putWord_self _ hi v (by omega)
  · rw [if_pos ⟨rfl, rfl⟩]
    exact getWord_putWord_of_ne (i := hi) _ v (by omega) (by omega)
  · rw [Nat.mod_eq_of_lt hx, Nat.mod_eq_of_lt hy, Nat.mod_eq_of_lt hx', Nat.mod_eq_of_lt hy', if_neg]
    rintro ⟨rfl, rfl⟩
    exact hne rfl

/-- Settles O21: the offset is that of the slot of BUF's word, which packs and stores four bytes. -/
theorem bufferByteLayout : Obligations.BufferByteLayout := by
  unfold Obligations.BufferByteLayout
  intro s w v hw hb
  rw [show offsetOf (0x500 + 4 * w) = Slot.off (.buf ⟨w, hw⟩) from rfl]
  refine ⟨?_, _, memWrite_of_idle (slotAt_off _) hb v, fun i hi => ?_, rfl⟩
  · rw [memRead_off_of_idle hb, ← busWord_eq_ofNat]
    rfl
  · rw [← busByte_eq_ofNat]
    exact getElem_putBufWord s.buf ⟨w, hw⟩ v i hi

/-- Settles O25: STATUS and ERRCODE are in no write set, and the invariant says what they hold while BUSY = 1. -/
theorem readsWhileBusy : Obligations.ReadsWhileBusy := by
  unfold Obligations.ReadsWhileBusy
  intro s hs hb
  obtain ⟨hbusy, -⟩ := hs
  obtain ⟨hdone, herr, hresult, hcode⟩ := hbusy hb
  refine ⟨?_, ?_, fun off sl w hsl hw hout => ?_⟩
  · rw [show offsetOf 0x008 = Slot.status.off from rfl,
      memRead_of_not_inWriteSet (slotAt_off .status) (inWriteSet_eq_false fun _ _ _ _ => rfl)]
    simp only [slotWord, statusWord_eq, hb, hdone, herr, hresult]
    cases s.wign <;> rfl
  · rw [show offsetOf 0x010 = Slot.errcode.off from rfl,
      memRead_of_not_inWriteSet (slotAt_off .errcode) (inWriteSet_eq_false fun _ _ _ _ => rfl)]
    simp only [slotWord, errcodeWord, hcode]
    rfl
  · refine memRead_of_not_inWriteSet hsl (inWriteSet_eq_false fun w' i hw' hd => hout i ?_)
    rw [hw] at hw'
    cases hw'
    exact hd

end Sys2Proof.Proofs
end

section
/-! SUPPORT. Quotients mod p, and point addition case by case (41_ecc.md R76, R77). -/

namespace Sys2Proof.Machine

open Sys2Proof.Safety

/-! ### Quotients mod m (40_modular.md R68) -/

/-- A number and its residue have the same common divisors with the modulus. -/
theorem gcd_eq_one_iff_of_modEq {u m : Nat} {d : Int} (h : (u : Int) ≡ d [ZMOD m]) :
    Int.gcd d m = 1 ↔ Nat.gcd u m = 1 := by
  obtain ⟨k, hk⟩ := (Int.modEq_iff_dvd).1 h
  rw [← Int.gcd_natCast_natCast, ← Int.isCoprime_iff_gcd_eq_one, ← Int.isCoprime_iff_gcd_eq_one,
    show d = u + m * k by omega, IsCoprime.add_mul_left_left_iff]

/-- Where d has an inverse mod m, `finv` finds it, and n times it is the quotient n / d mod m. -/
theorem exists_quotient {u m : Nat} {d : Int} (hm : 1 ≤ m) (hu : (u : Int) ≡ d [ZMOD m]) (hd : Int.gcd d m = 1)
    (n : Nat) : ∃ v, finv u m = .ok v ∧ (fmul n v m : Int) * d ≡ n [ZMOD m] := by
  obtain ⟨v, hv, -, hinv⟩ := finv_ok hm ((gcd_eq_one_iff_of_modEq hu).1 hd)
  refine ⟨v, hv, ?_⟩
  have hone : (u * v : Int) ≡ 1 [ZMOD m] := by exact_mod_cast (Int.natCast_modEq_iff).2 hinv
  calc (fmul n v m : Int) * d
      ≡ n * v * u [ZMOD m] := (fmul_modEq n v m).mul hu.symm
    _ = n * (u * v) := by ring
    _ ≡ n * 1 [ZMOD m] := hone.mul_left _
    _ = n := mul_one _

/-- Elsewhere `finv` raises NOT_INVERTIBLE. -/
theorem finv_error_of_modEq {u m : Nat} {d : Int} (hu : (u : Int) ≡ d [ZMOD m]) (hd : Int.gcd d m ≠ 1) :
    finv u m = .error .notInvertible :=
  finv_error (mt (gcd_eq_one_iff_of_modEq hu).2 hd)

/-! ### The sum from a slope (41_ecc.md R76, its last two lines) -/

/-- The sum from a slope is the third point of that line, mirrored. -/
theorem exists_sumFromSlope {p : Nat} (hp : 1 ≤ p) (lam x1 y1 x2 : Nat) :
    ∃ rx ry, sumFromSlope p lam x1 y1 x2 = .affine rx ry ∧ IsSumBy p lam x1 y1 x2 rx ry := by
  refine ⟨_, _, rfl, fsub_lt _ _ hp, fsub_lt _ _ hp, ?_, ?_⟩
  · exact (fsub_modEq _ _ hp).trans
      (((fsub_modEq _ _ hp).trans ((fmul_modEq _ _ _).sub rfl)).sub rfl)
  · exact (fsub_modEq _ _ hp).trans
      (((fmul_modEq _ _ _).trans ((fsub_modEq _ _ hp).mul_left _)).sub rfl)

/-- The third point is determined by the residue of the slope. -/
theorem isSumBy_unique {p x1 y1 x2 rx ry x1' y1' x2' rx' ry' : Nat} {lam lam' : Int}
    (h : IsSumBy p lam x1 y1 x2 rx ry) (h' : IsSumBy p lam' x1' y1' x2' rx' ry')
    (hx : lam * lam - x1 - x2 ≡ lam' * lam' - x1' - x2' [ZMOD p])
    (hy : ∀ r : Int, lam * (x1 - r) - y1 ≡ lam' * (x1' - r) - y1' [ZMOD p]) : rx = rx' ∧ ry = ry' := by
  obtain ⟨hrx, hry, hxs, hys⟩ := h
  obtain ⟨hrx', hry', hxs', hys'⟩ := h'
  have hxx : (rx : Int) ≡ rx' [ZMOD p] := hxs.trans (hx.trans hxs'.symm)
  have hyy : (ry : Int) ≡ ry' [ZMOD p] :=
    hys.trans ((hy rx).trans (((hxx.neg.add_left _).mul_left _ |>.sub rfl).trans hys'.symm))
  exact ⟨Nat.ModEq.eq_of_lt_of_lt ((Int.natCast_modEq_iff).1 hxx) hrx hrx',
    Nat.ModEq.eq_of_lt_of_lt ((Int.natCast_modEq_iff).1 hyy) hry hry'⟩

/-! ### Point addition, case by case -/

section
variable {p a x1 y1 x2 y2 : Nat}

/-- Inverse points add up to O. -/
theorem pointAdd_opposite (h : (y1 + y2) % p = 0) : pointAdd p a (.affine x1 y1) (.affine x1 y2) = .ok .infinity := by
  simp [pointAdd, h]

/-- Different abscissas, with an invertible difference: the chord. -/
theorem pointAdd_chord (hp : 1 ≤ p) (hx : x1 ≠ x2) (hd : Int.gcd ((x2 : Int) - x1) p = 1) :
    ∃ (lam : Int) (rx ry : Nat), pointAdd p a (.affine x1 y1) (.affine x2 y2) = .ok (.affine rx ry) ∧
      lam * ((x2 : Int) - x1) ≡ (y2 : Int) - y1 [ZMOD p] ∧ IsSumBy p lam x1 y1 x2 rx ry := by
  obtain ⟨v, hv, hlam⟩ := exists_quotient hp (fsub_modEq x2 x1 hp) hd (fsub y2 y1 p)
  obtain ⟨rx, ry, hsum, hby⟩ := exists_sumFromSlope hp (fmul (fsub y2 y1 p) v p) x1 y1 x2
  refine ⟨_, rx, ry, ?_, hlam.trans (fsub_modEq y2 y1 hp), hby⟩
  simp [pointAdd, hx, hv, hsum, bind, Except.bind]

/-- Different abscissas, whose difference has no inverse. -/
theorem pointAdd_chord_error (hp : 1 ≤ p) (hx : x1 ≠ x2) (hd : Int.gcd ((x2 : Int) - x1) p ≠ 1) :
    pointAdd p a (.affine x1 y1) (.affine x2 y2) = .error .notInvertible := by
  simp [pointAdd, hx, finv_error_of_modEq (fsub_modEq x2 x1 hp) hd, bind, Except.bind]

/-- A point twice, with 2y invertible: the tangent. -/
theorem pointAdd_tangent (hp : 1 ≤ p) (hy : (y1 + y1) % p ≠ 0) (hd : Nat.gcd (2 * y1) p = 1) :
    ∃ (lam : Int) (rx ry : Nat), pointAdd p a (.affine x1 y1) (.affine x1 y1) = .ok (.affine rx ry) ∧
      lam * (2 * y1) ≡ 3 * (x1 * x1) + a [ZMOD p] ∧ IsSumBy p lam x1 y1 x1 rx ry := by
  have hgcd : Int.gcd (2 * (y1 : Int)) p = 1 := by exact_mod_cast hd
  obtain ⟨v, hv, hlam⟩ := exists_quotient hp (fmul_modEq 2 y1 p) hgcd (fadd (fmul 3 (fmul x1 x1 p) p) a p)
  obtain ⟨rx, ry, hsum, hby⟩ := exists_sumFromSlope hp (fmul (fadd (fmul 3 (fmul x1 x1 p) p) a p) v p) x1 y1 x1
  have hnum : (fadd (fmul 3 (fmul x1 x1 p) p) a p : Int) ≡ 3 * (x1 * x1) + a [ZMOD p] :=
    (fadd_modEq _ _ _).trans (((fmul_modEq _ _ _).trans ((fmul_modEq _ _ _).mul_left _)).add_right _)
  refine ⟨_, rx, ry, ?_, hlam.trans hnum, hby⟩
  simp [pointAdd, hy, hv, hsum, bind, Except.bind]

/-- A point twice, where 2y has no inverse. -/
theorem pointAdd_tangent_error (hy : (y1 + y1) % p ≠ 0) (hd : Nat.gcd (2 * y1) p ≠ 1) :
    pointAdd p a (.affine x1 y1) (.affine x1 y1) = .error .notInvertible := by
  have hgcd : Int.gcd (2 * (y1 : Int)) p ≠ 1 := by exact_mod_cast hd
  simp [pointAdd, hy, finv_error_of_modEq (fmul_modEq 2 y1 p) hgcd, bind, Except.bind]

/-- The case of R77: one abscissa, but neither the same point nor inverse points. -/
theorem pointAdd_uncovered (hy : (y1 + y2) % p ≠ 0) (hne : y1 ≠ y2) :
    pointAdd p a (.affine x1 y1) (.affine x1 y2) = .error .notInvertible := by
  simp [pointAdd, hy, hne]

/-- The chord is the same from both ends. -/
theorem pointAdd_chord_comm (hp : 1 ≤ p) (hx : x1 ≠ x2) :
    pointAdd p a (.affine x1 y1) (.affine x2 y2) = pointAdd p a (.affine x2 y2) (.affine x1 y1) := by
  have hgcd : Int.gcd ((x1 : Int) - x2) p = Int.gcd ((x2 : Int) - x1) p := by
    rw [← Int.neg_gcd, neg_sub]
  by_cases hd : Int.gcd ((x2 : Int) - x1) p = 1
  case neg => rw [pointAdd_chord_error hp hx hd, pointAdd_chord_error hp hx.symm (hgcd ▸ hd)]
  obtain ⟨lam, rx, ry, hadd, hlam, hby⟩ := pointAdd_chord (a := a) (y1 := y1) (y2 := y2) hp hx hd
  obtain ⟨lam', rx', ry', hadd', hlam', hby'⟩ :=
    pointAdd_chord (a := a) (y1 := y2) (y2 := y1) hp hx.symm (hgcd.trans hd)
  have hslope : (p : Int) ∣ lam' - lam := by
    have hdvd : (p : Int) ∣ (x2 - x1) * (lam' - lam) := by
      have hsub := dvd_add ((Int.modEq_iff_dvd).1 hlam) ((Int.modEq_iff_dvd).1 hlam')
      rwa [show (y2 : Int) - y1 - lam * (x2 - x1) + (y1 - y2 - lam' * (x1 - x2)) = (x2 - x1) * (lam' - lam) by ring]
        at hsub
    exact (Int.isCoprime_iff_gcd_eq_one.2 hd).symm.dvd_of_dvd_mul_left hdvd
  obtain ⟨k, hk⟩ := hslope
  obtain rfl : lam' = lam + p * k := by omega
  obtain ⟨rfl, rfl⟩ : rx = rx' ∧ ry = ry' := by
    refine isSumBy_unique hby hby' ?_ fun r => ?_
    · rw [Int.modEq_iff_dvd]
      exact ⟨k * (2 * lam + p * k), by ring⟩
    · rw [Int.modEq_iff_dvd] at hlam ⊢
      obtain ⟨j, hj⟩ := hlam
      exact ⟨k * (x2 - r) - j, by linear_combination -hj⟩
  rw [hadd, hadd']

/-- ADD is symmetric on all affine operands. -/
theorem pointAdd_comm (hp : 1 ≤ p) (P Q : Point) : pointAdd p a P Q = pointAdd p a Q P := by
  cases P with
  | infinity => simp
  | affine x1 y1 =>
    cases Q with
    | infinity => simp
    | affine x2 y2 =>
      by_cases hx : x1 = x2
      case neg => exact pointAdd_chord_comm hp hx
      subst hx
      by_cases hopp : (y1 + y2) % p = 0
      · rw [pointAdd_opposite hopp, pointAdd_opposite (by rwa [Nat.add_comm])]
      · by_cases hy : y1 = y2
        · rw [hy]
        · rw [pointAdd_uncovered hopp hy, pointAdd_uncovered (by rwa [Nat.add_comm]) (Ne.symm hy)]

end

/-! ### Scalar multiplication (41_ecc.md R82, R83) -/

/-- The loop of R83 over a number with one more binary digit. -/
theorem scalarMulLoop_digit (p a : Nat) (P : Point) {k : Nat} (hk : 1 ≤ k) (b : Bool) :
    scalarMulLoop p a P (2 * k + b.toNat) =
      scalarMulLoop p a P k >>= fun R => pointAdd p a R R >>= fun X => if b then pointAdd p a X P else .ok X := by
  have hb := b.toNat_le
  have hhalf : (2 * k + b.toNat) / 2 = k := by omega
  have hlog : Nat.log2 (2 * k + b.toNat) = Nat.log2 k + 1 := by rw [Nat.log2_def, if_pos (by omega), hhalf]
  have hsucc (i : Nat) : (2 * k + b.toNat).testBit (i + 1) = k.testBit i := by rw [Nat.testBit_add_one, hhalf]
  have hzero : (2 * k + b.toNat).testBit 0 = b := by
    rw [Nat.testBit_zero, Nat.mul_add_mod]
    cases b <;> rfl
  rw [scalarMulLoop, hlog, List.range_succ_eq_map, List.reverse_cons, List.foldlM_append, ← List.map_reverse,
    List.foldlM_map]
  simp only [Nat.succ_eq_add_one, hsucc, List.foldlM_cons, List.foldlM_nil, hzero, bind_pure]
  rfl

/-- The recursion of R82 by the digits of k: both it and the loop take them one by one. -/
theorem scalarMul_digit (p a : Nat) (P : Point) {k : Nat} (hk : 1 ≤ k) (b : Bool) :
    scalarMul p a P (2 * k + b.toNat) =
      scalarMul p a P k >>= fun R => pointAdd p a R R >>= fun X => if b then pointAdd p a X P else .ok X := by
  cases b with
  | false =>
    rw [Bool.toNat_false, Nat.add_zero, scalarMul_even p a P hk]
    exact (bind_pure ((scalarMul p a P k).bind fun X => pointAdd p a X X)).symm.trans (bind_assoc (scalarMul p a P k) ..)
  | true =>
    rw [Bool.toNat_true, scalarMul_odd p a P hk, scalarMul_even p a P hk]
    exact bind_assoc (scalarMul p a P k) (fun X => pointAdd p a X X) fun X => pointAdd p a X P

/-- A number from 2 on is one from 1 on with a binary digit after it. -/
theorem exists_digit {k : Nat} (hk : 2 ≤ k) : ∃ n, ∃ b : Bool, 1 ≤ n ∧ n < k ∧ k = 2 * n + b.toNat := by
  refine ⟨k / 2, decide (k % 2 = 1), by omega, by omega, ?_⟩
  have := Nat.mod_two_eq_zero_or_one k
  by_cases h : k % 2 = 1 <;> simp [h] <;> omega

theorem scalarMul_eq_loop (p a : Nat) (P : Point) {k : Nat} (hk : 1 ≤ k) :
    scalarMul p a P k = scalarMulLoop p a P k := by
  induction k using Nat.strong_induction_on with
  | _ k ih =>
    by_cases h1 : k = 1
    · subst h1; rfl
    · obtain ⟨n, b, hn, hlt, rfl⟩ := exists_digit (show 2 ≤ k by omega)
      rw [scalarMul_digit p a P hn, scalarMulLoop_digit p a P hn, ih n hlt hn]

/-- A scalar multiple of a valid point, where there is one, is a valid point. -/
theorem scalarMul_valid {p a : Nat} {P R : Point} {k : Nat} (hp : 3 ≤ p) (hP : checkPoint p P = .ok ()) (hk : 1 ≤ k)
    (h : scalarMul p a P k = .ok R) : checkPoint p R = .ok () := by
  induction k using Nat.strong_induction_on generalizing R with
  | _ k ih =>
    by_cases h1 : k = 1
    · subst h1; cases h; exact hP
    · obtain ⟨n, b, hn, hlt, rfl⟩ := exists_digit (show 2 ≤ k by omega)
      rw [scalarMul_digit p a P hn] at h
      cases hX : scalarMul p a P n with
      | error e => rw [hX] at h; cases h
      | ok X =>
        have hXv := ih n hlt hn hX
        cases hY : pointAdd p a X X with
        | error e => simp [hX, hY, bind, Except.bind] at h
        | ok Y =>
          have hYv := pointAdd_valid hp hXv hXv hY
          simp only [hX, hY, bind, Except.bind] at h
          split at h
          · exact pointAdd_valid hp hYv hP h
          · cases h; exact hYv

end Sys2Proof.Machine
end

section
/-! SUPPORT. The curve commands: the point each computes, and how its completion follows from that point. -/

namespace Sys2Proof.Machine

open Sys2Proof.Safety

/-! ### The point that each command computes (41_ecc.md R80, R81, R84) -/

/-- The operand point P1 of a curve command (41_ecc.md R75). -/
def State.p1 (s : State) : Point := s.point s.p1inf .p1x .p1y

/-- The operand point P2 (41_ecc.md R75). -/
def State.p2 (s : State) : Point := s.point s.p2inf .p2x .p2y

def paddPoint (s : State) : Except ErrCode Point := do
  checkPrime (s.num .cp)
  checkPoint (s.num .cp) s.p1
  checkPoint (s.num .cp) s.p2
  pointAdd (s.num .cp) (s.num .ca) s.p1 s.p2

def pdblPoint (s : State) : Except ErrCode Point := do
  checkPrime (s.num .cp)
  checkPoint (s.num .cp) s.p1
  pointAdd (s.num .cp) (s.num .ca) s.p1 s.p1

def pmulPoint (s : State) : Except ErrCode Point := do
  checkPrime (s.num .cp)
  checkPoint (s.num .cp) s.p1
  if s.num .a = 0 then .error .scalarZero
  scalarMul (s.num .cp) (s.num .ca) s.p1 (s.num .a)

/-- The command computes the point, or its first error, and writes the point (41_ecc.md R79). -/
def ComputesPoint (i : Instr) (s : State) (o : Except ErrCode Point) : Prop :=
  exec i s = conclude (o >>= fun R => .ok (writeR s R)) s

theorem computesPoint_padd (s : State) : ComputesPoint .padd s (paddPoint s) := by
  simp only [ComputesPoint, paddPoint, bind_assoc]
  rfl

theorem computesPoint_pdbl (s : State) : ComputesPoint .pdbl s (pdblPoint s) := by
  simp only [ComputesPoint, pdblPoint, bind_assoc]
  rfl

theorem computesPoint_pmul (s : State) : ComputesPoint .pmul s (pmulPoint s) := by
  by_cases h0 : s.num .a = 0 <;>
  · simp only [ComputesPoint, pmulPoint, exec, execPmul, h0, bind_assoc]
    rfl

/-! ### The operand points (41_ecc.md R74, R75) -/

theorem p1_of_infinity {s : State} (h : s.p1inf = true) : s.p1 = .infinity := by rw [State.p1, h]; rfl

theorem p1_of_affine {s : State} (h : s.p1inf = false) : s.p1 = .affine (s.num .p1x) (s.num .p1y) := by
  rw [State.p1, h]; rfl

theorem p2_of_infinity {s : State} (h : s.p2inf = true) : s.p2 = .infinity := by rw [State.p2, h]; rfl

theorem p2_of_affine {s : State} (h : s.p2inf = false) : s.p2 = .affine (s.num .p2x) (s.num .p2y) := by
  rw [State.p2, h]; rfl

theorem checkPoint_p1_of_infinity {p : Nat} {s : State} (h : s.p1inf = true) : checkPoint p s.p1 = .ok () := by
  rw [p1_of_infinity h, checkPoint_infinity]

theorem checkPoint_p1_of_affine {p : Nat} {s : State} (h : s.p1inf = false) (hx : s.num .p1x < p)
    (hy : s.num .p1y < p) : checkPoint p s.p1 = .ok () := by
  rw [p1_of_affine h, checkPoint_affine]
  exact ⟨hx, hy⟩

theorem checkPoint_p2_of_infinity {p : Nat} {s : State} (h : s.p2inf = true) : checkPoint p s.p2 = .ok () := by
  rw [p2_of_infinity h, checkPoint_infinity]

theorem checkPoint_p2_of_affine {p : Nat} {s : State} (h : s.p2inf = false) (hx : s.num .p2x < p)
    (hy : s.num .p2y < p) : checkPoint p s.p2 = .ok () := by
  rw [p2_of_affine h, checkPoint_affine]
  exact ⟨hx, hy⟩

theorem checkPrime_error {p : Nat} (h : p < 3) : checkPrime p = .error .range := if_neg (by omega)

theorem checkPoint_error {p x y : Nat} (h : p ≤ x ∨ p ≤ y) : checkPoint p (.affine x y) = .error .range :=
  if_neg (by omega)

/-- A point that fails its check fails it with RANGE. -/
theorem checkPoint_eq_range {p : Nat} {P : Point} {e : ErrCode} (h : checkPoint p P = .error e) : e = .range := by
  cases P with
  | infinity => cases h
  | affine x y =>
    by_cases hlt : x < p ∧ y < p
    · rw [checkPoint_affine.2 hlt] at h; cases h
    · rw [checkPoint_error (by omega)] at h; cases h; rfl

/-- The checks of PADD pass, and it adds. -/
theorem paddPoint_eq {s : State} (hp : 3 ≤ s.num .cp) (h1 : checkPoint (s.num .cp) s.p1 = .ok ())
    (h2 : checkPoint (s.num .cp) s.p2 = .ok ()) : paddPoint s = pointAdd (s.num .cp) (s.num .ca) s.p1 s.p2 := by
  rw [paddPoint, checkPrime_eq_ok.2 hp, h1, h2]
  rfl

/-- The checks of PDBL pass, and it doubles. -/
theorem pdblPoint_eq {s : State} (hp : 3 ≤ s.num .cp) (h1 : checkPoint (s.num .cp) s.p1 = .ok ()) :
    pdblPoint s = pointAdd (s.num .cp) (s.num .ca) s.p1 s.p1 := by
  rw [pdblPoint, checkPrime_eq_ok.2 hp, h1]
  rfl

/-- The checks of PMUL pass, and it multiplies. -/
theorem pmulPoint_eq {s : State} (hp : 3 ≤ s.num .cp) (h1 : checkPoint (s.num .cp) s.p1 = .ok ())
    (ha : s.num .a ≠ 0) : pmulPoint s = scalarMul (s.num .cp) (s.num .ca) s.p1 (s.num .a) := by
  rw [pmulPoint, checkPrime_eq_ok.2 hp, h1, if_neg ha]
  rfl

/-- The checks of PMUL pass, and A is 0. -/
theorem pmulPoint_zero {s : State} (hp : 3 ≤ s.num .cp) (h1 : checkPoint (s.num .cp) s.p1 = .ok ())
    (ha : s.num .a = 0) : pmulPoint s = .error .scalarZero := by
  rw [pmulPoint, checkPrime_eq_ok.2 hp, h1, if_pos ha]
  rfl

/-- The check of p comes first (41_ecc.md R74). -/
theorem curvePoint_error_of_prime {s : State} (hp : s.num .cp < 3) :
    paddPoint s = .error .range ∧ pdblPoint s = .error .range ∧ pmulPoint s = .error .range := by
  simp only [paddPoint, pdblPoint, pmulPoint, checkPrime_error hp]
  exact ⟨rfl, rfl, rfl⟩

/-- Where P1 fails its check, every curve command ends with RANGE (41_ecc.md R75). -/
theorem curvePoint_error_of_p1 {s : State} (h1 : checkPoint (s.num .cp) s.p1 = .error .range) :
    paddPoint s = .error .range ∧ pdblPoint s = .error .range ∧ pmulPoint s = .error .range := by
  by_cases hp : 3 ≤ s.num .cp
  · simp only [paddPoint, pdblPoint, pmulPoint, checkPrime_eq_ok.2 hp, h1]
    exact ⟨rfl, rfl, rfl⟩
  · exact curvePoint_error_of_prime (by omega)

/-- Where P2 fails its check, PADD ends with RANGE (41_ecc.md R75). -/
theorem paddPoint_error_of_p2 {s : State} (h2 : checkPoint (s.num .cp) s.p2 = .error .range) :
    paddPoint s = .error .range := by
  by_cases hp : 3 ≤ s.num .cp
  case neg => exact (curvePoint_error_of_prime (by omega)).1
  cases h1 : checkPoint (s.num .cp) s.p1 with
  | ok =>
    rw [paddPoint, checkPrime_eq_ok.2 hp, h1, h2]
    rfl
  | error e => exact (curvePoint_error_of_p1 (checkPoint_eq_range h1 ▸ h1)).1

/-! ### The completion of a curve command (41_ecc.md R79; 60_exceptions.md R122) -/

/-- The command completes without error and leaves the point in RX, RY and RINF, O with RX = RY = 0; nothing else
changes. -/
def WritesResult (i : Instr) (s : State) (R : Point) : Prop :=
  ∃ t, exec i s = .next t ∧ Completed t .noError false ∧ resultPoint t = R ∧
    (R = .infinity → t.num .rx = 0 ∧ t.num .ry = 0) ∧ OnlyWrites s t [.reg .rx, .reg .ry, .rinf]

/-- A point that fits its registers is read back as it was written. -/
theorem resultPoint_writeR (s : State) {x y : Nat} (hx : x < 2 ^ 256) (hy : y < 2 ^ 256) :
    resultPoint (writeR s (.affine x y)) = .affine x y := by
  have hrx : (writeR s (.affine x y)).num .rx = x :=
    (State.num_setNum (s.setNum .rx x) .ry .rx hy).trans (State.num_setNum s .rx .rx hx)
  have hry : (writeR s (.affine x y)).num .ry = y := State.num_setNum (s.setNum .rx x) .ry .ry hy
  rw [resultPoint, State.point, hrx, hry]
  rfl

theorem num_writeR_infinity (s : State) :
    (writeR s .infinity).num .rx = 0 ∧ (writeR s .infinity).num .ry = 0 := by
  have h0 : 0 < 2 ^ 256 := by decide
  exact ⟨(State.num_setNum (s.setNum .rx 0) .ry .rx h0).trans (State.num_setNum s .rx .rx h0),
    State.num_setNum (s.setNum .rx 0) .ry .ry h0⟩

section
variable {i : Instr} {s : State} {o : Except ErrCode Point} {R : Point} (h : ComputesPoint i s o)
include h

/-- A command that computes a valid point writes it. -/
theorem ComputesPoint.writesResult (ho : o = .ok R) (hR : checkPoint (s.num .cp) R = .ok ()) : WritesResult i s R := by
  subst ho
  refine ⟨_, h, ⟨rfl, rfl, rfl, rfl, rfl⟩, ?_, ?_, (onlyWrites_writeR s R).complete .noError false⟩
  · cases R with
    | infinity => rfl
    | affine x y =>
      have hlt := s.num_lt .cp
      obtain ⟨hx, hy⟩ := checkPoint_affine.1 hR
      exact resultPoint_writeR s (hx.trans hlt) (hy.trans hlt)
  · rintro rfl
    exact num_writeR_infinity s

/-- A command whose point has an error ends with that error. -/
theorem ComputesPoint.endsWithError {e : ErrCode} (ho : o = .error e) (he : e ≠ .noError) : EndsWithError i s e := by
  subst ho
  exact endsWithError_of_exec_eq he h

end

theorem WritesResult.infinity {i : Instr} {s : State} (h : WritesResult i s .infinity) :
    ∃ t, exec i s = .next t ∧ Completed t .noError false ∧ t.rinf = true ∧ t.num .rx = 0 ∧ t.num .ry = 0 ∧
      OnlyWrites s t [.reg .rx, .reg .ry, .rinf] := by
  obtain ⟨t, hexec, hdone, hR, hzero, hframe⟩ := h
  obtain ⟨hrx, hry⟩ := hzero rfl
  refine ⟨t, hexec, hdone, ?_, hrx, hry, hframe⟩
  cases hinf : t.rinf with
  | true => rfl
  | false => simp [resultPoint, State.point, hinf] at hR

theorem WritesResult.affine {i : Instr} {s : State} {x y : Nat} (h : WritesResult i s (.affine x y)) :
    ∃ t, exec i s = .next t ∧ Completed t .noError false ∧ t.rinf = false ∧ t.num .rx = x ∧ t.num .ry = y ∧
      OnlyWrites s t [.reg .rx, .reg .ry, .rinf] := by
  obtain ⟨t, hexec, hdone, hR, -, hframe⟩ := h
  cases hinf : t.rinf with
  | true => simp [resultPoint, State.point, hinf] at hR
  | false =>
    simp only [resultPoint, State.point, hinf, Bool.false_eq_true, if_false, Point.affine.injEq] at hR
    obtain ⟨hrx, hry⟩ := hR
    exact ⟨t, hexec, hdone, hinf, hrx, hry, hframe⟩

/-- A sum by a slope is a valid point. -/
theorem checkPoint_of_isSumBy {p x1 y1 x2 rx ry : Nat} {lam : Int} (h : IsSumBy p lam x1 y1 x2 rx ry) :
    checkPoint p (.affine rx ry) = .ok () := by
  obtain ⟨hrx, hry, -⟩ := h
  exact checkPoint_affine.2 ⟨hrx, hry⟩

/-- A command that computes the point at which a slope ends completes with it in RX and RY. -/
theorem ComputesPoint.isSumBy {i : Instr} {s : State} {o : Except ErrCode Point} {lam : Int} {x1 y1 x2 rx ry : Nat}
    (h : ComputesPoint i s o) (ho : o = .ok (.affine rx ry)) (hby : IsSumBy (s.num .cp) lam x1 y1 x2 rx ry) :
    ∃ t, exec i s = .next t ∧ Completed t .noError false ∧ t.rinf = false ∧
      IsSumBy (s.num .cp) lam x1 y1 x2 (t.num .rx) (t.num .ry) ∧ OnlyWrites s t [.reg .rx, .reg .ry, .rinf] := by
  obtain ⟨t, hexec, hdone, hinf, rfl, rfl, hframe⟩ := (h.writesResult ho (checkPoint_of_isSumBy hby)).affine
  exact ⟨t, hexec, hdone, hinf, hby, hframe⟩

end Sys2Proof.Machine
end

section
/-! The statements of the family 41_ecc.md about point addition and scalar multiplication. -/

namespace Sys2Proof.Proofs

open Sys2Proof.Machine Sys2Proof.Safety

/-- Settles O35: O is neutral, and the other operand is written as it passed its check. -/
theorem paddWithInfinity : Obligations.PaddWithInfinity := by
  unfold Obligations.PaddWithInfinity
  intro s hp
  refine ⟨fun h1 h2 => ?_, fun h1 h2 hx hy => ?_, fun h1 h2 hx hy => ?_⟩
  · have hsum := paddPoint_eq hp (checkPoint_p1_of_infinity h1) (checkPoint_p2_of_infinity h2)
    rw [p1_of_infinity h1, p2_of_infinity h2] at hsum
    exact ((computesPoint_padd s).writesResult hsum rfl).infinity
  · have hP := checkPoint_p1_of_infinity (p := s.num .cp) h1
    have hQ := checkPoint_p2_of_affine h2 hx hy
    have hsum := paddPoint_eq hp hP hQ
    rw [p1_of_infinity h1, pointAdd_infinity_left, p2_of_affine h2] at hsum
    exact ((computesPoint_padd s).writesResult hsum (p2_of_affine h2 ▸ hQ)).affine
  · have hP := checkPoint_p1_of_affine h1 hx hy
    have hQ := checkPoint_p2_of_infinity (p := s.num .cp) h2
    have hsum := paddPoint_eq hp hP hQ
    rw [p2_of_infinity h2, pointAdd_infinity_right, p1_of_affine h1] at hsum
    exact ((computesPoint_padd s).writesResult hsum (p1_of_affine h1 ▸ hP)).affine

/-- The checks of PADD pass on two affine operands, and it adds them. -/
theorem paddPoint_of_affine {s : State} (hp : 3 ≤ s.num .cp) (h1 : s.p1inf = false) (h2 : s.p2inf = false)
    (hx1 : s.num .p1x < s.num .cp) (hy1 : s.num .p1y < s.num .cp) (hx2 : s.num .p2x < s.num .cp)
    (hy2 : s.num .p2y < s.num .cp) :
    paddPoint s = pointAdd (s.num .cp) (s.num .ca) (.affine (s.num .p1x) (s.num .p1y))
      (.affine (s.num .p2x) (s.num .p2y)) := by
  rw [paddPoint_eq hp (checkPoint_p1_of_affine h1 hx1 hy1) (checkPoint_p2_of_affine h2 hx2 hy2), p1_of_affine h1, p2_of_affine h2]

/-- Settles O36: `pointAdd` on the chord, and the registers that its result is written to. -/
theorem paddChord : Obligations.PaddChord := by
  unfold Obligations.PaddChord
  intro s hp h1 h2 hx1 hy1 hx2 hy2 hne
  have hsum := paddPoint_of_affine hp h1 h2 hx1 hy1 hx2 hy2
  refine ⟨fun hd => ?_, fun hd => ?_⟩
  · obtain ⟨lam, rx, ry, hadd, hlam, hby⟩ := pointAdd_chord (by omega) hne hd
    obtain ⟨t, hexec, hdone, hinf, hby, hframe⟩ := (computesPoint_padd s).isSumBy (hsum.trans hadd) hby
    exact ⟨t, lam, hexec, hdone, hinf, hlam, hby, hframe⟩
  · exact (computesPoint_padd s).endsWithError (hsum.trans (pointAdd_chord_error (by omega) hne hd)) (by decide)

/-- Settles O37: the four cases of `pointAdd` with one abscissa. -/
theorem paddSameAbscissa : Obligations.PaddSameAbscissa := by
  unfold Obligations.PaddSameAbscissa
  intro s hp h1 h2 hx1 hy1 hy2 hx
  have hsum := paddPoint_of_affine hp h1 h2 hx1 hy1 (hx ▸ hx1) hy2
  rw [← hx] at hsum
  have hpadd := computesPoint_padd s
  refine ⟨fun hopp => ?_, fun hopp hy hd => ?_, fun hopp hy hd => ?_, fun hopp hy => ?_⟩
  · exact (hpadd.writesResult (hsum.trans (pointAdd_opposite hopp)) rfl).infinity
  · rw [← hy] at hsum hopp
    obtain ⟨lam, rx, ry, hadd, hlam, hby⟩ := pointAdd_tangent (by omega) hopp hd
    obtain ⟨t, hexec, hdone, hinf, hby, hframe⟩ := hpadd.isSumBy (hsum.trans hadd) hby
    exact ⟨t, lam, hexec, hdone, hinf, hlam, hby, hframe⟩
  · rw [← hy] at hsum hopp
    exact hpadd.endsWithError (hsum.trans (pointAdd_tangent_error hopp hd)) (by decide)
  · exact hpadd.endsWithError (hsum.trans (pointAdd_uncovered hopp hy)) (by decide)

/-- Settles O38: `pointAdd_comm` needs no check of the operands but p ≥ 1. -/
theorem pointAdditionIsSymmetric : Obligations.PointAdditionIsSymmetric := by
  unfold Obligations.PointAdditionIsSymmetric
  exact fun p a P1 P2 hp _ _ => pointAdd_comm (by omega) P1 P2

/-- Settles O39: the cases of `pointAdd` with the point twice. -/
theorem pdblDoublesP1 : Obligations.PdblDoublesP1 := by
  unfold Obligations.PdblDoublesP1
  intro s hp
  have hpdbl := computesPoint_pdbl s
  have affine (h1 : s.p1inf = false) (hx : s.num .p1x < s.num .cp) (hy : s.num .p1y < s.num .cp) :
      pdblPoint s = pointAdd (s.num .cp) (s.num .ca) (.affine (s.num .p1x) (s.num .p1y))
        (.affine (s.num .p1x) (s.num .p1y)) := by
    rw [pdblPoint_eq hp (checkPoint_p1_of_affine h1 hx hy), p1_of_affine h1]
  refine ⟨fun h => ?_, fun h1 hx hy hne hd => ?_, fun h1 hx hy hne hd => ?_⟩
  · have hdbl : pdblPoint s = .ok .infinity := by
      cases h1 : s.p1inf with
      | true =>
        rw [pdblPoint_eq hp (checkPoint_p1_of_infinity h1), p1_of_infinity h1, pointAdd_infinity_left]
      | false =>
        obtain ⟨hx, hy, hzero⟩ := h.resolve_left (by simp [h1])
        rw [affine h1 hx hy, pointAdd_opposite (by rwa [← Nat.two_mul])]
    exact (hpdbl.writesResult hdbl rfl).infinity
  · rw [Nat.two_mul] at hne
    obtain ⟨lam, rx, ry, hadd, hlam, hby⟩ := pointAdd_tangent (by omega) hne hd
    obtain ⟨t, hexec, hdone, hinf, hby, hframe⟩ := hpdbl.isSumBy ((affine h1 hx hy).trans hadd) hby
    exact ⟨t, lam, hexec, hdone, hinf, hlam, hby, hframe⟩
  · rw [Nat.two_mul] at hne
    exact hpdbl.endsWithError ((affine h1 hx hy).trans (pointAdd_tangent_error hne hd)) (by decide)

/-- Settles O41: the recursion and the loop take the same digits of k in the same order. -/
theorem scalarRecursionIsTheLoop : Obligations.ScalarRecursionIsTheLoop := by
  unfold Obligations.ScalarRecursionIsTheLoop
  exact fun p a P k hk => scalarMul_eq_loop p a P hk

end Sys2Proof.Proofs
end

section
/-! SUPPORT. The errors of point arithmetic, and point addition over a prime field as the group law of the curve. -/

namespace Sys2Proof.Machine

open Sys2Proof.Safety

/-! ### The one error of point arithmetic (41_ecc.md R76, R77) -/

theorem finv_error_eq {u m : Nat} {e : ErrCode} (h : finv u m = .error e) : e = .notInvertible := by
  simp only [finv] at h
  split at h <;> cases h
  rfl

theorem pointAdd_error_eq {p a : Nat} {P Q : Point} {e : ErrCode} (h : pointAdd p a P Q = .error e) :
    e = .notInvertible := by
  cases P with
  | infinity => simp at h
  | affine x1 y1 =>
    cases Q with
    | infinity => simp at h
    | affine x2 y2 =>
      simp only [pointAdd] at h
      split_ifs at h
      · cases hf : finv (fsub x2 x1 p) p with
        | error e' => simp only [hf] at h; cases h; exact finv_error_eq hf
        | ok v => simp only [hf] at h; cases h
      · cases hf : finv (fmul 2 y1 p) p with
        | error e' => simp only [hf] at h; cases h; exact finv_error_eq hf
        | ok v => simp only [hf] at h; cases h
      · cases h; rfl

theorem scalarMul_error_eq {p a : Nat} {P : Point} {k : Nat} {e : ErrCode} (hk : 1 ≤ k)
    (h : scalarMul p a P k = .error e) : e = .notInvertible := by
  induction k using Nat.strong_induction_on generalizing e with
  | _ k ih =>
    by_cases h1 : k = 1
    · subst h1; cases h
    · obtain ⟨n, b, hn, hlt, rfl⟩ := exists_digit (show 2 ≤ k by omega)
      rw [scalarMul_digit p a P hn] at h
      cases hX : scalarMul p a P n with
      | error e' => rw [hX] at h; cases h; exact ih n hlt hn hX
      | ok X =>
        cases hY : pointAdd p a X X with
        | error e' => simp only [hX, hY, bind, Except.bind] at h; cases h; exact pointAdd_error_eq hY
        | ok Y =>
          simp only [hX, hY, bind, Except.bind] at h
          split at h
          · exact pointAdd_error_eq h
          · cases h

/-! ### The curve over the prime field -/

/-- The curve y² = x³ + a·x + b over the field of p elements (00_scope.md R11). -/
def shortCurve (p a b : Nat) : WeierstrassCurve.Affine (ZMod p) where
  a₁ := 0
  a₂ := 0
  a₃ := 0
  a₄ := a
  a₆ := b

section
variable {p a b : Nat}

/-- A reduced point lies on the curve of 41_ecc.md exactly if it solves the equation over the field. -/
theorem onCurve_affine_iff {x y : Nat} :
    OnCurve p a b (.affine x y) ↔ x < p ∧ y < p ∧ (shortCurve p a b).Equation x y := by
  have heq : y * y % p = (x * x * x + a * x + b) % p ↔ (shortCurve p a b).Equation x y := by
    rw [WeierstrassCurve.Affine.equation_iff, show (y * y % p = _) = (y * y ≡ x * x * x + a * x + b [MOD p]) from rfl,
      ← ZMod.natCast_eq_natCast_iff]
    push_cast [shortCurve]
    ring_nf
  rw [OnCurve, heq]

/-- Reduced numbers with one residue are equal. -/
theorem natCast_zmod_inj {x y : Nat} (hx : x < p) (hy : y < p) : (x : ZMod p) = y ↔ x = y := by
  rw [ZMod.natCast_eq_natCast_iff]
  exact ⟨fun h => Nat.ModEq.eq_of_lt_of_lt h hx hy, fun h => h ▸ rfl⟩

/-- Inverse ordinates (41_ecc.md R76, its second case), over the field. -/
theorem add_mod_eq_zero_iff {y1 y2 : Nat} (x2 : ZMod p) :
    (y1 + y2) % p = 0 ↔ (y1 : ZMod p) = (shortCurve p a b).negY x2 y2 := by
  rw [← Nat.dvd_iff_mod_eq_zero, ← ZMod.natCast_eq_zero_iff]
  simp only [WeierstrassCurve.Affine.negY, shortCurve, zero_mul, sub_zero, Nat.cast_add, eq_neg_iff_add_eq_zero]

/-- The third point of a line, mirrored, is the field's sum by that slope. -/
theorem eq_val_of_isSumBy {lam : Int} {x1 y1 x2 rx ry : Nat} (h : IsSumBy p lam x1 y1 x2 rx ry) :
    rx = ((shortCurve p a b).addX x1 x2 lam).val ∧ ry = ((shortCurve p a b).addY x1 x2 y1 lam).val := by
  obtain ⟨hrx, hry, hx, hy⟩ := h
  have hX : (rx : ZMod p) = (shortCurve p a b).addX x1 x2 lam := by
    have := (ZMod.intCast_eq_intCast_iff _ _ p).2 hx
    push_cast at this
    rw [this]
    simp only [WeierstrassCurve.Affine.addX, shortCurve]
    ring
  have hY : (ry : ZMod p) = (shortCurve p a b).addY x1 x2 y1 lam := by
    have := (ZMod.intCast_eq_intCast_iff _ _ p).2 hy
    push_cast at this
    rw [this, WeierstrassCurve.Affine.addY, WeierstrassCurve.Affine.negAddY, ← hX]
    simp only [WeierstrassCurve.Affine.negY, shortCurve]
    ring
  rw [← hX, ← hY, ZMod.val_natCast_of_lt hrx, ZMod.val_natCast_of_lt hry]
  exact ⟨rfl, rfl⟩

end

section
variable {p a b : Nat} [Fact p.Prime]

/-- Over a prime field, what is not 0 is invertible. -/
theorem gcd_eq_one_of_ne_zero {d : Int} (h : (d : ZMod p) ≠ 0) : Int.gcd d p = 1 := by
  rw [Ne, ZMod.intCast_zmod_eq_zero_iff_dvd, Int.natCast_dvd] at h
  have hprime : p.Prime := Fact.out
  exact (hprime.coprime_iff_not_dvd.2 h).symm

/-- ADD of two points of the curve that are not inverse to each other is the field's sum by their slope. -/
theorem pointAdd_eq_slope {x1 y1 x2 y2 : Nat} (hP : OnCurve p a b (.affine x1 y1)) (hQ : OnCurve p a b (.affine x2 y2))
    (hne : ¬ ((x1 : ZMod p) = x2 ∧ (y1 : ZMod p) = (shortCurve p a b).negY x2 y2)) :
    pointAdd p a (.affine x1 y1) (.affine x2 y2) =
      .ok (.affine ((shortCurve p a b).addX x1 x2 ((shortCurve p a b).slope x1 x2 y1 y2)).val
        ((shortCurve p a b).addY x1 x2 y1 ((shortCurve p a b).slope x1 x2 y1 y2)).val) := by
  have hp : 1 ≤ p := (Fact.out : p.Prime).one_le
  obtain ⟨hx1, hy1, hE1⟩ := onCurve_affine_iff.1 hP
  obtain ⟨hx2, hy2, hE2⟩ := onCurve_affine_iff.1 hQ
  by_cases hx : (x1 : ZMod p) = x2
  · have hopp : (y1 : ZMod p) ≠ (shortCurve p a b).negY x2 y2 := fun h => hne ⟨hx, h⟩
    obtain rfl := (natCast_zmod_inj hx1 hx2).1 hx
    obtain rfl := (natCast_zmod_inj hy1 hy2).1 (WeierstrassCurve.Affine.Y_eq_of_Y_ne hE1 hE2 rfl hopp)
    have htwo : (2 * y1 : ZMod p) ≠ 0 := by
      intro h0
      refine hopp ?_
      simp only [WeierstrassCurve.Affine.negY, shortCurve]
      linear_combination h0
    have hgcd : Nat.gcd (2 * y1) p = 1 := by
      have := gcd_eq_one_of_ne_zero (p := p) (d := ((2 * y1 : Nat) : Int)) (by push_cast; exact htwo)
      rwa [Int.gcd_natCast_natCast] at this
    obtain ⟨lam, rx, ry, hadd, hlam, hby⟩ :=
      pointAdd_tangent (a := a) (x1 := x1) hp (mt (add_mod_eq_zero_iff (x1 : ZMod p)).1 hopp) hgcd
    have hslope : (lam : ZMod p) = (shortCurve p a b).slope x1 x1 y1 y1 := by
      have h := (ZMod.intCast_eq_intCast_iff _ _ p).2 hlam
      push_cast at h
      rw [WeierstrassCurve.Affine.slope_of_Y_ne rfl hopp, eq_div_iff (sub_ne_zero.2 hopp)]
      simp only [WeierstrassCurve.Affine.negY, shortCurve]
      linear_combination h
    obtain ⟨rfl, rfl⟩ := eq_val_of_isSumBy (a := a) (b := b) hby
    rw [hadd, hslope]
  · have hne' : x1 ≠ x2 := fun h => hx (h ▸ rfl)
    have hgcd : Int.gcd ((x2 : Int) - x1) p = 1 :=
      gcd_eq_one_of_ne_zero (by push_cast; exact sub_ne_zero.2 (Ne.symm hx))
    obtain ⟨lam, rx, ry, hadd, hlam, hby⟩ := pointAdd_chord (a := a) (y1 := y1) (y2 := y2) hp hne' hgcd
    have hslope : (lam : ZMod p) = (shortCurve p a b).slope x1 x2 y1 y2 := by
      have h := (ZMod.intCast_eq_intCast_iff _ _ p).2 hlam
      push_cast at h
      rw [WeierstrassCurve.Affine.slope_of_X_ne hx, eq_div_iff (sub_ne_zero.2 hx)]
      linear_combination -h
    obtain ⟨rfl, rfl⟩ := eq_val_of_isSumBy (a := a) (b := b) hby
    rw [hadd, hslope]

/-- A solution over the field, as a reduced point of the curve. -/
theorem onCurve_val {x y : ZMod p} (h : (shortCurve p a b).Equation x y) : OnCurve p a b (.affine x.val y.val) := by
  rw [onCurve_affine_iff, ZMod.natCast_zmod_val, ZMod.natCast_zmod_val]
  exact ⟨ZMod.val_lt x, ZMod.val_lt y, h⟩

/-- The sum of two points of the curve is defined and on the curve (41_ecc.md R85), singular points included. -/
theorem exists_pointAdd_onCurve {P Q : Point} (hP : OnCurve p a b P) (hQ : OnCurve p a b Q) :
    ∃ R, pointAdd p a P Q = .ok R ∧ OnCurve p a b R := by
  cases P with
  | infinity => exact ⟨Q, rfl, hQ⟩
  | affine x1 y1 =>
    cases Q with
    | infinity => exact ⟨_, rfl, hP⟩
    | affine x2 y2 =>
      obtain ⟨hx1, -, hE1⟩ := onCurve_affine_iff.1 hP
      obtain ⟨hx2, -, hE2⟩ := onCurve_affine_iff.1 hQ
      by_cases hopp : (x1 : ZMod p) = x2 ∧ (y1 : ZMod p) = (shortCurve p a b).negY x2 y2
      · obtain ⟨hx, hy⟩ := hopp
        obtain rfl := (natCast_zmod_inj hx1 hx2).1 hx
        exact ⟨.infinity, pointAdd_opposite ((add_mod_eq_zero_iff _).2 hy), trivial⟩
      · exact ⟨_, pointAdd_eq_slope hP hQ hopp, onCurve_val (WeierstrassCurve.Affine.equation_add hE1 hE2 hopp)⟩

/-! ### The group of the nonsingular points -/

/-- A nonsingular point of the curve as a point of the model. -/
def modelPoint : (shortCurve p a b).Point → Point
  | .zero => .infinity
  | .some x y _ => .affine x.val y.val

theorem onCurve_modelPoint (P : (shortCurve p a b).Point) : OnCurve p a b (modelPoint P) := by
  cases P with
  | zero => trivial
  | some x y h => exact onCurve_val h.1

/-- ADD is the group law of the curve (41_ecc.md R76). -/
theorem pointAdd_modelPoint (P Q : (shortCurve p a b).Point) :
    pointAdd p a (modelPoint P) (modelPoint Q) = .ok (modelPoint (P + Q)) := by
  cases P with
  | zero => rw [← WeierstrassCurve.Affine.Point.zero_def, zero_add]; rfl
  | some x1 y1 h1 =>
    cases Q with
    | zero => rw [← WeierstrassCurve.Affine.Point.zero_def, add_zero]; rfl
    | some x2 y2 h2 =>
      have hE1 := onCurve_val h1.1
      have hE2 := onCurve_val h2.1
      by_cases hopp : x1 = x2 ∧ y1 = (shortCurve p a b).negY x2 y2
      · obtain ⟨rfl, hy⟩ := hopp
        rw [WeierstrassCurve.Affine.Point.add_of_Y_eq rfl hy]
        exact pointAdd_opposite ((add_mod_eq_zero_iff (a := a) (b := b) x1).2 (by simpa using hy))
      · have hsum := pointAdd_eq_slope hE1 hE2 (by simpa using hopp)
        simp only [ZMod.natCast_zmod_val] at hsum
        rw [WeierstrassCurve.Affine.Point.add_some hopp]
        exact hsum

end

/-! ### The multiples of a point -/

/-- `f n` is n times the point: a homomorphism into the points of the curve (41_ecc.md R85). -/
def IsMultiples (p a b : Nat) (P : Point) (f : Nat → Point) : Prop :=
  f 1 = P ∧ (∀ n, OnCurve p a b (f n)) ∧ ∀ m n, pointAdd p a (f m) (f n) = .ok (f (m + n))

/-- The multiples of a point that is inverse to itself. -/
def alternate (P : Point) (n : Nat) : Point := if n % 2 = 0 then .infinity else P

theorem isMultiples_alternate {p a b : Nat} {P : Point} (hP : OnCurve p a b P) (hself : pointAdd p a P P = .ok .infinity) :
    IsMultiples p a b P (alternate P) := by
  refine ⟨rfl, fun n => ?_, fun m n => ?_⟩
  · unfold alternate
    split
    · trivial
    · exact hP
  · have hm := Nat.mod_two_eq_zero_or_one m
    have hn := Nat.mod_two_eq_zero_or_one n
    rcases hm with hm | hm <;> rcases hn with hn | hn <;> simp [alternate, Nat.add_mod, hm, hn, hself]

section
variable {p a b : Nat} [Fact p.Prime]

theorem isMultiples_nsmul (P : (shortCurve p a b).Point) :
    IsMultiples p a b (modelPoint P) fun n => modelPoint (n • P) :=
  ⟨by simp only [one_nsmul], fun n => onCurve_modelPoint _, fun m n => by simp only [pointAdd_modelPoint, add_nsmul]⟩

/-- A singular point is inverse to itself: its ordinate is 0. -/
theorem pointAdd_self_of_singular {x y : Nat} (hP : OnCurve p a b (.affine x y))
    (hsing : ¬ (shortCurve p a b).Nonsingular x y) : pointAdd p a (.affine x y) (.affine x y) = .ok .infinity := by
  obtain ⟨-, -, hE⟩ := onCurve_affine_iff.1 hP
  refine pointAdd_opposite ((add_mod_eq_zero_iff (a := a) (b := b) (x : ZMod p)).2 ?_)
  by_contra hy
  exact hsing ((WeierstrassCurve.Affine.nonsingular_iff _ _).2 ⟨hE, .inr hy⟩)

/-- Every point of the curve, singular or not, has its multiples (41_ecc.md R85). -/
theorem exists_isMultiples {P : Point} (hP : OnCurve p a b P) : ∃ f, IsMultiples p a b P f := by
  cases P with
  | infinity => exact ⟨_, isMultiples_alternate hP rfl⟩
  | affine x y =>
    by_cases hsing : (shortCurve p a b).Nonsingular x y
    · obtain ⟨hx, hy, -⟩ := onCurve_affine_iff.1 hP
      have hmodel : modelPoint (.some _ _ hsing) = .affine x y := by
        rw [modelPoint, ZMod.val_natCast_of_lt hx, ZMod.val_natCast_of_lt hy]
      exact ⟨_, hmodel ▸ isMultiples_nsmul _⟩
    · exact ⟨_, isMultiples_alternate hP (pointAdd_self_of_singular hP hsing)⟩

end

/-- Scalar multiplication gives the multiples (41_ecc.md R82, R85). -/
theorem scalarMul_of_isMultiples {p a b : Nat} {P : Point} {f : Nat → Point} (hf : IsMultiples p a b P f) {k : Nat}
    (hk : 1 ≤ k) : scalarMul p a P k = .ok (f k) := by
  obtain ⟨hone, -, hadd⟩ := hf
  induction k using Nat.strong_induction_on with
  | _ k ih =>
    by_cases h1 : k = 1
    · subst h1; rw [hone]; rfl
    · obtain ⟨n, c, hn, hlt, rfl⟩ := exists_digit (show 2 ≤ k by omega)
      rw [scalarMul_digit p a P hn, ih n hlt hn, ← hone]
      simp only [bind, Except.bind, hadd]
      cases c <;> simp [Nat.two_mul]

end Sys2Proof.Machine
end

section
/-! The statements of the family 41_ecc.md about scalar multiplication and curves over a prime field. -/

namespace Sys2Proof.Proofs

open Sys2Proof.Machine Sys2Proof.Safety

/-- Settles O42: the recursion that PMUL runs is the loop, and its one error is a proper one. -/
theorem pmulMultipliesByA : Obligations.PmulMultipliesByA := by
  unfold Obligations.PmulMultipliesByA
  intro s hp hvalid
  have hpmul := computesPoint_pmul s
  have hP : checkPoint (s.num .cp) s.p1 = .ok () := by
    cases h1 : s.p1inf with
    | true => exact checkPoint_p1_of_infinity h1
    | false =>
      obtain ⟨hx, hy⟩ := hvalid.resolve_left (by simp [h1])
      exact checkPoint_p1_of_affine h1 hx hy
  refine ⟨fun ha => ?_, fun ha h1 => ?_, fun R ha hR => ?_, fun code ha hcode => ?_⟩
  · exact hpmul.endsWithError (pmulPoint_zero hp hP ha) (by decide)
  · have hone := pmulPoint_eq hp hP (by omega)
    rw [ha, scalarMul_one] at hone
    rw [p1_of_affine h1] at hone hP
    exact (hpmul.writesResult hone hP).affine
  · have hmul := pmulPoint_eq hp hP ha
    rw [← State.p1, ← scalarMul_eq_loop _ _ _ (Nat.pos_of_ne_zero ha)] at hR
    exact hpmul.writesResult (hmul.trans hR) (scalarMul_valid hp hP (Nat.pos_of_ne_zero ha) hR)
  · have hmul := pmulPoint_eq hp hP ha
    rw [← State.p1, ← scalarMul_eq_loop _ _ _ (Nat.pos_of_ne_zero ha)] at hcode
    refine hpmul.endsWithError (hmul.trans hcode) ?_
    rw [scalarMul_error_eq (Nat.pos_of_ne_zero ha) hcode]
    decide

/-- A point of the curve passes its check. -/
theorem checkPoint_of_onCurve {p a b : Nat} {P : Point} (h : OnCurve p a b P) : checkPoint p P = .ok () := by
  cases P with
  | infinity => rfl
  | affine x y =>
    obtain ⟨hx, hy, -⟩ := h
    exact checkPoint_affine.2 ⟨hx, hy⟩

/-- Settles O40: over a prime field the sum is defined and on the curve. -/
theorem paddStaysOnTheCurve : Obligations.PaddStaysOnTheCurve := by
  unfold Obligations.PaddStaysOnTheCurve
  intro s b hprime hp hP hQ
  have := Fact.mk hprime
  obtain ⟨R, hadd, hR⟩ := exists_pointAdd_onCurve hP hQ
  have hsum := paddPoint_eq hp (checkPoint_of_onCurve hP) (checkPoint_of_onCurve hQ)
  obtain ⟨t, hexec, hdone, hres, -, hframe⟩ :=
    (computesPoint_padd s).writesResult (hsum.trans hadd) (checkPoint_of_onCurve hR)
  exact ⟨t, hexec, hdone, hres ▸ hR, hframe⟩

/-- Settles O43: scalar multiplication gives the multiples of the point, which add up as their numbers do. -/
theorem scalarMultiplicationIsAHomomorphism : Obligations.ScalarMultiplicationIsAHomomorphism := by
  unfold Obligations.ScalarMultiplicationIsAHomomorphism
  intro p a b P hprime hp hP
  have := Fact.mk hprime
  obtain ⟨f, hf⟩ := exists_isMultiples hP
  have hmul {k : Nat} (hk : 1 ≤ k) := scalarMul_of_isMultiples hf hk
  obtain ⟨-, hcurve, hadd⟩ := hf
  refine ⟨pointAdd_infinity_right p a P, pointAdd_infinity_left p a P, scalarMul_even p a P le_rfl,
    fun Q hQ => exists_pointAdd_onCurve hP hQ, fun k1 k2 hk1 hk2 => ?_⟩
  exact ⟨f k1, f k2, f (k1 + k2), hmul hk1, hmul hk2, hadd k1 k2, hmul (by omega), hcurve k1, hcurve _⟩

end Sys2Proof.Proofs
end

section
/-! SUPPORT. The permutation of 42_keccak.md, round by round, and why every step mapping is one to one. -/

namespace Sys2Proof.Machine

/-! ### Rotations of a lane (42_keccak.md R86) -/

theorem getLsbD_rotateLeft_lane (v : Lane) (n : Nat) {k : Nat} (hk : k < 64) :
    (v.rotateLeft n).getLsbD k = v.getLsbD ((k + (64 - n % 64)) % 64) := by
  have hn : n % 64 < 64 := Nat.mod_lt _ (by decide)
  rw [BitVec.getLsbD_rotateLeft, Bool.cond_decide]
  split
  · congr 1; omega
  · rw [decide_eq_true hk, Bool.true_and]; congr 1; omega

theorem rotateLeft_rotateLeft (v : Lane) (m n : Nat) : (v.rotateLeft m).rotateLeft n = v.rotateLeft (m + n) := by
  apply BitVec.eq_of_getLsbD_eq
  intro k hk
  rw [getLsbD_rotateLeft_lane _ _ hk, getLsbD_rotateLeft_lane _ _ (Nat.mod_lt _ (by decide)),
    getLsbD_rotateLeft_lane _ _ hk]
  congr 1
  omega

/-- A rotation by a multiple of the lane width does nothing. -/
theorem rotateLeft_of_mod_eq_zero (v : Lane) {n : Nat} (h : n % 64 = 0) : v.rotateLeft n = v := by
  apply BitVec.eq_of_getLsbD_eq
  intro k hk
  rw [getLsbD_rotateLeft_lane _ _ hk]
  congr 1
  omega

theorem rotateLeft_xor (v w : Lane) (n : Nat) : (v ^^^ w).rotateLeft n = v.rotateLeft n ^^^ w.rotateLeft n := by
  apply BitVec.eq_of_getLsbD_eq
  intro k hk
  simp only [BitVec.getLsbD_xor, getLsbD_rotateLeft_lane _ _ hk]

theorem rotateLeft_injective {n : Nat} (hn : n < 64) : Function.Injective fun v : Lane => v.rotateLeft n := by
  intro v w h
  have back (u : Lane) : (u.rotateLeft n).rotateLeft (64 - n) = u := by
    rw [rotateLeft_rotateLeft]
    exact rotateLeft_of_mod_eq_zero u (by omega)
  rw [← back v, ← back w]
  exact congrArg (·.rotateLeft (64 - n)) h

/-! ### The column parities under theta (42_keccak.md R87) -/

/-- What theta does to column parities, for n = 1: the parity of each column, of the one n to its left, and of the one
n to its right, rotated by n. -/
def mixColumns (n : Nat) (C : Nat → Lane) (x : Nat) : Lane := C x ^^^ (C (x + 4 * n) ^^^ (C (x + n)).rotateLeft n)

theorem xor_five_columns (a0 a1 a2 a3 a4 d : Lane) :
    a0 ^^^ d ^^^ (a1 ^^^ d) ^^^ (a2 ^^^ d) ^^^ (a3 ^^^ d) ^^^ (a4 ^^^ d) = a0 ^^^ a1 ^^^ a2 ^^^ a3 ^^^ a4 ^^^ d := by
  have bits : ∀ a0 a1 a2 a3 a4 d : Bool,
      (a0 ^^ d ^^ (a1 ^^ d) ^^ (a2 ^^ d) ^^ (a3 ^^ d) ^^ (a4 ^^ d)) = (a0 ^^ a1 ^^ a2 ^^ a3 ^^ a4 ^^ d) := by decide
  apply BitVec.eq_of_getLsbD_eq
  intro k hk
  simp only [BitVec.getLsbD_xor, bits]

theorem columnParity_theta (A : Lanes) : columnParity (theta A) = mixColumns 1 (columnParity A) := by
  funext x
  rw [columnParity]
  simp only [laneAt_theta]
  exact xor_five_columns ..

/-- Over the field of two elements squaring is additive: mixing twice is mixing at twice the distance. -/
theorem mixColumns_two_mul (n : Nat) (C : Nat → Lane) : mixColumns (2 * n) C = mixColumns n (mixColumns n C) := by
  have bits : ∀ c p q u v w : Bool, (c ^^ (u ^^ w)) = (c ^^ (p ^^ q) ^^ (p ^^ (u ^^ v) ^^ (q ^^ (v ^^ w)))) := by decide
  funext x
  simp only [mixColumns, rotateLeft_xor, rotateLeft_rotateLeft, show x + 4 * n + 4 * n = x + 4 * (2 * n) by omega,
    show x + n + 4 * n = x + 4 * n + n by omega, show x + n + n = x + 2 * n by omega, ← Nat.two_mul n]
  apply BitVec.eq_of_getLsbD_eq
  intro k hk
  simp only [BitVec.getLsbD_xor]
  exact bits ..

/-- Mixing at the distances 128 and 64, where the rotations do nothing, gives the columns back. -/
theorem mixColumns_mixColumns {C : Nat → Lane} (hC : ∀ x y, x % 5 = y % 5 → C x = C y) :
    mixColumns 64 (mixColumns 128 C) = C := by
  have bits : ∀ c0 c1 c2 c3 c4 : Bool,
      (c0 ^^ (c2 ^^ c3) ^^ (c1 ^^ (c3 ^^ c4) ^^ (c4 ^^ (c1 ^^ c2)))) = c0 := by decide
  have hC' (x y k : Nat) (h : x % 5 = y % 5) : (C x).getLsbD k = (C y).getLsbD k := by rw [hC x y h]
  funext x
  apply BitVec.eq_of_getLsbD_eq
  intro k hk
  simp only [mixColumns, rotateLeft_of_mod_eq_zero _ (show 64 % 64 = 0 from rfl),
    rotateLeft_of_mod_eq_zero _ (show 128 % 64 = 0 from rfl), BitVec.getLsbD_xor]
  rw [hC' (x + 4 * 128) (x + 2) k (by omega), hC' (x + 128) (x + 3) k (by omega),
    hC' (x + 4 * 64) (x + 1) k (by omega), hC' (x + 4 * 64 + 4 * 128) (x + 3) k (by omega),
    hC' (x + 4 * 64 + 128) (x + 4) k (by omega), hC' (x + 64) (x + 4) k (by omega),
    hC' (x + 64 + 4 * 128) (x + 1) k (by omega), hC' (x + 64 + 128) (x + 2) k (by omega)]
  exact bits ..

/-- Theta's map of the column parities is one to one. -/
theorem mixColumns_one_inj {C D : Nat → Lane} (hC : ∀ x y, x % 5 = y % 5 → C x = C y)
    (hD : ∀ x y, x % 5 = y % 5 → D x = D y) (h : mixColumns 1 C = mixColumns 1 D) : C = D := by
  have hpow (k : Nat) : mixColumns (2 ^ k) C = mixColumns (2 ^ k) D := by
    induction k with
    | zero => exact h
    | succ k ih => rw [pow_succ', mixColumns_two_mul, mixColumns_two_mul, ih]
  have h128 : mixColumns 128 C = mixColumns 128 D := hpow 7
  rw [← mixColumns_mixColumns hC, ← mixColumns_mixColumns hD, h128]

/-! ### Every step mapping is one to one -/

theorem theta_injective : Function.Injective theta := by
  intro A B h
  have hparity : columnParity A = columnParity B := by
    refine mixColumns_one_inj (fun x y => columnParity_congr A) (fun x y => columnParity_congr B) ?_
    rw [← columnParity_theta, ← columnParity_theta, h]
  refine lanes_ext fun x y _ _ => ?_
  have hlane : laneAt (theta A) x y = laneAt (theta B) x y := by rw [h]
  rw [laneAt_theta, laneAt_theta, hparity] at hlane
  exact (BitVec.xor_left_inj _).1 hlane

/-- Each lane is the source of one target (42_keccak.md R88), from which it is rotated back. -/
theorem rhoPi_injective (rho : Vector (Fin 64) 25) : Function.Injective (rhoPi rho) := by
  intro A B h
  refine lanes_ext fun x y _ _ => ?_
  have hlane : laneAt (rhoPi rho A) y (2 * x + 3 * y) = laneAt (rhoPi rho B) y (2 * x + 3 * y) := by rw [h]
  rw [laneAt_rhoPi, laneAt_rhoPi] at hlane
  exact rotateLeft_injective (Fin.isLt _) hlane

/-- A row of five bits is determined by its image under chi. -/
theorem chi_row_inj : ∀ a0 a1 a2 a3 a4 b0 b1 b2 b3 b4 : Bool, (a0 ^^ (!a1 && a2)) = (b0 ^^ (!b1 && b2)) →
    (a1 ^^ (!a2 && a3)) = (b1 ^^ (!b2 && b3)) → (a2 ^^ (!a3 && a4)) = (b2 ^^ (!b3 && b4)) →
    (a3 ^^ (!a4 && a0)) = (b3 ^^ (!b4 && b0)) → (a4 ^^ (!a0 && a1)) = (b4 ^^ (!b0 && b1)) → a0 = b0 := by decide

theorem chi_injective : Function.Injective chi := by
  intro A B h
  refine lanes_ext fun x y _ _ => ?_
  apply BitVec.eq_of_getLsbD_eq
  intro k hk
  have hbit (i j l : Nat) (hj : (x + i + 1) % 5 = (x + j) % 5) (hl : (x + i + 2) % 5 = (x + l) % 5) :
      ((laneAt A (x + i) y).getLsbD k ^^ (!(laneAt A (x + j) y).getLsbD k && (laneAt A (x + l) y).getLsbD k)) =
        ((laneAt B (x + i) y).getLsbD k ^^ (!(laneAt B (x + j) y).getLsbD k && (laneAt B (x + l) y).getLsbD k)) := by
    have hlane : (laneAt (chi A) (x + i) y).getLsbD k = (laneAt (chi B) (x + i) y).getLsbD k := by rw [h]
    rw [laneAt_chi, laneAt_chi, laneAt_congr A hj rfl, laneAt_congr A hl rfl, laneAt_congr B hj rfl,
      laneAt_congr B hl rfl] at hlane
    simpa [hk] using hlane
  exact chi_row_inj _ _ _ _ _ _ _ _ _ _ (hbit 0 1 2 (by omega) (by omega)) (hbit 1 2 3 (by omega) (by omega))
    (hbit 2 3 4 (by omega) (by omega)) (hbit 3 4 0 (by omega) (by omega)) (hbit 4 0 1 (by omega) (by omega))

theorem iota_injective (c : Lane) : Function.Injective (iota c) := by
  intro A B h
  refine lanes_ext fun x y hx hy => ?_
  have hlane : laneAt (iota c A) x y = laneAt (iota c B) x y := by rw [h]
  rw [laneAt_iota, laneAt_iota, Nat.mod_eq_of_lt hx, Nat.mod_eq_of_lt hy] at hlane
  split at hlane
  · next h0 =>
    obtain ⟨rfl, rfl⟩ := h0
    exact (BitVec.xor_left_inj _).1 hlane
  · exact hlane

theorem keccakRound_injective (rho : Vector (Fin 64) 25) (c : Lane) :
    Function.Injective fun A => keccakRound rho A c :=
  (iota_injective c).comp (chi_injective.comp ((rhoPi_injective rho).comp theta_injective))

/-- A sequence of rounds is one to one, whatever their constants. -/
theorem foldl_keccakRound_injective (rho : Vector (Fin 64) 25) (cs : List Lane) :
    Function.Injective fun A => cs.foldl (keccakRound rho) A := by
  induction cs with
  | nil => exact fun A B h => h
  | cons c cs ih => exact ih.comp (keccakRound_injective rho c)

/-- There are finitely many states of the sponge. -/
theorem finite_lanes : Finite Lanes := by
  refine Finite.of_injective (fun A : Lanes => fun q : Fin 5 × Fin 5 => laneAt A q.1 q.2) fun A B h => ?_
  exact lanes_ext fun x y hx hy => congrFun h (⟨x, hx⟩, ⟨y, hy⟩)

/-! ### The rounds one by one (42_keccak.md R91) -/

/-- The sponge state after the first n rounds. -/
def keccakFirst (P : Params) (S : Lanes) (n : Nat) : Lanes := (P.rc.toList.take n).foldl (keccakRound P.rho) S

theorem keccakFirst_succ (P : Params) (S : Lanes) {n : Nat} (h : n < 24) :
    keccakFirst P S (n + 1) = iota P.rc[n] (chi (rhoPi P.rho (theta (keccakFirst P S n)))) := by
  have hlen : n < P.rc.toList.length := by rwa [Vector.length_toList]
  rw [keccakFirst, List.take_succ_eq_append_getElem hlen, List.foldl_concat, Vector.getElem_toList]
  rfl

theorem keccakF_eq_keccakFirst (P : Params) (S : Lanes) : keccakF P S = keccakFirst P S 24 := by
  rw [keccakF, keccakFirst, List.take_of_length_le (by rw [Vector.length_toList])]

theorem exec_keccakf (s : State) :
    exec .keccakf s = .next (complete .noError false { s with lanes := keccakF s.params s.lanes }) := rfl

end Sys2Proof.Machine
end

section
/-! The statements of the family 42_keccak.md about the permutation. -/

namespace Sys2Proof.Proofs

open Sys2Proof.Machine

/-- Settles O46: the sequence is `keccakFirst`, whose step n is round n. -/
theorem keccakfRunsTwentyFourRounds : Obligations.KeccakfRunsTwentyFourRounds := by
  unfold Obligations.KeccakfRunsTwentyFourRounds
  intro s
  obtain ⟨t, hexec, hdone, hlanes, hframe⟩ := exists_exec_of_eq_setLanes (exec_keccakf s)
  exact ⟨t, keccakFirst s.params s.lanes, hexec, hdone, rfl, fun n hn => keccakFirst_succ s.params s.lanes hn,
    hlanes.trans (keccakF_eq_keccakFirst ..), hframe⟩

/-- Settles O47: every round is one to one, and the states of the sponge are finitely many. -/
theorem permutationIsBijective : Obligations.PermutationIsBijective := by
  unfold Obligations.PermutationIsBijective
  intro P
  have := finite_lanes
  exact Finite.injective_iff_bijective.1 (foldl_keccakRound_injective P.rho P.rc.toList)

end Sys2Proof.Proofs
end

section
/-! SUPPORT. HFINAL's outputs byte by byte, and the stream of blocks against the whole padded message. -/

namespace Sys2Proof.Machine

open Sys2Proof.Safety

/-! ### The squeezed bytes (43_sponge.md R97, R102) -/

theorem getD_laneBytes (v : Lane) {k : Nat} (hk : k < 8) : (laneBytes v).getD k 0 = v.extractLsb' (56 - 8 * k) 8 := by
  interval_cases k <;> rfl

/-- Byte i of the squeeze is byte i mod 8 of the lane emitted after i / 8 runs of F. -/
theorem getD_squeezeFrom (P : Params) (n j : Nat) (S : Lanes) {i : Nat} (hi : i < 8 * n) :
    (squeezeFrom P n j S).1.getD i 0 =
      (laneAt ((keccakF P)^[i / 8] S) ((j + i / 8) / 5) ((j + i / 8) % 5)).extractLsb' (56 - 8 * (i % 8)) 8 := by
  induction n generalizing i j S with
  | zero => omega
  | succ n ih =>
    rw [squeezeFrom]
    by_cases h8 : i < 8
    · rw [List.getD_append _ _ _ _ h8, getD_laneBytes _ h8, Nat.div_eq_of_lt h8, Nat.mod_eq_of_lt h8]
      rfl
    · obtain ⟨k, rfl⟩ : ∃ k, i = k + 8 := ⟨i - 8, by omega⟩
      rw [List.getD_append_right _ _ _ _ (by rw [laneBytes_length]; omega), laneBytes_length, Nat.add_sub_cancel,
        ih (j + 1) (keccakF P S) (by omega), Nat.add_mod_right, show (k + 8) / 8 = k / 8 + 1 by omega,
        Function.iterate_succ_apply, show j + 1 + k / 8 = j + (k / 8 + 1) by omega]

/-- Byte i of DIGEST (43_sponge.md R102, R104). -/
theorem getD_squeeze (P : Params) (S : Lanes) {i : Nat} (hi : i < 32) :
    (squeeze P S).1.getD i 0 = (laneAt ((keccakF P)^[i / 8] S) 0 (i / 8)).extractLsb' (56 - 8 * (i % 8)) 8 := by
  rw [squeeze, getD_squeezeFrom P 4 0 S hi, Nat.zero_add, Nat.div_eq_of_lt (show i / 8 < 5 by omega),
    Nat.mod_eq_of_lt (show i / 8 < 5 by omega)]

theorem getElem_digestBytes (out : List Byte) {i : Nat} (hi : i < 32) : (digestBytes out)[i] = out.getD i 0 :=
  Vector.getElem_ofFn ..

/-- The top bit of the digest integer is clear (43_sponge.md R103). -/
theorem digestInt_lt {out : List Byte} (h : out.length = 32) : (digestInt out).toNat < 2 ^ 255 := by
  have hbyte := congrArg BitVec.toNat (digestInt_byte out h 31)
  have hmask : (out.getD 31 0 &&& 0x7F#8).toNat ≤ 0x7F := by rw [BitVec.toNat_and]; exact Nat.and_le_right
  have hlt := (digestInt out).isLt
  rw [if_pos rfl, BitVec.extractLsb'_toNat, Nat.shiftRight_eq_div_pow] at hbyte
  omega

/-! ### HFINAL (43_sponge.md R104) -/

/-- The sponge state after the padded tail is absorbed. -/
def absorbedTail (t : Nat) (s : State) : Lanes := absorb s.params s.lanes (pad (s.buf.toList.take t))

theorem exec_hfinal_of_le {len : BitVec 8} (h : len.toNat ≤ 135) (s : State) :
    exec (.hfinal len) s = .next (complete .noError false (hfinalOutputs len.toNat s)) := if_pos h

theorem exec_hfinal_of_gt {len : BitVec 8} (h : 136 ≤ len.toNat) (s : State) :
    exec (.hfinal len) s = .next (complete .illegalCmd false s) := if_neg (by omega)

theorem hfinalOutputs_lanes (t : Nat) (s : State) :
    (hfinalOutputs t s).lanes = (keccakF s.params)^[4] (absorbedTail t s) := rfl

theorem hfinalOutputs_reg_h (t : Nat) (s : State) :
    (hfinalOutputs t s).reg .h = digestInt (squeeze s.params (absorbedTail t s)).1 := State.reg_setReg_self _ _ _

theorem hfinalOutputs_digest (t : Nat) (s : State) {i : Nat} (hi : i < 32) :
    (hfinalOutputs t s).digest[i] = (squeeze s.params (absorbedTail t s)).1.getD i 0 := getElem_digestBytes _ hi

/-- The bytes of H are those of DIGEST, but for the top bit of the last (43_sponge.md R103). -/
theorem hfinalOutputs_h_byte (t : Nat) (s : State) {i : Nat} (hi : i < 32) :
    ((hfinalOutputs t s).reg .h).extractLsb' (8 * i) 8 =
      if i = 31 then (hfinalOutputs t s).digest[31] &&& 0x7F#8 else (hfinalOutputs t s).digest[i] := by
  rw [hfinalOutputs_reg_h, digestInt_byte _ (squeeze_length _ _), hfinalOutputs_digest t s hi, hfinalOutputs_digest]

/-- HFINAL reads the first t bytes of BUF and no other (43_sponge.md R104). -/
theorem hfinalOutputs_setBuf {t : Nat} {s : State} {b : Vector Byte 136}
    (h : b.toList.take t = s.buf.toList.take t) :
    hfinalOutputs t { s with buf := b } = { hfinalOutputs t s with buf := b } := by
  simp only [hfinalOutputs, h]
  rfl

/-! ### A word of H and a word of DIGEST (20_memory.md R43) -/

/-- A word of a register is packed from four of its bytes, the first least significant. -/
theorem getWord_eq_busWord (v : U256) (i : Nat) :
    getWord v i = busWord (v.extractLsb' (8 * (4 * i)) 8) (v.extractLsb' (8 * (4 * i + 1)) 8)
      (v.extractLsb' (8 * (4 * i + 2)) 8) (v.extractLsb' (8 * (4 * i + 3)) 8) := by
  apply BitVec.eq_of_toNat_eq
  have hshift (k : Nat) : v.toNat / 2 ^ (8 * (4 * i + k)) = v.toNat / 2 ^ (32 * i) / 2 ^ (8 * k) := by
    rw [Nat.div_div_eq_div_mul, ← Nat.pow_add]
    congr 2
    omega
  rw [toNat_busWord]
  simp only [getWord, BitVec.extractLsb'_toNat, Nat.shiftRight_eq_div_pow, hshift,
    show 8 * (4 * i) = 32 * i by omega]
  generalize v.toNat / 2 ^ (32 * i) = n
  omega

/-- The mask of the last byte is the mask of the word (43_sponge.md R103). -/
theorem busWord_mask (b0 b1 b2 b3 : Byte) :
    busWord b0 b1 b2 (b3 &&& 0x7F#8) = busWord b0 b1 b2 b3 &&& 0x7FFFFFFF#32 := by
  have hmask : (0x7FFFFFFF#32 : Word) = 0x7F#8 ++ 0xFF#8 ++ 0xFF#8 ++ 0xFF#8 := rfl
  have hff (b : Byte) : b &&& 0xFF#8 = b := BitVec.and_allOnes
  rw [hmask, busWord, busWord, BitVec.and_append, BitVec.and_append, BitVec.and_append, hff, hff, hff]

/-! ### The stream of blocks (43_sponge.md R105, R106) -/

/-- The first n blocks of a buffer do not depend on what follows them. -/
theorem absorbBlocks_append (P : Params) (n : Nat) (l l' : List Byte) (S : Lanes) (h : 136 * n ≤ l.length) :
    absorbBlocks P n (l ++ l') S = absorbBlocks P n l S := by
  induction n generalizing l S with
  | zero => rfl
  | succ n ih =>
    rw [absorbBlocks, absorbBlocks, List.take_append_of_le_length (by omega), List.drop_append_of_le_length (by omega),
      ih _ _ (by rw [List.length_drop]; omega)]

/-- The last of n + 1 blocks is absorbed after the first n. -/
theorem absorbBlocks_succ_last (P : Params) (n : Nat) (l : List Byte) (S : Lanes) :
    absorbBlocks P (n + 1) l S = absorb P (absorbBlocks P n l S) ((l.drop (136 * n)).take 136) := by
  induction n generalizing l S with
  | zero => rfl
  | succ n ih =>
    rw [absorbBlocks, ih, List.drop_drop, show 136 + 136 * n = 136 * (n + 1) by omega]
    rfl

/-- The padded message is the message, 0x01, and the fill of its last block (43_sponge.md R101). -/
theorem padMessage_eq_append (N : List Byte) : padMessage N = N ++ 0x01#8 :: padFill (N.length % 136) := by
  have hlen : (N ++ [0x01#8]).length = N.length + 1 := by rw [List.length_append, List.length_singleton]
  by_cases hr : N.length % 136 = 135
  · have h0 : ¬ (N ++ [0x01#8]).length % 136 ≠ 0 := by omega
    simp only [padMessage]
    rw [if_neg h0, hr]
    rfl
  · have h0 : (N ++ [0x01#8]).length % 136 ≠ 0 := by omega
    have hzeros : 136 - (N ++ [0x01#8]).length % 136 = 134 - N.length % 136 + 1 := by omega
    simp only [padMessage]
    rw [if_pos h0, hzeros, List.replicate_succ', ← List.append_assoc, List.length_append, List.length_singleton,
      Nat.add_sub_cancel, set_xor_last_zero rfl, padFill_of_le (by omega)]
    simp

/-- The message bytes after the last full block (43_sponge.md R105). -/
def messageTail (N : List Byte) : List Byte := N.drop (136 * (N.length / 136))

theorem length_messageTail (N : List Byte) : (messageTail N).length = N.length % 136 := by
  rw [messageTail, List.length_drop]
  omega

/-- The padded message is its full blocks and the padded tail. -/
theorem padMessage_eq_blocks (N : List Byte) :
    padMessage N = N.take (136 * (N.length / 136)) ++ pad (messageTail N) := by
  rw [pad_eq_append (by rw [length_messageTail]; omega), length_messageTail, ← List.append_assoc, messageTail,
    List.take_append_drop, padMessage_eq_append]

/-- The hash of a message: its full blocks, then its padded tail (43_sponge.md R105). -/
theorem hashFile_eq (P : Params) (N : List Byte) :
    hashFile P N = digestInt (squeeze P (absorb P (absorbBlocks P (N.length / 136) N (Vector.replicate 25 0))
      (pad (messageTail N)))).1 := by
  have hblocks : (N.take (136 * (N.length / 136))).length = 136 * (N.length / 136) := by rw [List.length_take]; omega
  have hpad : (pad (messageTail N)).length = 136 := by
    have htail := length_messageTail N
    rw [pad_eq_append (by omega), List.length_append, List.length_cons, padFill_length (by omega)]
    omega
  have hcount : (padMessage N).length / 136 = N.length / 136 + 1 := by
    rw [padMessage_eq_blocks, List.length_append, hblocks, hpad]
    omega
  have hlast : ((padMessage N).drop (136 * (N.length / 136))).take 136 = pad (messageTail N) := by
    rw [padMessage_eq_blocks, List.drop_left' hblocks, List.take_of_length_le hpad.le]
  rw [hashFile, hcount, absorbBlocks_succ_last, hlast, padMessage_eq_append, absorbBlocks_append _ _ _ _ _ (by omega)]

/-- BUF begins with the bytes that the host wrote (43_sponge.md R105). -/
theorem take_loadBuf {l : List Byte} (h : l.length ≤ 136) (b : Vector Byte 136) :
    (loadBuf l b).toList.take l.length = l := by
  apply List.ext_getElem
  · rw [List.length_take, Vector.length_toList]
    omega
  · intro i h1 h2
    simp [loadBuf, h2]

/-- A full block that the host writes is the whole of BUF. -/
theorem toList_loadBuf {l : List Byte} (h : l.length = 136) (b : Vector Byte 136) : (loadBuf l b).toList = l := by
  have htake := take_loadBuf h.le b
  rwa [List.take_of_length_le (by rw [Vector.length_toList, h])] at htake

/-- The host's full blocks complete without error and are absorbed in order (43_sponge.md R105). -/
theorem streamBlocks_eq (n : Nat) (l : List Byte) (s : State) (h : 136 * n ≤ l.length) :
    ∃ u, streamBlocks n l s = some u ∧ u.params = s.params ∧ u.lanes = absorbBlocks s.params n l s.lanes := by
  induction n generalizing l s with
  | zero => exact ⟨s, rfl, rfl, rfl⟩
  | succ n ih =>
    have hblock : (l.take 136).length = 136 := by rw [List.length_take]; omega
    obtain ⟨u, hu, hparams, hlanes⟩ :=
      ih (l.drop 136) (complete .noError false { s with
        lanes := absorb s.params s.lanes (loadBuf (l.take 136) s.buf).toList, buf := loadBuf (l.take 136) s.buf })
        (by rw [List.length_drop]; omega)
    refine ⟨u, ?_, hparams, ?_⟩
    · rw [streamBlocks, exec_habsorb]
      exact hu
    · rw [hlanes, absorbBlocks, complete_lanes, complete_params, toList_loadBuf hblock]

/-- The host's sequence ends with HFINAL over the tail, once the full blocks are absorbed (43_sponge.md R105). -/
theorem streamMessage_eq {N : List Byte} {s u : State}
    (hu : streamBlocks (N.length / 136) N (complete .noError false { s with lanes := Vector.replicate 25 0 }) = some u) :
    streamMessage N s = some (complete .noError false
      (hfinalOutputs (N.length % 136) { u with buf := loadBuf (messageTail N) u.buf })) := by
  have hlen : (BitVec.ofNat 8 (N.length % 136)).toNat = N.length % 136 := by rw [BitVec.toNat_ofNat]; omega
  simp only [streamMessage, exec_hinit, hu]
  rw [exec_hfinal_of_le (by omega), hlen]
  rfl

end Sys2Proof.Machine
end

section
/-! The statements of the family 43_sponge.md about HFINAL and the hash of a whole message. -/

namespace Sys2Proof.Proofs

open Sys2Proof.Machine Sys2Proof.Safety

/-- Settles O51: the sequence is F iterated from the absorbed tail, and the frame is HFINAL's write set. -/
theorem hfinalSqueezesTheDigest : Obligations.HfinalSqueezesTheDigest := by
  unfold Obligations.HfinalSqueezesTheDigest
  intro s len hlen
  have hexec := exec_hfinal_of_le hlen s
  have hframe := exec_onlyWrites hexec
  refine ⟨_, fun i => (keccakF s.params)^[i] (absorbedTail len.toNat s), hexec, ⟨rfl, rfl, rfl, rfl, rfl⟩, rfl,
    fun i _ => Function.iterate_succ_apply' _ i _, hfinalOutputs_lanes _ s, fun i hi => ?_, fun i hi => ?_, ?_, ?_,
    hframe⟩
  · exact (hfinalOutputs_digest _ s hi).trans (getD_squeeze _ _ hi)
  · exact (hfinalOutputs_h_byte _ s (by omega)).trans (if_neg (by omega))
  · exact hfinalOutputs_h_byte _ s (i := 31) (by omega)
  · rw [complete_num, State.num, hfinalOutputs_reg_h]
    exact digestInt_lt (squeeze_length _ _)

/-- Settles O52: HFINAL reads BUF through the bytes before LEN, and its checks come before any of them. -/
theorem hfinalIgnoresTheRestOfBuf : Obligations.HfinalIgnoresTheRestOfBuf := by
  unfold Obligations.HfinalIgnoresTheRestOfBuf
  refine ⟨fun s len b hlen hb => ?_, fun s len hlen => ?_⟩
  · have htake : b.toList.take len.toNat = s.buf.toList.take len.toNat := by
      apply List.ext_getElem
      · simp only [List.length_take, Vector.length_toList]
      · intro i h1 h2
        rw [List.length_take] at h1
        simpa using hb i (by omega) (by omega)
    rw [exec_hfinal_of_le hlen, exec_hfinal_of_le hlen, hfinalOutputs_setBuf htake]
    rfl
  · exact endsWithError_of_exec_eq (by decide) (exec_hfinal_of_gt hlen s)

/-- Settles O22: the words of H and DIGEST are packed from the same bytes, but for the top bit of the last. -/
theorem digestImageEqualsH : Obligations.DigestImageEqualsH := by
  unfold Obligations.DigestImageEqualsH
  refine ⟨fun s w hw hb => ?_, fun s t len hlen hexec => ?_⟩
  · rw [show offsetOf (0x600 + 4 * w) = Slot.off (.digest ⟨w, hw⟩) from rfl, memRead_off_of_idle hb, ← busWord_eq_ofNat]
    rfl
  · rw [exec_hfinal_of_le hlen] at hexec
    cases hexec
    have hidle : (complete .noError false (hfinalOutputs len.toNat s)).busy = false := rfl
    have hbyte {i : Nat} (hi : i < 32) := hfinalOutputs_h_byte len.toNat s hi
    refine ⟨fun w hw => ?_, ?_⟩
    · rw [show offsetOf (0x3E0 + 4 * w) = Slot.off (.operand .h ⟨w, by omega⟩) by
          rw [Slot.off, slotOffset]; rfl,
        show offsetOf (0x600 + 4 * w) = Slot.off (.digest ⟨w, by omega⟩) from rfl,
        memRead_off_of_idle hidle, memRead_off_of_idle hidle, slotWord_operand (by decide), getWord_eq_busWord]
      simp only [complete_reg]
      rw [hbyte (by omega), hbyte (by omega), hbyte (by omega), hbyte (by omega), if_neg (by omega), if_neg (by omega),
        if_neg (by omega), if_neg (by omega)]
      rfl
    · rw [show offsetOf 0x3FC = Slot.off (.operand .h 7) from rfl, show offsetOf 0x61C = Slot.off (.digest 7) from rfl,
        memRead_off_of_idle hidle, memRead_off_of_idle hidle, slotWord_operand (by decide), getWord_eq_busWord]
      simp only [complete_reg]
      rw [hbyte (by decide), hbyte (by decide), hbyte (by decide), hbyte (by decide), if_neg (by decide),
        if_neg (by decide), if_neg (by decide), if_pos (by decide), busWord_mask]
      rfl

/-- Settles O53: the stream absorbs the full blocks and the padded tail of `hashFile_eq`. -/
theorem streamingComputesTheHash : Obligations.StreamingComputesTheHash := by
  unfold Obligations.StreamingComputesTheHash
  intro N s
  obtain ⟨u, hu, hparams, hlanes⟩ := streamBlocks_eq (N.length / 136) N
    (complete .noError false { s with lanes := Vector.replicate 25 0 }) (by omega)
  refine ⟨_, streamMessage_eq hu, ?_⟩
  have htail := length_messageTail N
  have hbuf := take_loadBuf (show (messageTail N).length ≤ 136 by omega) u.buf
  rw [htail] at hbuf
  rw [complete_reg, hfinalOutputs_reg_h, absorbedTail, hbuf, hashFile_eq]
  simp only [hparams, hlanes, complete_params, complete_lanes]

end Sys2Proof.Proofs
end

section
/-! SUPPORT. The checks of SIGN and VERIFY, the attempts of SIGN, and how each of them completes. -/

namespace Sys2Proof.Machine

open Sys2Proof.Safety

/-! ### The checks (44_ecdsa.md R109, R113) -/

/-- Items 1 to 3 of the checks hold (44_ecdsa.md R109). -/
def DomainContext (s : State) : Prop :=
  3 ≤ s.num .cp ∧ 2 ≤ s.num .cq ∧ s.num .gx < s.num .cp ∧ s.num .gy < s.num .cp

theorem contextChecks_ok {s : State} (h : DomainContext s) : contextChecks s = .ok () := by
  obtain ⟨hp, hq, hx, hy⟩ := h
  rw [contextChecks, checkPrime_eq_ok.2 hp, if_neg (by omega), State.basePoint, checkPoint_affine.2 ⟨hx, hy⟩]
  rfl

theorem contextChecks_error {s : State} (h : ¬ DomainContext s) : contextChecks s = .error .range := by
  unfold contextChecks
  by_cases hp : 3 ≤ s.num .cp
  case neg => rw [checkPrime_error (by omega)]; rfl
  rw [checkPrime_eq_ok.2 hp]
  by_cases hq : s.num .cq < 2
  · rw [if_pos hq]; rfl
  · have hG : s.num .cp ≤ s.num .gx ∨ s.num .cp ≤ s.num .gy := by
      by_contra hlt
      exact h ⟨hp, by omega, by omega, by omega⟩
    rw [if_neg hq, State.basePoint, checkPoint_error hG]
    rfl

theorem checkScalar_ok {q v : Nat} (h : 1 ≤ v ∧ v < q) : checkScalar q v = .ok () := if_pos h

theorem checkScalar_error {q v : Nat} (h : ¬ (1 ≤ v ∧ v < q)) : checkScalar q v = .error .range := if_neg h

/-- K is in range where it is the nonce (44_ecdsa.md R109, item 5). -/
def NonceContext (k : NonceSource) (s : State) : Prop := k = .registerK → 1 ≤ s.num .k ∧ s.num .k < s.num .cq

theorem signContext_iff {s : State} : SignContext s ↔ DomainContext s ∧ 1 ≤ s.num .d ∧ s.num .d < s.num .cq := by
  simp only [SignContext, DomainContext, and_assoc]

theorem signChecks_ok {k : NonceSource} {s : State} (h : SignContext s) (hk : NonceContext k s) :
    signChecks k s = .ok () := by
  obtain ⟨hdomain, hd⟩ := signContext_iff.1 h
  simp only [signChecks, contextChecks_ok hdomain, checkScalar_ok hd]
  cases k with
  | entropy => rfl
  | registerK => exact checkScalar_ok (hk rfl)

theorem signChecks_error {k : NonceSource} {s : State} (h : ¬ (SignContext s ∧ NonceContext k s)) :
    signChecks k s = .error .range := by
  simp only [signChecks]
  by_cases hdomain : DomainContext s
  case neg => rw [contextChecks_error hdomain]; rfl
  rw [contextChecks_ok hdomain]
  by_cases hd : 1 ≤ s.num .d ∧ s.num .d < s.num .cq
  case neg => rw [checkScalar_error hd]; rfl
  rw [checkScalar_ok hd]
  cases k with
  | entropy => exact absurd ⟨signContext_iff.2 ⟨hdomain, hd⟩, nofun⟩ h
  | registerK => exact checkScalar_error fun hk => h ⟨signContext_iff.2 ⟨hdomain, hd⟩, fun _ => hk⟩

/-! ### The reduced digest (44_ecdsa.md R108) -/

theorem digestOf_range {s : State} (hq : 2 ≤ s.num .cq) : 1 ≤ digestOf s ∧ digestOf s < s.num .cq := by
  have := Nat.mod_lt (s.num .h) (show 0 < s.num .cq by omega)
  unfold digestOf
  split <;> omega

/-! ### One attempt (44_ecdsa.md R111, R112) -/

section
variable {s : State} {k : Nat} (hk : 1 ≤ k)
include hk

theorem attemptWith_of_loop_error {code : ErrCode}
    (h : scalarMulLoop (s.num .cp) (s.num .ca) s.basePoint k = .error code) :
    attemptWith s (digestOf s) k = .failed code := by
  rw [attemptWith, scalarMul_eq_loop _ _ _ hk, h]

/-- An attempt whose multiplication gives an affine point, by r and s. -/
theorem attemptWith_of_affine {x y : Nat}
    (h : scalarMulLoop (s.num .cp) (s.num .ca) s.basePoint k = .ok (.affine x y)) :
    attemptWith s (digestOf s) k =
      if x % s.num .cq = 0 then .rejected
      else if sigOf s (x % s.num .cq) k = 0 then .rejected
      else .signed (x % s.num .cq) (sigOf s (x % s.num .cq) k) := by
  rw [attemptWith, scalarMul_eq_loop _ _ _ hk, h]
  rfl

theorem attemptWith_of_signsWith {r sig : Nat} (h : SignsWith s k r sig) :
    attemptWith s (digestOf s) k = .signed r sig := by
  obtain ⟨⟨x, y, hloop, rfl⟩, hr, rfl, hs⟩ := h
  rw [attemptWith_of_affine hk hloop, if_neg hr, if_neg hs]

theorem attemptWith_of_rejects (h : Rejects s k) : attemptWith s (digestOf s) k = .rejected := by
  rcases h with hloop | ⟨x, y, hloop, hzero⟩
  · rw [attemptWith, scalarMul_eq_loop _ _ _ hk, hloop]
    rfl
  · rw [attemptWith_of_affine hk hloop]
    split
    · rfl
    · next hr => exact if_pos (hzero.resolve_left hr)

end

/-- Every nonce gives a signature, is rejected, or meets an error of the multiplication. -/
theorem nonce_cases (s : State) (k : Nat) :
    (∃ code, scalarMulLoop (s.num .cp) (s.num .ca) s.basePoint k = .error code) ∨ Rejects s k ∨
      ∃ r sig, SignsWith s k r sig := by
  cases hR : scalarMulLoop (s.num .cp) (s.num .ca) s.basePoint k with
  | error code => exact .inl ⟨code, rfl⟩
  | ok R =>
    right
    cases R with
    | infinity => exact .inl (.inl hR)
    | affine x y =>
      by_cases hzero : x % s.num .cq = 0 ∨ sigOf s (x % s.num .cq) k = 0
      · exact .inl (.inr ⟨x, y, hR, hzero⟩)
      · rw [not_or] at hzero
        exact .inr ⟨_, _, ⟨x, y, hR, rfl⟩, hzero.1, rfl, hzero.2⟩

/-- What an attempt answers says how its nonce fares: `nonce_cases`, read backwards. -/
theorem rejects_of_attemptWith {s : State} {k : Nat} (hk : 1 ≤ k) (h : attemptWith s (digestOf s) k = .rejected) :
    Rejects s k := by
  rcases nonce_cases s k with ⟨code, hcode⟩ | hrej | ⟨r, sig, hsig⟩
  · rw [attemptWith_of_loop_error hk hcode] at h; cases h
  · exact hrej
  · rw [attemptWith_of_signsWith hk hsig] at h; cases h

theorem signsWith_of_attemptWith {s : State} {k r sig : Nat} (hk : 1 ≤ k)
    (h : attemptWith s (digestOf s) k = .signed r sig) : SignsWith s k r sig := by
  rcases nonce_cases s k with ⟨code, hcode⟩ | hrej | ⟨r', sig', hsig⟩
  · rw [attemptWith_of_loop_error hk hcode] at h; cases h
  · rw [attemptWith_of_rejects hk hrej] at h; cases h
  · rw [attemptWith_of_signsWith hk hsig] at h; cases h; exact hsig

theorem loop_error_of_attemptWith {s : State} {k : Nat} {code : ErrCode} (hk : 1 ≤ k)
    (h : attemptWith s (digestOf s) k = .failed code) :
    scalarMulLoop (s.num .cp) (s.num .ca) s.basePoint k = .error code := by
  rcases nonce_cases s k with ⟨code', hcode⟩ | hrej | ⟨r, sig, hsig⟩
  · rw [attemptWith_of_loop_error hk hcode] at h; cases h; exact hcode
  · rw [attemptWith_of_rejects hk hrej] at h; cases h
  · rw [attemptWith_of_signsWith hk hsig] at h; cases h

/-- The one error of the multiplication is no success. -/
theorem loop_error_ne {p a k : Nat} {P : Point} {code : ErrCode} (hk : 1 ≤ k)
    (h : scalarMulLoop p a P k = .error code) : code ≠ .noError := by
  rw [← scalarMul_eq_loop _ _ _ hk] at h
  rw [scalarMul_error_eq hk h]
  decide

/-- A signature is made of numbers in [1, q - 1] (44_ecdsa.md R111). -/
theorem range_of_signsWith {s : State} {k r sig : Nat} (hq : 2 ≤ s.num .cq) (h : SignsWith s k r sig) :
    (1 ≤ r ∧ r < s.num .cq) ∧ 1 ≤ sig ∧ sig < s.num .cq := by
  obtain ⟨⟨x, y, -, rfl⟩, hr, rfl, hs⟩ := h
  exact ⟨⟨Nat.pos_of_ne_zero hr, Nat.mod_lt _ (by omega)⟩, Nat.pos_of_ne_zero hs, Nat.mod_lt _ (by omega)⟩

/-! ### The attempts of SIGN, for either nonce source (44_ecdsa.md R110, R111) -/

/-- The nonce of attempt number j, from 0. -/
def nonceAt (k : NonceSource) (s : State) (j : Nat) : Nat :=
  match k with
  | .entropy => draw s.fresh (s.num .cq) j
  | .registerK => s.num .k

/-- How many attempts the nonce source allows. -/
def attemptCap (k : NonceSource) (s : State) : Nat :=
  match k with
  | .entropy => s.params.maxAttempts
  | .registerK => 1

/-- The error of the last attempt that the source allows, where it is rejected. -/
def limitCode : NonceSource → ErrCode
  | .entropy => .retryLimit
  | .registerK => .nonceRejected

theorem attemptCap_le (k : NonceSource) (s : State) : attemptCap k s ≤ s.params.maxAttempts := by
  cases k with
  | entropy => exact le_rfl
  | registerK => exact s.params.maxAttempts_pos

theorem limitCode_ne (k : NonceSource) : limitCode k ≠ .noError := by cases k <;> decide

/-- A draw lies in [1, q - 1] (44_ecdsa.md R110). -/
theorem draw_range {q : Nat} (hq : 2 ≤ q) (index j : Nat) : 1 ≤ draw index q j ∧ draw index q j < q := by
  have := Nat.mod_lt (Config.entropy index j) (show 0 < q - 1 by omega)
  unfold draw
  omega

theorem nonceAt_range {k : NonceSource} {s : State} (h : SignContext s) (hk : NonceContext k s) (j : Nat) :
    1 ≤ nonceAt k s j ∧ nonceAt k s j < s.num .cq := by
  obtain ⟨-, hq, -⟩ := h
  cases k with
  | entropy => exact draw_range hq _ j
  | registerK => exact hk rfl

/-- What the attempts of SIGN can do: all before the last were rejected, and the last one signed, or met an error, or
was the last that the source allows. -/
theorem signRun_spec (k : NonceSource) (s : State) :
    ∃ j, j < attemptCap k s ∧ (signRun k s).1 = j + 1 ∧
      (∀ i, i < j → attemptWith s (digestOf s) (nonceAt k s i) = .rejected) ∧
      ((∃ r sig, attemptWith s (digestOf s) (nonceAt k s j) = .signed r sig ∧ (signRun k s).2 = .ok (r, sig)) ∨
        (∃ code, attemptWith s (digestOf s) (nonceAt k s j) = .failed code ∧ (signRun k s).2 = .error code) ∨
        (j + 1 = attemptCap k s ∧ attemptWith s (digestOf s) (nonceAt k s j) = .rejected ∧
          (signRun k s).2 = .error (limitCode k))) := by
  cases k with
  | entropy =>
    have h := retryLoop_spec (draw s.fresh (s.num .cq)) (attemptWith s (digestOf s)) _ 0 s.params.maxAttempts_pos
    simp only [Nat.zero_add] at h
    exact h
  | registerK =>
    have hrun : signRun .registerK s = singleAttempt (attemptWith s (digestOf s) (s.num .k)) := rfl
    refine ⟨0, Nat.zero_lt_one, ?_, nofun, ?_⟩
    · rw [hrun]
      cases attemptWith s (digestOf s) (s.num .k) <;> rfl
    · rw [hrun]
      simp only [nonceAt]
      cases attemptWith s (digestOf s) (s.num .k) with
      | signed r sig => exact .inl ⟨r, sig, rfl, rfl⟩
      | failed code => exact .inr (.inl ⟨code, rfl, rfl⟩)
      | rejected => exact .inr (.inr ⟨rfl, rfl, rfl⟩)

/-! ### The completion of SIGN (44_ecdsa.md R111; 60_exceptions.md R122, R123) -/

/-- The state with a signature written. -/
def signedState (s : State) (n r sig : Nat) : State :=
  (((s.setAttempts n).setNum .sr r).setNum .ss sig).setNum .e (digestOf s)

theorem exec_sign_of_checks_error {k : NonceSource} {s : State} {c : ErrCode} (h : signChecks k s = .error c) :
    exec (.sign k) s = .next (complete c false (s.setAttempts 0)) := by
  rw [exec, execSign, h]
  rfl

theorem exec_sign_of_run_ok {k : NonceSource} {s : State} {r sig : Nat} (h : signChecks k s = .ok ())
    (hrun : (signRun k s).2 = .ok (r, sig)) :
    exec (.sign k) s = .next (complete .noError false (signedState s (signRun k s).1 r sig)) := by
  simp only [exec, execSign, h, hrun]
  rfl

theorem exec_sign_of_run_error {k : NonceSource} {s : State} {c : ErrCode} (h : signChecks k s = .ok ())
    (hrun : (signRun k s).2 = .error c) :
    exec (.sign k) s = .next (complete c false (s.setAttempts (signRun k s).1)) := by
  simp only [exec, execSign, h, hrun]
  rfl

/-- SIGN ended with an error after n attempts: ATTEMPTS alone is written. -/
theorem failedSign {s : State} {c : ErrCode} (hc : c ≠ .noError) {n : Nat} (hn : n ≤ s.params.maxAttempts) :
    Completed (complete c false (s.setAttempts n)) c false ∧ (complete c false (s.setAttempts n)).attempts.toNat = n ∧
      OnlyWrites s (complete c false (s.setAttempts n)) [.attempts] :=
  ⟨completed_complete hc false _, toNat_setAttempts hn,
    ((OnlyWrites.refl s _).setAttempts (List.mem_singleton_self _) n).complete c false⟩

/-- The numbers in the registers after a signature is written. -/
theorem signedState_num {s : State} {n r sig : Nat} (hq : 2 ≤ s.num .cq) (hr : r < s.num .cq) (hs : sig < s.num .cq)
    (x : OpReg) : (signedState s n r sig).num x =
      if x = .e then digestOf s else if x = .ss then sig else if x = .sr then r else s.num x := by
  have hlt := s.num_lt .cq
  obtain ⟨-, he⟩ := digestOf_range hq
  rw [signedState, State.num_setNum _ _ _ (he.trans hlt), State.num_setNum _ _ _ (hs.trans hlt),
    State.num_setNum _ _ _ (hr.trans hlt), State.setAttempts_num]

/-- What a successful SIGN leaves behind. -/
def Signed (s t : State) (n r sig : Nat) : Prop :=
  Completed t .noError false ∧ t.num .sr = r ∧ t.num .ss = sig ∧ t.num .e = digestOf s ∧ t.attempts.toNat = n ∧
    OnlyWrites s t [.reg .sr, .reg .ss, .reg .e, .attempts]

theorem signed_signedState {s : State} {k n r sig : Nat} (hq : 2 ≤ s.num .cq) (h : SignsWith s k r sig)
    (hn : n ≤ s.params.maxAttempts) : Signed s (complete .noError false (signedState s n r sig)) n r sig := by
  obtain ⟨⟨-, hr⟩, -, hs⟩ := range_of_signsWith hq h
  have hnum := signedState_num (n := n) hq hr hs
  refine ⟨⟨rfl, rfl, rfl, rfl, rfl⟩, ?_, ?_, ?_, toNat_setAttempts hn, ?_⟩
  · exact (hnum .sr).trans rfl
  · exact (hnum .ss).trans rfl
  · exact (hnum .e).trans rfl
  · have start := OnlyWrites.refl s [.reg .sr, .reg .ss, .reg .e, .attempts]
    exact ((((start.setAttempts (by simp) n).setNum (by simp) r).setNum (by simp) sig).setNum (by simp) _).complete _ _

/-- The outcome of SIGN in a signing context: j rejected attempts, and one more, which signs, or meets the error of the
multiplication, or is the last that the source allows and is rejected too. -/
theorem exec_sign_spec {k : NonceSource} {s : State} (h : SignContext s) (hk : NonceContext k s) :
    ∃ t j, exec (.sign k) s = .next t ∧ j < attemptCap k s ∧ t.attempts.toNat = j + 1 ∧
      (∀ i, i < j → Rejects s (nonceAt k s i)) ∧
      ((∃ r sig, SignsWith s (nonceAt k s j) r sig ∧ Signed s t (j + 1) r sig) ∨
        (∃ code, scalarMulLoop (s.num .cp) (s.num .ca) s.basePoint (nonceAt k s j) = .error code ∧
          Completed t code false ∧ OnlyWrites s t [.attempts]) ∨
        (j + 1 = attemptCap k s ∧ Rejects s (nonceAt k s j) ∧ Completed t (limitCode k) false ∧
          OnlyWrites s t [.attempts])) := by
  have hchecks := signChecks_ok h hk
  have hnonce (j : Nat) := (nonceAt_range h hk j).1
  obtain ⟨j, hj, hn, hbefore, hlast⟩ := signRun_spec k s
  have hrejected (i : Nat) (hi : i < j) := rejects_of_attemptWith (hnonce i) (hbefore i hi)
  have hle : j + 1 ≤ s.params.maxAttempts := (Nat.succ_le_of_lt hj).trans (attemptCap_le k s)
  rcases hlast with ⟨r, sig, ha, hrun⟩ | ⟨code, ha, hrun⟩ | ⟨hcap, ha, hrun⟩
  · have hexec := exec_sign_of_run_ok hchecks hrun
    rw [hn] at hexec
    have hsig := signsWith_of_attemptWith (hnonce j) ha
    obtain ⟨-, hq, -⟩ := h
    have hsigned := signed_signedState hq hsig hle
    exact ⟨_, j, hexec, hj, toNat_setAttempts hle, hrejected, .inl ⟨_, _, hsig, hsigned⟩⟩
  · have hexec := exec_sign_of_run_error hchecks hrun
    rw [hn] at hexec
    have hloop := loop_error_of_attemptWith (hnonce j) ha
    obtain ⟨hdone, hatt, hframe⟩ := failedSign (loop_error_ne (hnonce j) hloop) hle
    exact ⟨_, j, hexec, hj, hatt, hrejected, .inr (.inl ⟨code, hloop, hdone, hframe⟩)⟩
  · have hexec := exec_sign_of_run_error hchecks hrun
    rw [hn] at hexec
    obtain ⟨hdone, hatt, hframe⟩ := failedSign (limitCode_ne k) hle
    exact ⟨_, j, hexec, hj, hatt, hrejected, .inr (.inr ⟨hcap, rejects_of_attemptWith (hnonce j) ha, hdone, hframe⟩)⟩

/-- A SIGN that completes without error passed its checks and signed with some nonce in range. -/
theorem exec_sign_noError {k : NonceSource} {s t : State} (h : exec (.sign k) s = .next t) (ht : t.errcode = .noError) :
    SignContext s ∧ ∃ nonce n r sig, (1 ≤ nonce ∧ nonce < s.num .cq) ∧ SignsWith s nonce r sig ∧ Signed s t n r sig := by
  by_cases hctx : SignContext s ∧ NonceContext k s
  case neg =>
    rw [exec_sign_of_checks_error (signChecks_error hctx)] at h
    cases h
    cases ht
  obtain ⟨hsign, hnonce⟩ := hctx
  refine ⟨hsign, ?_⟩
  obtain ⟨t', j, hexec, -, -, -, hlast⟩ := exec_sign_spec hsign hnonce
  rw [hexec] at h
  cases h
  have hrange := nonceAt_range hsign hnonce j
  rcases hlast with ⟨r, sig, hsig, hsigned⟩ | ⟨code, hloop, ⟨hcode, -⟩, -⟩ | ⟨-, -, ⟨hcode, -⟩, -⟩
  · exact ⟨_, _, r, sig, hrange, hsig, hsigned⟩
  · exact absurd (hcode.symm.trans ht) (loop_error_ne hrange.1 hloop)
  · exact absurd (hcode.symm.trans ht) (limitCode_ne k)

end Sys2Proof.Machine
end

section
/-! The statements of the family 44_ecdsa.md about SIGN, and the range checks of the curve commands. -/

namespace Sys2Proof.Proofs

open Sys2Proof.Machine Sys2Proof.Safety

/-- Settles O54: the one attempt with K ends as the multiplication by K does. -/
theorem signWithTheHostsNonce : Obligations.SignWithTheHostsNonce := by
  unfold Obligations.SignWithTheHostsNonce
  intro s h hk hkq
  have hchecks : signChecks .registerK s = .ok () := signChecks_ok h fun _ => ⟨hk, hkq⟩
  have hle := s.params.maxAttempts_pos
  have hrun {a : Attempt} (ha : attemptWith s (digestOf s) (s.num .k) = a) :
      signRun .registerK s = singleAttempt a := ha ▸ rfl
  refine ⟨fun r sig hsig => ?_, fun hrej => ?_, fun code hcode => ?_⟩
  · have hrun := hrun (attemptWith_of_signsWith hk hsig)
    have hexec := exec_sign_of_run_ok (r := r) (sig := sig) hchecks (by rw [hrun]; rfl)
    obtain ⟨-, hq, -⟩ := h
    rw [hrun] at hexec
    exact ⟨_, hexec, signed_signedState hq hsig hle⟩
  · have hrun := hrun (attemptWith_of_rejects hk hrej)
    have hexec := exec_sign_of_run_error (c := .nonceRejected) hchecks (by rw [hrun]; rfl)
    rw [hrun] at hexec
    exact ⟨_, hexec, failedSign (by decide) hle⟩
  · have hrun := hrun (attemptWith_of_loop_error hk hcode)
    have hexec := exec_sign_of_run_error (c := code) hchecks (by rw [hrun]; rfl)
    rw [hrun] at hexec
    exact ⟨_, hexec, failedSign (loop_error_ne hk hcode) hle⟩

/-- Settles O55: `exec_sign_spec` for the entropy source, whose draws lie in [1, q - 1]. -/
theorem signWithTheEntropySource : Obligations.SignWithTheEntropySource := by
  unfold Obligations.SignWithTheEntropySource
  intro s h
  obtain ⟨t, j, hexec, hj, hatt, hbefore, hlast⟩ := exec_sign_spec (k := .entropy) h nofun
  obtain ⟨-, hq, -⟩ := h
  refine ⟨t, j + 1, hexec, by omega, hj, hatt, draw_range hq s.fresh, hbefore, ?_⟩
  rcases hlast with ⟨r, sig, hsig, hdone, hr, hs, he, -, hframe⟩ | hfailed | hlimit
  · exact .inl ⟨r, sig, hsig, hdone, hr, hs, he, hframe⟩
  · exact .inr (.inl hfailed)
  · exact .inr (.inr hlimit)

/-- Settles O56: a failed check of SIGN raises RANGE before any attempt. -/
theorem signRangeChecks : Obligations.SignRangeChecks := by
  unfold Obligations.SignRangeChecks
  intro s k h
  have hctx : ¬ (SignContext s ∧ NonceContext k s) := by
    rintro ⟨hsign, hnonce⟩
    rcases h with h | ⟨hk, h⟩
    · exact h hsign
    · exact h (hnonce hk)
  exact ⟨_, exec_sign_of_checks_error (signChecks_error hctx), failedSign (by decide) (Nat.zero_le _)⟩

/-- Settles O57: a SIGN without error wrote a signature (`exec_sign_noError`), and E the reduced digest. -/
theorem signaturesAreInRange : Obligations.SignaturesAreInRange := by
  unfold Obligations.SignaturesAreInRange
  intro s t k h ht
  obtain ⟨⟨-, hq, -⟩, nonce, n, r, sig, -, hsig, -, hr, hs, he, -⟩ := exec_sign_noError h ht
  obtain ⟨⟨hr1, hrq⟩, hs1, hsq⟩ := range_of_signsWith hq hsig
  obtain ⟨he1, heq⟩ := digestOf_range hq
  rw [hr, hs, he]
  exact ⟨hr1, hrq, hs1, hsq, he1, heq, fun h0 => if_neg h0, fun h0 => if_pos h0⟩

end Sys2Proof.Proofs
end

section
/-! SUPPORT. The checks, the scalars and the verdict of VERIFY, and how it completes. -/

namespace Sys2Proof.Machine

open Sys2Proof.Safety

/-! ### VERIFY's checks (44_ecdsa.md R113) -/

/-- p, q, G and Q are in range. -/
def KeyContext (s : State) : Prop := DomainContext s ∧ s.num .qx < s.num .cp ∧ s.num .qy < s.num .cp

/-- r and s are in [1, q - 1]. -/
def SignatureInRange (s : State) : Prop :=
  1 ≤ s.num .sr ∧ s.num .sr < s.num .cq ∧ 1 ≤ s.num .ss ∧ s.num .ss < s.num .cq

theorem verifyContext_iff {s : State} : VerifyContext s ↔ KeyContext s ∧ SignatureInRange s := by
  simp only [VerifyContext, KeyContext, SignatureInRange, DomainContext, and_assoc]

theorem verifyChecks_of_not_key {s : State} (h : ¬ KeyContext s) : verifyChecks s = .error .range := by
  simp only [verifyChecks]
  by_cases hdomain : DomainContext s
  · have hQ : s.num .cp ≤ s.num .qx ∨ s.num .cp ≤ s.num .qy := by
      by_contra hlt
      exact h ⟨hdomain, by omega, by omega⟩
    rw [contextChecks_ok hdomain, State.publicPoint, checkPoint_error hQ]
    rfl
  · rw [contextChecks_error hdomain]
    rfl

theorem verifyChecks_of_not_signature {s : State} (h : KeyContext s) (hsig : ¬ SignatureInRange s) :
    verifyChecks s = .error .malformedSignature := by
  obtain ⟨hdomain, hQ⟩ := h
  simp only [verifyChecks]
  rw [contextChecks_ok hdomain, State.publicPoint, checkPoint_affine.2 hQ, if_pos (by unfold SignatureInRange at hsig; omega)]
  rfl

theorem verifyChecks_ok {s : State} (h : VerifyContext s) : verifyChecks s = .ok () := by
  obtain ⟨⟨hdomain, hQ⟩, hr1, hrq, hs1, hsq⟩ := verifyContext_iff.1 h
  simp only [verifyChecks]
  rw [contextChecks_ok hdomain, State.publicPoint, checkPoint_affine.2 hQ, if_neg (by omega)]
  rfl

/-! ### The scalars z1 and z2 (44_ecdsa.md R114) -/

/-- Times the inverse of a number, no number in [1, q - 1] is 0 mod q, whatever q. -/
theorem mul_inverse_mod_ne_zero {e v x q : Nat} (hv : e * v % q = 1) (hx : 1 ≤ x) (hxq : x < q) : x * v % q ≠ 0 := by
  intro h0
  have hdvd : q ∣ x * (e * v) := by
    rw [show x * (e * v) = x * v * e by ring]
    exact (Nat.dvd_of_mod_eq_zero h0).mul_right e
  rw [← Nat.div_add_mod (e * v) q, hv, Nat.mul_add, Nat.mul_one, Nat.mul_left_comm] at hdvd
  exact absurd (Nat.le_of_dvd hx ((Nat.dvd_add_right (Nat.dvd_mul_right q _)).1 hdvd)) (by omega)

/-- The negated residue is the one number below q that makes 0 with it. -/
theorem eq_neg_mod {z n q : Nat} (hz : z < q) (h : (z + n) % q = 0) : z = (q - n % q) % q := by
  have hn := Nat.mod_lt n (show 0 < q by omega)
  rw [Nat.add_mod, Nat.mod_eq_of_lt hz] at h
  obtain ⟨c, hc⟩ := Nat.dvd_of_mod_eq_zero h
  have hc2 : c < 2 := by
    by_contra hge
    have := Nat.mul_le_mul_left q (show 2 ≤ c by omega)
    omega
  interval_cases c
  · rw [show z = 0 by omega, show n % q = 0 by omega, Nat.sub_zero, Nat.mod_self]
  · rw [Nat.mod_eq_of_lt (by omega)]
    omega

/-- The scalar of G, from the inverse v of e. -/
def verifyZ1 (s : State) (v : Nat) : Nat := s.num .ss * v % s.num .cq

/-- The scalar of Q. -/
def verifyZ2 (s : State) (v : Nat) : Nat := (s.num .cq - s.num .sr * v % s.num .cq) % s.num .cq

/-- Where e has an inverse, neither scalar is 0 (44_ecdsa.md R115). -/
theorem verifyZ_ne_zero {s : State} {v : Nat} (h : VerifyContext s) (hv : digestOf s * v % s.num .cq = 1) :
    verifyZ1 s v ≠ 0 ∧ verifyZ2 s v ≠ 0 := by
  obtain ⟨-, hr1, hrq, hs1, hsq⟩ := verifyContext_iff.1 h
  have hr := mul_inverse_mod_ne_zero hv hr1 hrq
  have hlt := Nat.mod_lt (s.num .sr * v) (show 0 < s.num .cq by omega)
  refine ⟨mul_inverse_mod_ne_zero hv hs1 hsq, ?_⟩
  rw [verifyZ2, Nat.mod_eq_of_lt (by omega)]
  omega

/-! ### The verdict (44_ecdsa.md R114, R115) -/

/-- The point C of R114, or the first error of z1·G, z2·Q and their sum. -/
def verifyPoint (s : State) (z1 z2 : Nat) : Except ErrCode Point := do
  let X1 ← scalarMul (s.num .cp) (s.num .ca) s.basePoint z1
  let X2 ← scalarMul (s.num .cp) (s.num .ca) s.publicPoint z2
  pointAdd (s.num .cp) (s.num .ca) X1 X2

/-- Whether C confirms r. -/
def accepts (s : State) : Point → Bool
  | .infinity => false
  | .affine x _ => decide (x % s.num .cq = s.num .sr)

theorem accepts_iff {s : State} {C : Point} :
    accepts s C = true ↔ ∃ x y, C = .affine x y ∧ x % s.num .cq = s.num .sr := by
  cases C <;> simp [accepts]

/-- Where e has no inverse, there is no verdict. -/
theorem verdict_of_finv_error {s : State} {e : ErrCode} (h : finv (digestOf s) (s.num .cq) = .error e) :
    verdict s = .error e := by
  have h' : finv (reducedDigest (s.num .h) (s.num .cq)) (s.num .cq) = .error e := h
  simp only [verdict, h']
  rfl

/-- Where e has the inverse v, the verdict is whether C confirms r, or C's error. -/
theorem verdict_of_finv_ok {s : State} {v : Nat} (h : finv (digestOf s) (s.num .cq) = .ok v)
    (hz : verifyZ1 s v ≠ 0 ∧ verifyZ2 s v ≠ 0) :
    verdict s = verifyPoint s (verifyZ1 s v) (verifyZ2 s v) >>= fun C => .ok (accepts s C) := by
  have h' : finv (reducedDigest (s.num .h) (s.num .cq)) (s.num .cq) = .ok v := h
  have hz' : ¬ (s.num .ss * v % s.num .cq = 0 ∨ (s.num .cq - s.num .sr * v % s.num .cq) % s.num .cq = 0) :=
    not_or.2 hz
  simp only [verdict, h', verifyPoint, verifyZ1, verifyZ2, bind, Except.bind, hz', if_false]
  cases scalarMul (s.num .cp) (s.num .ca) s.basePoint (s.num .ss * v % s.num .cq) with
  | error e => rfl
  | ok X1 =>
    dsimp only
    cases scalarMul (s.num .cp) (s.num .ca) s.publicPoint
      ((s.num .cq - s.num .sr * v % s.num .cq) % s.num .cq) with
    | error e => rfl
    | ok X2 =>
      dsimp only
      cases pointAdd (s.num .cp) (s.num .ca) X1 X2 with
      | error e => rfl
      | ok C => cases C <;> rfl

/-- What `finv` answers is an inverse (40_modular.md R70). -/
theorem mul_mod_of_finv_ok {u m v : Nat} (hm : 1 ≤ m) (h : finv u m = .ok v) : u * v % m = 1 % m := by
  by_cases hgcd : Nat.gcd u m = 1
  case neg => rw [finv_error hgcd] at h; cases h
  obtain ⟨w, hw, -, hinv⟩ := finv_ok hm hgcd
  rw [hw] at h
  cases h
  exact hinv

/-- A computation that fails, fails at its first step or after it. -/
theorem bind_eq_error {α β : Type} {x : Except ErrCode α} {f : α → Except ErrCode β} {e : ErrCode}
    (h : x >>= f = .error e) : x = .error e ∨ ∃ a, x = .ok a ∧ f a = .error e := by
  cases x with
  | error e' => cases h; exact .inl rfl
  | ok a => exact .inr ⟨a, rfl, h⟩

/-- The point C has the one error of point arithmetic. -/
theorem verifyPoint_error_eq {s : State} {z1 z2 : Nat} (hz1 : z1 ≠ 0) (hz2 : z2 ≠ 0) {e : ErrCode}
    (h : verifyPoint s z1 z2 = .error e) : e = .notInvertible := by
  rcases bind_eq_error h with h | ⟨X1, -, h⟩
  · exact scalarMul_error_eq (Nat.pos_of_ne_zero hz1) h
  rcases bind_eq_error h with h | ⟨X2, -, h⟩
  · exact scalarMul_error_eq (Nat.pos_of_ne_zero hz2) h
  · exact pointAdd_error_eq h

/-- After the checks NOT_INVERTIBLE is the one error of VERIFY: SCALAR_ZERO never comes up (44_ecdsa.md R115). -/
theorem verdict_error_eq {s : State} (hs : VerifyContext s) {e : ErrCode} (h : verdict s = .error e) :
    e = .notInvertible := by
  cases hv : finv (digestOf s) (s.num .cq) with
  | error e' =>
    rw [verdict_of_finv_error hv] at h
    cases h
    exact finv_error_eq hv
  | ok v =>
    have hq : 2 ≤ s.num .cq := hs.2.1
    have hone := mul_mod_of_finv_ok (by omega) hv
    rw [Nat.mod_eq_of_lt (show 1 < s.num .cq by omega)] at hone
    have hz := verifyZ_ne_zero hs hone
    rw [verdict_of_finv_ok hv hz] at h
    rcases bind_eq_error h with h | ⟨C, -, h⟩
    · exact verifyPoint_error_eq hz.1 hz.2 h
    · cases h

/-! ### The completion of VERIFY (44_ecdsa.md R114) -/

theorem exec_verify_of_checks_error {s : State} {c : ErrCode} (h : verifyChecks s = .error c) :
    exec .verify s = .next (complete c false s) := by
  simp only [exec, execVerify, h, raise_eq]

theorem exec_verify_of_verdict_error {s : State} {c : ErrCode} (hs : verifyChecks s = .ok ())
    (h : verdict s = .error c) : exec .verify s = .next (complete c false s) := by
  simp only [exec, execVerify, hs, h, raise_eq]

theorem exec_verify_of_verdict_ok {s : State} {valid : Bool} (hs : verifyChecks s = .ok ())
    (h : verdict s = .ok valid) :
    exec .verify s = .next (complete .noError valid (s.setNum .e (digestOf s))) := by
  simp only [exec, execVerify, hs, h]
  rfl

/-- The ways VERIFY can complete, in the order of its checks (44_ecdsa.md R113 to R115). -/
theorem exec_verify_cases (s : State) :
    exec .verify s = .next (complete .range false s) ∨
      exec .verify s = .next (complete .malformedSignature false s) ∨
      exec .verify s = .next (complete .notInvertible false s) ∨
      ∃ valid, exec .verify s = .next (complete .noError valid (s.setNum .e (digestOf s))) := by
  by_cases hkey : KeyContext s
  case neg => exact .inl (exec_verify_of_checks_error (verifyChecks_of_not_key hkey))
  by_cases hsig : SignatureInRange s
  case neg => exact .inr (.inl (exec_verify_of_checks_error (verifyChecks_of_not_signature hkey hsig)))
  have hs := verifyContext_iff.2 ⟨hkey, hsig⟩
  cases hv : verdict s with
  | error e => exact .inr (.inr (.inl (verdict_error_eq hs hv ▸ exec_verify_of_verdict_error (verifyChecks_ok hs) hv)))
  | ok valid => exact .inr (.inr (.inr ⟨valid, exec_verify_of_verdict_ok (verifyChecks_ok hs) hv⟩))

/-- VERIFY with a verdict: RESULT shows it, and E alone is written. -/
theorem exists_exec_verify {s : State} {valid : Bool} (hs : VerifyContext s) (h : verdict s = .ok valid) :
    ∃ t, exec .verify s = .next t ∧ Completed t .noError valid ∧ t.num .e = digestOf s ∧ OnlyWrites s t [.reg .e] := by
  obtain ⟨-, he⟩ := digestOf_range (s := s) hs.2.1
  have hframe := (OnlyWrites.refl s [.reg .e]).setNum (List.mem_singleton_self _) (digestOf s)
  refine ⟨_, exec_verify_of_verdict_ok (verifyChecks_ok hs) h, ⟨rfl, rfl, Bool.and_true _, rfl, rfl⟩, ?_, hframe.complete _ _⟩
  rw [complete_num, State.num_setNum _ _ _ (he.trans (s.num_lt .cq)), if_pos rfl]

/-- The scalars of the statements about VERIFY are those it computes. -/
theorem verdict_of_inverse {s : State} {v z2 : Nat} (hs : VerifyContext s) (hv : v < s.num .cq)
    (hinv : digestOf s * v % s.num .cq = 1) (hz2 : (z2 + s.num .sr * v) % s.num .cq = 0) (hlt : z2 < s.num .cq) :
    verdict s = verifyPoint s (s.num .ss * v % s.num .cq) z2 >>= fun C => .ok (accepts s C) := by
  have hq : 2 ≤ s.num .cq := hs.2.1
  have hfinv : finv (digestOf s) (s.num .cq) = .ok v :=
    finv_eq_ok (by omega) hv (by rw [hinv, Nat.mod_eq_of_lt (by omega)])
  rw [verdict_of_finv_ok hfinv (verifyZ_ne_zero hs hinv), verifyZ1, verifyZ2, ← eq_neg_mod hlt hz2]

end Sys2Proof.Machine
end

section
/-! The statements of the family 44_ecdsa.md about VERIFY, and the range checks of the curve commands. -/

namespace Sys2Proof.Proofs

open Sys2Proof.Machine Sys2Proof.Safety

/-- Settles O44: the checks come first in the point of each curve command, and in the context of SIGN and VERIFY. -/
theorem curveRangeChecks : Obligations.CurveRangeChecks := by
  unfold Obligations.CurveRangeChecks
  intro s
  have ends {i : Instr} {o : Except ErrCode Point} (h : ComputesPoint i s o) (ho : o = .error .range) :
      EndsWithError i s .range := h.endsWithError ho (by decide)
  refine ⟨fun hp => ?_, fun h1 hP => ?_, fun h2 hQ => ?_⟩
  · have hdomain : ¬ DomainContext s := fun h => absurd h.1 (by omega)
    obtain ⟨hpadd, hpdbl, hpmul⟩ := curvePoint_error_of_prime hp
    refine ⟨ends (computesPoint_padd s) hpadd, ends (computesPoint_pdbl s) hpdbl, ends (computesPoint_pmul s) hpmul,
      ?_, fun k => ?_⟩
    · exact endsWithError_of_exec_eq (by decide)
        (exec_verify_of_checks_error (verifyChecks_of_not_key fun h => hdomain h.1))
    · have hchecks := signChecks_error (k := k) fun h => hdomain (signContext_iff.1 h.1).1
      obtain ⟨hdone, -, hframe⟩ := failedSign (s := s) (c := .range) (by decide) (Nat.zero_le _)
      exact ⟨_, exec_sign_of_checks_error hchecks, hdone, rfl, hframe⟩
  · obtain ⟨hpadd, hpdbl, hpmul⟩ := curvePoint_error_of_p1 (by rw [p1_of_affine h1]; exact checkPoint_error hP)
    exact ⟨ends (computesPoint_padd s) hpadd, ends (computesPoint_pdbl s) hpdbl, ends (computesPoint_pmul s) hpmul⟩
  · exact ends (computesPoint_padd s) (paddPoint_error_of_p2 (by rw [p2_of_affine h2]; exact checkPoint_error hQ))

/-- Settles O58: the verdict is whether C confirms r, at the scalars of the statement (`verdict_of_inverse`). -/
theorem verifyGivesTheVerdict : Obligations.VerifyGivesTheVerdict := by
  unfold Obligations.VerifyGivesTheVerdict
  intro s v z1 z2 X1 X2 C hs hv hinv hz1 hz2 hlt hz1' hz2' hX1 hX2 hC
  have hverdict := verdict_of_inverse hs hv hinv hz2 hlt
  rw [← scalarMul_eq_loop _ _ _ (Nat.pos_of_ne_zero hz1')] at hX1
  rw [← scalarMul_eq_loop _ _ _ (Nat.pos_of_ne_zero hz2')] at hX2
  have hpoint : verifyPoint s z1 z2 = .ok C := by
    rw [verifyPoint, hX1, hX2]
    exact hC
  rw [← hz1, hpoint] at hverdict
  obtain ⟨t, hexec, hdone, he, hframe⟩ := exists_exec_verify hs hverdict
  exact ⟨t, accepts s C, hexec, hdone, he, accepts_iff, hframe⟩

/-- Settles O59: the checks in order, then the inverse of e, then the point C; and `exec_verify_cases` has no
SCALAR_ZERO. -/
theorem verifyErrors : Obligations.VerifyErrors := by
  unfold Obligations.VerifyErrors
  intro s
  have checksError {c : ErrCode} (hc : c ≠ .noError) (h : verifyChecks s = .error c) : EndsWithError .verify s c :=
    endsWithError_of_exec_eq hc (exec_verify_of_checks_error h)
  have verdictError (hs : VerifyContext s) {c : ErrCode} (h : verdict s = .error c) : EndsWithError .verify s c :=
    endsWithError_of_exec_eq (by rw [verdict_error_eq hs h]; decide) (exec_verify_of_verdict_error (verifyChecks_ok hs) h)
  refine ⟨fun h => ?_, fun hp hq hgx hgy hqx hqy h => ?_, fun hs hgcd => ?_, fun t h => ?_,
    fun v z1 z2 code hs hv hinv hz1 hz2 hlt hz1' hz2' h => ?_⟩
  · refine checksError (by decide) (verifyChecks_of_not_key ?_)
    rintro ⟨⟨hp, hq, hgx, hgy⟩, hqx, hqy⟩
    omega
  · refine checksError (by decide) (verifyChecks_of_not_signature ⟨⟨hp, hq, hgx, hgy⟩, hqx, hqy⟩ ?_)
    rintro ⟨hr1, hrq, hs1, hsq⟩
    omega
  · exact verdictError hs (verdict_of_finv_error (finv_error hgcd))
  · rcases exec_verify_cases s with e | e | e | ⟨valid, e⟩ <;> rw [e] at h <;> cases h <;> simp
  · have hverdict := verdict_of_inverse hs hv hinv hz2 hlt
    have hpoint : verifyPoint s z1 z2 = .error code := by
      rw [← scalarMul_eq_loop _ _ _ (Nat.pos_of_ne_zero hz1')] at h
      rw [← scalarMul_eq_loop _ _ _ (Nat.pos_of_ne_zero hz2')] at h
      rw [verifyPoint]
      rcases h with h1 | ⟨X1, h1, h2⟩ | ⟨X1, X2, h1, h2, h3⟩
      · rw [h1]; rfl
      · rw [h1, h2]; rfl
      · rw [h1, h2]; exact h3
    rw [← hz1, hpoint] at hverdict
    exact verdictError hs hverdict

/-- Settles O34: the inverse that MODINV leaves in Z is the factor of MODMUL. -/
theorem inverseLaw : Obligations.InverseLaw := by
  unfold Obligations.InverseLaw
  intro s hprime ha hlt
  have hm : s.num .m ≠ 0 := hprime.ne_zero
  have hgcd : Nat.gcd (s.num .a) (s.num .m) = 1 :=
    ((hprime.coprime_iff_not_dvd).2 fun hdvd => absurd (Nat.le_of_dvd ha hdvd) (by omega)).symm
  obtain ⟨t, hinv, ⟨hcode, -⟩, -, hone, -, hreg, -⟩ := modinvWritesTheInverse.2.1 s hm hgcd
  have hkeep (r : OpReg) (hr : r ≠ .z) (hb : r ≠ .b) : (t.setReg .b (t.reg .z)).num r = s.num r := by
    rw [State.num, State.reg_setReg_of_ne _ _ hb, hreg r (by simpa using hr), State.num]
  have hb : (t.setReg .b (t.reg .z)).num .b = t.num .z := by rw [State.num, State.reg_setReg_self, State.num]
  have hA := hkeep .a (by decide) (by decide)
  have hM := hkeep .m (by decide) (by decide)
  obtain ⟨u, hmul, ⟨hcode', -⟩, hz, -⟩ := modmulWritesTheProduct.2.1 (t.setReg .b (t.reg .z)) (by rwa [hM])
  refine ⟨t, u, hinv, hcode, hmul, hcode', ?_⟩
  rw [hz, hA, hb, hM, hone, Nat.mod_eq_of_lt hprime.one_lt]

end Sys2Proof.Proofs
end

section
/-! SUPPORT. The multiples of the base point in a valid domain, and the sum that VERIFY forms of them. -/

namespace Sys2Proof.Machine

open Sys2Proof.Safety

/-- The multiples of a multiple are multiples. -/
theorem IsMultiples.comp {p a b : Nat} {P : Point} {f : Nat → Point} (h : IsMultiples p a b P f) (d : Nat) :
    IsMultiples p a b (f d) fun n => f (n * d) := by
  obtain ⟨-, hcurve, hadd⟩ := h
  refine ⟨by simp only [Nat.one_mul], fun n => hcurve _, fun m n => ?_⟩
  simp only [hadd, Nat.add_mul]

/-- Where q times the point is O, its multiples depend on their numbers mod q only. -/
theorem IsMultiples.eq_of_modEq {p a b q : Nat} {P : Point} {f : Nat → Point} (h : IsMultiples p a b P f)
    (hq : f q = .infinity) {m n : Nat} (hmn : m ≡ n [MOD q]) : f m = f n := by
  obtain ⟨-, -, hadd⟩ := h
  have period (n : Nat) : f (n + q) = f n := by
    have hsum := hadd n q
    rw [hq, pointAdd_infinity_right] at hsum
    exact (Except.ok.inj hsum).symm
  have hmod (n : Nat) : f (n % q) = f n := (show Function.Periodic f q from period).map_mod_nat n
  rw [← hmod m, ← hmod n, hmn]

/-- The scalars of VERIFY undo SIGN's: z1 + z2·d is the nonce mod q (44_ecdsa.md R118). -/
theorem verify_scalars_modEq {q d e k r sig v z2 : Nat} (hinv : e * v % q = 1 % q) (hsig : sig = (r * d + k * e) % q)
    (hz2 : (z2 + r * v) % q = 0) : sig * v % q + z2 * d ≡ k [MOD q] := by
  have hev : (e * v : ZMod q) = 1 := by exact_mod_cast (ZMod.natCast_eq_natCast_iff _ _ q).2 hinv
  have hz : (z2 + r * v : ZMod q) = 0 := by
    exact_mod_cast (ZMod.natCast_eq_zero_iff _ q).2 (Nat.dvd_of_mod_eq_zero hz2)
  rw [← ZMod.natCast_eq_natCast_iff, hsig]
  push_cast [ZMod.natCast_mod]
  linear_combination d * hz + k * hev

/-- In a valid domain the point C of VERIFY is the nonce times the base point (44_ecdsa.md R118). -/
theorem verifyPoint_of_isMultiples {s : State} {b d k z1 z2 : Nat} {f : Nat → Point}
    (hf : IsMultiples (s.num .cp) (s.num .ca) b s.basePoint f) (hq : f (s.num .cq) = .infinity)
    (hQ : s.publicPoint = f d) (hz1 : z1 ≠ 0) (hz2 : z2 ≠ 0) (hk : z1 + z2 * d ≡ k [MOD s.num .cq]) :
    verifyPoint s z1 z2 = .ok (f k) := by
  have h1 := scalarMul_of_isMultiples hf (Nat.pos_of_ne_zero hz1)
  have h2 := scalarMul_of_isMultiples (hf.comp d) (Nat.pos_of_ne_zero hz2)
  obtain ⟨-, -, hadd⟩ := id hf
  rw [← hQ] at h2
  rw [verifyPoint, h1, h2]
  exact (hadd z1 (z2 * d)).trans (congrArg _ (hf.eq_of_modEq hq hk))

/-- z2 is -r·v mod q (44_ecdsa.md R114). -/
theorem verifyZ2_add {s : State} (hq : 1 ≤ s.num .cq) (v : Nat) :
    (verifyZ2 s v + s.num .sr * v) % s.num .cq = 0 := by
  have hlt := Nat.mod_lt (s.num .sr * v) hq
  rw [verifyZ2, Nat.mod_add_mod, ← Nat.add_mod_mod, Nat.sub_add_cancel hlt.le, Nat.mod_self]

/-- In a valid domain VERIFY accepts a signature whose r is that of the nonce's multiple of G and whose s is SIGN's
(44_ecdsa.md R118). -/
theorem verdict_of_signature {s : State} {b d k x y : Nat} {f : Nat → Point} (hs : VerifyContext s)
    (hprime : (s.num .cq).Prime) (hf : IsMultiples (s.num .cp) (s.num .ca) b s.basePoint f)
    (hq : f (s.num .cq) = .infinity) (hQ : s.publicPoint = f d) (hk : f k = .affine x y)
    (hr : s.num .sr = x % s.num .cq) (hsig : s.num .ss = (s.num .sr * d + k * digestOf s) % s.num .cq) :
    verdict s = .ok true := by
  have hq2 := hprime.two_le
  obtain ⟨he1, heq⟩ := digestOf_range hq2
  have hgcd : Nat.gcd (digestOf s) (s.num .cq) = 1 :=
    ((hprime.coprime_iff_not_dvd).2 fun hdvd => absurd (Nat.le_of_dvd he1 hdvd) (by omega)).symm
  obtain ⟨v, hv, -, hinv⟩ := finv_ok hprime.one_le hgcd
  have hz := verifyZ_ne_zero hs (hinv.trans (Nat.mod_eq_of_lt hprime.one_lt))
  have hnonce : verifyZ1 s v + verifyZ2 s v * d ≡ k [MOD s.num .cq] :=
    verify_scalars_modEq hinv hsig (verifyZ2_add hprime.one_le v)
  rw [verdict_of_finv_ok hv hz, verifyPoint_of_isMultiples hf hq hQ hz.1 hz.2 hnonce, hk]
  exact congrArg _ (decide_eq_true hr.symm)

/-- After SIGN and the host's write of Q, every register that neither wrote holds what it held. -/
theorem num_after_sign {s t : State} {n r sig qx qy : Nat} (h : Signed s t n r sig) (hqx : qx < 2 ^ 256)
    (hqy : qy < 2 ^ 256) (x : OpReg) : ((t.setNum .qx qx).setNum .qy qy).num x =
      if x = .qy then qy else if x = .qx then qx else if x = .sr then r else if x = .ss then sig
      else if x = .e then digestOf s else s.num x := by
  obtain ⟨-, hr, hs, he, -, -, hreg, -⟩ := h
  rw [State.num_setNum _ _ _ hqy, State.num_setNum _ _ _ hqx]
  split
  · rfl
  split
  · rfl
  split
  · next hx => rw [hx, hr]
  split
  · next hx => rw [hx, hs]
  split
  · next hx => rw [hx, he]
  · next h1 h2 h3 => rw [State.num, hreg x (by simp [h1, h2, h3]), State.num]

end Sys2Proof.Machine
end

section
/-! The statement of the family 44_ecdsa.md about SIGN and VERIFY together. -/

namespace Sys2Proof.Proofs

open Sys2Proof.Machine Sys2Proof.Safety

/-- Settles O60: SIGN took r from the nonce's multiple of G, and that multiple is the point C of VERIFY. -/
theorem signVerifyRoundTrip : Obligations.SignVerifyRoundTrip := by
  unfold Obligations.SignVerifyRoundTrip
  intro s t k b qx qy hprime hqprime hG hqG hd1 hdq hQ hexec ht
  have := Fact.mk hprime
  obtain ⟨⟨hp, hq, hgx, hgy, -⟩, nonce, n, r, sig, ⟨hnonce, -⟩, hsig, hsigned⟩ := exec_sign_noError hexec ht
  obtain ⟨⟨hr1, hrq⟩, hs1, hsq⟩ := range_of_signsWith hq hsig
  obtain ⟨⟨x, y, hloop, hr⟩, -, hsigeq, -⟩ := hsig
  -- the multiples of G, with O at q, Q at d, and the point of the signature at the nonce
  obtain ⟨f, hf⟩ := exists_isMultiples hG
  rw [scalarMul_of_isMultiples hf (by omega)] at hqG hQ
  rw [← scalarMul_eq_loop _ _ _ hnonce, scalarMul_of_isMultiples hf hnonce] at hloop
  have hfq : f (s.num .cq) = .infinity := Except.ok.inj hqG
  have hfd : f (s.num .d) = .affine qx qy := Except.ok.inj hQ
  have hfk : f nonce = .affine x y := Except.ok.inj hloop
  obtain ⟨hqx, hqy, -⟩ : OnCurve (s.num .cp) (s.num .ca) b (.affine qx qy) := hfd ▸ hf.2.1 (s.num .d)
  have hlt := s.num_lt .cp
  have hnum := num_after_sign hsigned (hqx.trans hlt) (hqy.trans hlt)
  generalize (t.setNum .qx qx).setNum .qy qy = u at hnum
  have hcp : u.num .cp = s.num .cp := hnum .cp
  have hca : u.num .ca = s.num .ca := hnum .ca
  have hcq : u.num .cq = s.num .cq := hnum .cq
  have hgx' : u.num .gx = s.num .gx := hnum .gx
  have hgy' : u.num .gy = s.num .gy := hnum .gy
  have hqx' : u.num .qx = qx := hnum .qx
  have hqy' : u.num .qy = qy := hnum .qy
  have hsr : u.num .sr = r := hnum .sr
  have hss : u.num .ss = sig := hnum .ss
  have hh : u.num .h = s.num .h := hnum .h
  have hdigest : digestOf u = digestOf s := by rw [digestOf, digestOf, hh, hcq]
  have hbase : u.basePoint = s.basePoint := by rw [State.basePoint, State.basePoint, hgx', hgy']
  have hpublic : u.publicPoint = f (s.num .d) := by rw [State.publicPoint, hqx', hqy', hfd]
  have hctx : VerifyContext u := by
    rw [VerifyContext, hcp, hcq, hgx', hgy', hqx', hqy', hsr, hss]
    exact ⟨hp, hq, hgx, hgy, hqx, hqy, hr1, hrq, hs1, hsq⟩
  have hverdict : verdict u = .ok true :=
    verdict_of_signature (b := b) (f := f) hctx (by rwa [hcq]) (by rwa [hcp, hca, hbase]) (by rw [hcq, hfq]) hpublic hfk
      (by rw [hsr, hcq, hr]) (by rw [hss, hsr, hcq, hdigest, hsigeq, sigOf])
  obtain ⟨w, hw, ⟨hcode, -, hresult, -⟩, -⟩ := exists_exec_verify hctx hverdict
  exact ⟨w, hw, hcode, hresult⟩

end Sys2Proof.Proofs
end

section
/-! SUPPORT. The error codes of each command, and what a register in neither of its sets can do. -/

namespace Sys2Proof.Machine

open Sys2Proof.Safety

/-! ### The codes of the curve commands and of SIGN (60_exceptions.md R119) -/

theorem checkPrime_eq_range {p : Nat} {e : ErrCode} (h : checkPrime p = .error e) : e = .range := by
  unfold checkPrime at h
  split at h <;> cases h
  rfl

/-- A curve command completes without error, or with the error of its point. -/
theorem ComputesPoint.errcode {i : Instr} {s t : State} {o : Except ErrCode Point} (h : ComputesPoint i s o)
    (ht : exec i s = .next t) : t.errcode = .noError ∨ o = .error t.errcode := by
  rw [ComputesPoint] at h
  rw [h] at ht
  cases o with
  | error e => cases ht; exact .inr rfl
  | ok R => cases ht; exact .inl rfl

theorem paddPoint_error_eq {s : State} {e : ErrCode} (h : paddPoint s = .error e) :
    e = .range ∨ e = .notInvertible := by
  rcases bind_eq_error h with h | ⟨_, -, h⟩
  · exact .inl (checkPrime_eq_range h)
  rcases bind_eq_error h with h | ⟨_, -, h⟩
  · exact .inl (checkPoint_eq_range h)
  rcases bind_eq_error h with h | ⟨_, -, h⟩
  · exact .inl (checkPoint_eq_range h)
  · exact .inr (pointAdd_error_eq h)

theorem pdblPoint_error_eq {s : State} {e : ErrCode} (h : pdblPoint s = .error e) :
    e = .range ∨ e = .notInvertible := by
  rcases bind_eq_error h with h | ⟨_, -, h⟩
  · exact .inl (checkPrime_eq_range h)
  rcases bind_eq_error h with h | ⟨_, -, h⟩
  · exact .inl (checkPoint_eq_range h)
  · exact .inr (pointAdd_error_eq h)

theorem pmulPoint_error_eq {s : State} {e : ErrCode} (h : pmulPoint s = .error e) :
    e = .range ∨ e = .notInvertible ∨ e = .scalarZero := by
  rcases bind_eq_error h with h | ⟨_, -, h⟩
  · exact .inl (checkPrime_eq_range h)
  rcases bind_eq_error h with h | ⟨_, -, h⟩
  · exact .inl (checkPoint_eq_range h)
  split at h
  · cases h; exact .inr (.inr rfl)
  · next ha => exact .inr (.inl (scalarMul_error_eq (Nat.pos_of_ne_zero ha) h))

/-- SIGN completes without error, or at a check, at the multiplication, or at the last rejected attempt. -/
theorem exec_sign_errcode {k : NonceSource} {s t : State} (h : exec (.sign k) s = .next t) :
    t.errcode ∈ [.noError, .range, .notInvertible, limitCode k] := by
  by_cases hctx : SignContext s ∧ NonceContext k s
  case neg =>
    rw [exec_sign_of_checks_error (signChecks_error hctx)] at h
    cases h
    simp
  obtain ⟨hsign, hnonce⟩ := hctx
  obtain ⟨t', j, hexec, -, -, -, hlast⟩ := exec_sign_spec hsign hnonce
  rw [hexec] at h
  cases h
  rcases hlast with ⟨r, sig, -, ⟨hcode, -⟩, -⟩ | ⟨code, hloop, ⟨hcode, -⟩, -⟩ | ⟨-, -, ⟨hcode, -⟩, -⟩
  · simp [hcode]
  · have hk := (nonceAt_range hsign hnonce j).1
    rw [← scalarMul_eq_loop _ _ _ hk] at hloop
    simp [hcode, scalarMul_error_eq hk hloop]
  · simp [hcode]

/-! ### A register in neither set (30_encoding.md R64; 20_memory.md R48) -/

section
variable {i : Instr} {r : OpReg} {v : U256} {s : State}

/-- A register that the command reads holds what it held. -/
theorem num_setReg_of_reads (h : readsReg i r = false) {r' : OpReg} (h' : readsReg i r' = true) :
    (s.setReg r v).num r' = s.num r' := by
  have hne : r' ≠ r := by rintro rfl; rw [h] at h'; cases h'
  rw [State.num, State.reg_setReg_of_ne s v hne, State.num]

/-- A register that the command writes is written beside it. -/
theorem setNum_setReg_of_writes (h : writesReg i r = false) {r' : OpReg} (h' : writesReg i r' = true) (n : Nat) :
    (s.setReg r v).setNum r' n = (s.setNum r' n).setReg r v := by
  have hne : r ≠ r' := by rintro rfl; rw [h] at h'; cases h'
  exact State.setReg_comm s v _ hne

/-- The result point is written beside a register other than RX and RY. -/
theorem writeR_setReg (hx : r ≠ .rx) (hy : r ≠ .ry) (R : Point) :
    writeR (s.setReg r v) R = (writeR s R).setReg r v := by
  cases R <;>
  · simp only [writeR, State.setNum, State.setReg_comm s v _ hx, State.setReg_comm (s.setReg .rx _) v _ hy]
    rfl

/-- A curve command whose point does not depend on a register, and that does not write it, carries it through. -/
theorem ComputesPoint.setReg {o : Except ErrCode Point} (h : ComputesPoint i s o) (h' : ComputesPoint i (s.setReg r v) o)
    (hx : r ≠ .rx) (hy : r ≠ .ry) : exec i (s.setReg r v) = mapNext (fun t => t.setReg r v) (exec i s) := by
  rw [ComputesPoint] at h h'
  rw [h, h']
  cases o with
  | error e => rfl
  | ok R =>
    show Host.Outcome.next (complete .noError false (writeR (s.setReg r v) R)) = _
    rw [writeR_setReg hx hy]
    rfl

theorem paddPoint_setReg (h : readsReg .padd r = false) : paddPoint (s.setReg r v) = paddPoint s := by
  have hn {r' : OpReg} (h' : readsReg .padd r' = true) := num_setReg_of_reads (s := s) (v := v) h h'
  simp only [paddPoint, State.p1, State.p2, State.point, State.setReg_p1inf, State.setReg_p2inf, hn (r' := .cp) rfl,
    hn (r' := .ca) rfl, hn (r' := .p1x) rfl, hn (r' := .p1y) rfl, hn (r' := .p2x) rfl, hn (r' := .p2y) rfl]

theorem pdblPoint_setReg (h : readsReg .pdbl r = false) : pdblPoint (s.setReg r v) = pdblPoint s := by
  have hn {r' : OpReg} (h' : readsReg .pdbl r' = true) := num_setReg_of_reads (s := s) (v := v) h h'
  simp only [pdblPoint, State.p1, State.point, State.setReg_p1inf, hn (r' := .cp) rfl, hn (r' := .ca) rfl,
    hn (r' := .p1x) rfl, hn (r' := .p1y) rfl]

theorem pmulPoint_setReg (h : readsReg .pmul r = false) : pmulPoint (s.setReg r v) = pmulPoint s := by
  have hn {r' : OpReg} (h' : readsReg .pmul r' = true) := num_setReg_of_reads (s := s) (v := v) h h'
  simp only [pmulPoint, State.p1, State.point, State.setReg_p1inf, hn (r' := .a) rfl, hn (r' := .cp) rfl,
    hn (r' := .ca) rfl, hn (r' := .p1x) rfl, hn (r' := .p1y) rfl]

/-- With either nonce source SIGN reads what it reads with the entropy source. -/
theorem readsReg_sign_of_entropy (k : NonceSource) {r' : OpReg} (h : readsReg (.sign .entropy) r' = true) :
    readsReg (.sign k) r' = true := by
  cases k with
  | entropy => exact h
  | registerK => cases r' <;> cases h <;> rfl

/-- The checks and the attempts of SIGN do not depend on it, for the same draws (log 1). -/
theorem sign_setReg {k : NonceSource} (h : readsReg (.sign k) r = false) :
    signChecks k (s.setReg r v) = signChecks k s ∧ signRun k (s.setReg r v) = signRun k s ∧
      digestOf (s.setReg r v) = digestOf s := by
  have hn {r' : OpReg} (h' : readsReg (.sign k) r' = true) := num_setReg_of_reads (s := s) (v := v) h h'
  have hk {r' : OpReg} (h' : readsReg (.sign .entropy) r' = true) : (s.setReg r v).num r' = s.num r' :=
    hn (readsReg_sign_of_entropy k h')
  have hattempt : attemptWith (s.setReg r v) = attemptWith s := by
    funext e n
    simp only [attemptWith, State.basePoint, hk (r' := .cp) rfl, hk (r' := .ca) rfl, hk (r' := .cq) rfl,
      hk (r' := .gx) rfl, hk (r' := .gy) rfl, hk (r' := .d) rfl]
  have hdigest : digestOf (s.setReg r v) = digestOf s := by
    simp only [digestOf, hk (r' := .h) rfl, hk (r' := .cq) rfl]
  have hcontext : contextChecks (s.setReg r v) = contextChecks s := by
    simp only [contextChecks, State.basePoint, hk (r' := .cp) rfl, hk (r' := .cq) rfl, hk (r' := .gx) rfl,
      hk (r' := .gy) rfl]
  refine ⟨?_, ?_, hdigest⟩
  · cases k with
    | entropy => simp only [signChecks, hcontext, hk (r' := .cq) rfl, hk (r' := .d) rfl]
    | registerK => simp only [signChecks, hcontext, hk (r' := .cq) rfl, hk (r' := .d) rfl, hn (r' := .k) rfl]
  · cases k with
    | entropy => simp only [signRun, hattempt, hk (r' := .cq) rfl, hk (r' := .h) rfl, State.setReg_fresh,
        State.setReg_params]
    | registerK => simp only [signRun, hattempt, hk (r' := .cq) rfl, hk (r' := .h) rfl, hn (r' := .k) rfl]

/-- The checks and the verdict of VERIFY do not depend on it. -/
theorem verify_setReg (h : readsReg .verify r = false) :
    verifyChecks (s.setReg r v) = verifyChecks s ∧ verdict (s.setReg r v) = verdict s ∧
      digestOf (s.setReg r v) = digestOf s := by
  have hn {r' : OpReg} (h' : readsReg .verify r' = true) := num_setReg_of_reads (s := s) (v := v) h h'
  refine ⟨?_, ?_, ?_⟩ <;>
  simp only [verifyChecks, contextChecks, verdict, digestOf, State.basePoint, State.publicPoint, hn (r' := .cp) rfl,
    hn (r' := .ca) rfl, hn (r' := .cq) rfl, hn (r' := .gx) rfl, hn (r' := .gy) rfl, hn (r' := .qx) rfl,
    hn (r' := .qy) rfl, hn (r' := .h) rfl, hn (r' := .sr) rfl, hn (r' := .ss) rfl]

/-- The outputs of HFINAL are written beside a register other than H. -/
theorem hfinalOutputs_setReg (hne : r ≠ .h) (t : Nat) :
    hfinalOutputs t (s.setReg r v) = (hfinalOutputs t s).setReg r v :=
  State.setReg_comm { s with
    lanes := (squeeze s.params (absorbedTail t s)).2
    digest := digestBytes (squeeze s.params (absorbedTail t s)).1 } v _ hne

/-- A signature is written beside a register that SIGN does not write. -/
theorem signedState_setReg {k : NonceSource} (hw : writesReg (.sign k) r = false)
    (hdigest : digestOf (s.setReg r v) = digestOf s) (n x sig : Nat) :
    signedState (s.setReg r v) n x sig = (signedState s n x sig).setReg r v := by
  rw [signedState, signedState, hdigest, show (s.setReg r v).setAttempts n = (s.setAttempts n).setReg r v from rfl,
    setNum_setReg_of_writes hw rfl, setNum_setReg_of_writes hw rfl, setNum_setReg_of_writes hw rfl]

end

end Sys2Proof.Machine
end

section
/-! The statements about error codes and registers without influence. -/

namespace Sys2Proof.Proofs

open Sys2Proof.Machine Sys2Proof.Safety

/-- Settles O13: each command's step, by its cases. -/
theorem errorCodesByCommand : Obligations.ErrorCodesByCommand := by
  unfold Obligations.ErrorCodesByCommand
  refine ⟨fun i s t h => ?_, rfl⟩
  cases i with
  | modmul =>
    by_cases hm : s.num .m = 0
    · rw [exec_modmul_of_eq_zero hm] at h; cases h; simp [codesOf]
    · rw [exec_modmul_of_ne_zero hm] at h; cases h; simp [codesOf]
  | modinv =>
    by_cases hm : s.num .m = 0
    · rw [exec_modinv_of_eq_zero hm] at h; cases h; simp [codesOf]
    cases hv : finv (s.num .a) (s.num .m) with
    | ok v => rw [exec_modinv_of_finv_ok hm hv] at h; cases h; simp [codesOf]
    | error e => rw [exec_modinv_of_finv_error hm hv] at h; cases h; simp [codesOf, finv_error_eq hv]
  | padd =>
    rcases (computesPoint_padd s).errcode h with e | e
    · simp [codesOf, e]
    · rcases paddPoint_error_eq e with e | e <;> simp [codesOf, e]
  | pdbl =>
    rcases (computesPoint_pdbl s).errcode h with e | e
    · simp [codesOf, e]
    · rcases pdblPoint_error_eq e with e | e <;> simp [codesOf, e]
  | pmul =>
    rcases (computesPoint_pmul s).errcode h with e | e
    · simp [codesOf, e]
    · rcases pmulPoint_error_eq e with e | e | e <;> simp [codesOf, e]
  | keccakf | hinit | habsorb => cases h; simp [codesOf]
  | hfinal len =>
    by_cases hlen : len.toNat ≤ 135
    · rw [exec_hfinal_of_le hlen] at h; cases h; simp [codesOf, hlen]
    · rw [exec_hfinal_of_gt (by omega)] at h; cases h; simp [codesOf, hlen]
  | sign k =>
    have hcode := exec_sign_errcode h
    cases k <;> exact hcode
  | verify =>
    rcases exec_verify_cases s with e | e | e | ⟨valid, e⟩ <;> rw [e] at h <;> cases h <;> simp [codesOf]

/-- Settles O14: what each command computes depends on its read set, and its outputs are written beside the register. -/
theorem unreadRegistersHaveNoInfluence : Obligations.UnreadRegistersHaveNoInfluence := by
  unfold Obligations.UnreadRegistersHaveNoInfluence
  intro i r v s hr hw
  have hn {r' : OpReg} (h' : readsReg i r' = true) := num_setReg_of_reads (s := s) (v := v) hr h'
  have hset {r' : OpReg} (h' : writesReg i r' = true) (n : Nat) := setNum_setReg_of_writes (s := s) (v := v) hw h' n
  cases i with
  | modmul =>
    by_cases hm : s.num .m = 0
    · rw [exec_modmul_of_eq_zero hm, exec_modmul_of_eq_zero (by rw [hn rfl, hm])]
      rfl
    · rw [exec_modmul_of_ne_zero hm, exec_modmul_of_ne_zero (by rwa [hn rfl]), hn rfl, hn rfl, hn rfl, hset rfl]
      rfl
  | modinv =>
    by_cases hm : s.num .m = 0
    · rw [exec_modinv_of_eq_zero hm, exec_modinv_of_eq_zero (by rw [hn rfl, hm])]
      rfl
    cases hv : finv (s.num .a) (s.num .m) with
    | ok x =>
      rw [exec_modinv_of_finv_ok hm hv, exec_modinv_of_finv_ok (by rwa [hn rfl]) (by rw [hn rfl, hn rfl, hv]), hset rfl]
      rfl
    | error e =>
      rw [exec_modinv_of_finv_error hm hv,
        exec_modinv_of_finv_error (by rwa [hn rfl]) (by rw [hn rfl, hn rfl, hv])]
      rfl
  | padd =>
    have h' := computesPoint_padd (s.setReg r v)
    rw [paddPoint_setReg hr] at h'
    exact (computesPoint_padd s).setReg h' (by rintro rfl; cases hw) (by rintro rfl; cases hw)
  | pdbl =>
    have h' := computesPoint_pdbl (s.setReg r v)
    rw [pdblPoint_setReg hr] at h'
    exact (computesPoint_pdbl s).setReg h' (by rintro rfl; cases hw) (by rintro rfl; cases hw)
  | pmul =>
    have h' := computesPoint_pmul (s.setReg r v)
    rw [pmulPoint_setReg hr] at h'
    exact (computesPoint_pmul s).setReg h' (by rintro rfl; cases hw) (by rintro rfl; cases hw)
  | keccakf | hinit | habsorb => rfl
  | hfinal len =>
    by_cases hlen : len.toNat ≤ 135
    · have hne : r ≠ .h := by rintro rfl; cases hw
      rw [exec_hfinal_of_le hlen, exec_hfinal_of_le hlen, hfinalOutputs_setReg hne]
      rfl
    · rw [exec_hfinal_of_gt (by omega), exec_hfinal_of_gt (by omega)]
      rfl
  | sign k =>
    obtain ⟨hchecks, hrun, hdigest⟩ := sign_setReg (s := s) (v := v) hr
    cases hc : signChecks k s with
    | error c =>
      rw [exec_sign_of_checks_error hc, exec_sign_of_checks_error (hchecks.trans hc)]
      rfl
    | ok =>
      cases ho : (signRun k s).2 with
      | error c =>
        rw [exec_sign_of_run_error hc ho, exec_sign_of_run_error (hchecks.trans hc) (by rw [hrun, ho]), hrun]
        rfl
      | ok rs =>
        obtain ⟨x, sig⟩ := rs
        rw [exec_sign_of_run_ok hc ho, exec_sign_of_run_ok (hchecks.trans hc) (by rw [hrun, ho]), hrun,
          signedState_setReg hw hdigest]
        rfl
  | verify =>
    obtain ⟨hchecks, hverdict, hdigest⟩ := verify_setReg (s := s) (v := v) hr
    cases hc : verifyChecks s with
    | error c =>
      rw [exec_verify_of_checks_error hc, exec_verify_of_checks_error (hchecks.trans hc)]
      rfl
    | ok =>
      cases ho : verdict s with
      | error c =>
        rw [exec_verify_of_verdict_error hc ho, exec_verify_of_verdict_error (hchecks.trans hc) (hverdict.trans ho)]
        rfl
      | ok valid =>
        rw [exec_verify_of_verdict_ok hc ho, exec_verify_of_verdict_ok (hchecks.trans hc) (hverdict.trans ho), hdigest,
          hset rfl]
        rfl

end Sys2Proof.Proofs
end

section
/-! SUPPORT. Runs of several steps, and a master that stands in a `wait` (30_encoding.md R66). -/

namespace Sys2Proof.Machine

open Sys2Proof.Safety

/-! ### What a step can answer -/

/-- No step is refused, and only a bus master's turn can end in a fault. -/
theorem step_answers (s : State) :
    (∃ u, step s = .next u) ∨ ∃ n m f, nextTurn s = .master n ∧ s.masters[n]? = some m ∧ step s = .fault f := by
  cases hn : nextTurn s with
  | engine =>
    rw [step_of_nextTurn_eq_engine hn]
    cases hr : (takeTurn s).running with
    | none => exact .inl ⟨_, engineTurn_of_idle hr⟩
    | some w =>
      obtain ⟨c, v, u, hu⟩ := runWord_is_completion w (takeTurn s)
      exact .inl ⟨_, (engineTurn_of_running hr).trans hu⟩
  | reset => exact .inl ⟨_, step_of_nextTurn_eq_reset hn⟩
  | master n =>
    rw [step_of_nextTurn_eq_master hn]
    cases hm : s.masters[n]? with
    | none => exact .inl ⟨takeTurn s, by simp only [masterTurn, takeTurn_masters, hm]⟩
    | some m =>
      rcases masterTurn_cases n (takeTurn s) with e | ⟨_, _, -, e⟩ | ⟨_, _, _, _, _, -, -, e⟩ | ⟨f, e⟩
      · exact .inl ⟨_, e⟩
      · exact .inl ⟨_, e⟩
      · exact .inl ⟨_, e⟩
      · exact .inr ⟨n, m, f, rfl, hm, e⟩

/-- No other agent moves a master. -/
theorem step_masters_of_ne {s u : State} {n : Nat} (h : step s = .next u) (hn : nextTurn s ≠ .master n) :
    u.masters[n]? = s.masters[n]? := by
  cases ht : nextTurn s with
  | engine =>
    rw [step_of_nextTurn_eq_engine ht] at h
    cases hr : (takeTurn s).running with
    | none => rw [engineTurn_of_idle hr] at h; cases h; rfl
    | some w =>
      rw [engineTurn_of_running hr] at h
      rw [(runWord_agents h).1, takeTurn_masters]
  | reset => rw [step_of_nextTurn_eq_reset ht] at h; cases h; rfl
  | master n' =>
    have hne : n' ≠ n := by rintro rfl; exact hn ht
    rw [step_of_nextTurn_eq_master ht] at h
    rcases masterTurn_next h with rfl | ⟨m, m', -, -, rfl | ⟨size, off, v, rfl⟩⟩
    · rfl
    · rw [State.setMaster_masters, List.getElem?_set_ne hne, takeTurn_masters]
    · rw [State.setMaster_masters, List.getElem?_set_ne hne, (memWrite_agents _ size off v).1, takeTurn_masters]

/-- The engine's turn leaves no command running, and every master where it was. -/
theorem step_of_engine {s : State} (h : nextTurn s = .engine) :
    ∃ u, step s = .next u ∧ u.busy = false ∧ u.masters = s.masters ∧ u.turns = s.turns.tail := by
  rw [step_of_nextTurn_eq_engine h]
  cases hr : (takeTurn s).running with
  | none => exact ⟨_, engineTurn_of_idle hr, by rw [State.busy, hr]; rfl, rfl, rfl⟩
  | some w =>
    obtain ⟨c, v, u, hu⟩ := runWord_is_completion w (takeTurn s)
    obtain ⟨hmasters, hturns⟩ := runWord_agents hu
    exact ⟨_, (engineTurn_of_running hr).trans hu, rfl, hmasters, hturns⟩

/-! ### Runs -/

theorem run_succ_of_next {s u : State} (h : step s = .next u) (k : Nat) :
    Host.Core.run Sys2Proof.core (k + 1) s = Host.Core.run Sys2Proof.core k u := by
  have hstep : Sys2Proof.core.step s = .next u := h
  simp only [Host.Core.run, hstep]

theorem run_succ_of_fault {s : State} {f : Fault} (h : step s = .fault f) (k : Nat) :
    Host.Core.run Sys2Proof.core (k + 1) s = .fault f := by
  have hstep : Sys2Proof.core.step s = .fault f := h
  simp only [Host.Core.run, hstep]

/-- The run comes to an idle core within k steps, or a host program stops it. -/
def IdleWithin (s : State) (k : Nat) : Prop :=
  ∃ n, n ≤ k ∧ ((∃ t, Host.Core.run Sys2Proof.core n s = .next t ∧ State.busy t = false) ∨
    ∃ f, Host.Core.run Sys2Proof.core n s = .fault f)

theorem IdleWithin.of_step {s u : State} {k : Nat} (h : step s = .next u) (hu : IdleWithin u k) :
    IdleWithin s (k + 1) := by
  obtain ⟨n, hn, hrun⟩ := hu
  refine ⟨n + 1, by omega, ?_⟩
  rw [run_succ_of_next h]
  exact hrun

/-- Every placed turn is a step, and after them the engine moves (70_reset_and_hazards.md R141; log 5). -/
theorem idleWithin_turns (turns : List Turn) (s : State) (ht : s.turns = turns) :
    IdleWithin s (turns.length + 1) := by
  induction turns generalizing s with
  | nil =>
    cases hb : s.busy with
    | false => exact ⟨0, by omega, .inl ⟨s, rfl, hb⟩⟩
    | true =>
      have hn : nextTurn s = .engine := by rw [nextTurn, ht, hb]; rfl
      obtain ⟨u, hu, hidle, -⟩ := step_of_engine hn
      exact .of_step hu ⟨0, le_rfl, .inl ⟨u, rfl, hidle⟩⟩
  | cons turn turns ih =>
    rcases step_answers s with ⟨u, hu⟩ | ⟨n, m, f, -, -, hf⟩
    · exact .of_step hu (ih u (by rw [step_turns hu, ht]; rfl))
    · exact ⟨1, by simp, .inr ⟨f, run_succ_of_fault hf 0⟩⟩

/-! ### The statements of a `wait` -/

/-- What the program holds at a position of the `wait`. -/
theorem statement_of_holdsWait {m : Master} {p l t : Nat} (h : HoldsWait m p l t) {i : Nat} {st : HostStmt}
    (hi : (wait l t)[i]? = some st) : m.program[p + i]? = some st := by
  obtain ⟨⟨pre, post, hprogram, hlen⟩, -⟩ := h
  have hlt : i < (wait l t).length := (List.getElem?_eq_some_iff.1 hi).1
  rw [hprogram, List.append_assoc, List.getElem?_append_right (by omega), hlen, Nat.add_sub_cancel_left,
    List.getElem?_append_left hlt, hi]

/-- The branch's mask takes BUSY's bit. -/
theorem bit_of_mask (w : Word) : decide (w &&& 0x1#32 ≠ 0) = w.getLsbD 0 := by
  rw [BitVec.and_one_eq_setWidth_ofBool_getLsbD]
  cases w.getLsbD 0 <;> decide

/-- STATUS shows BUSY in bit 0 (10_state.md R15). -/
theorem statusWord_getLsbD_zero (s : State) : (statusWord s).getLsbD 0 = s.busy := by
  rw [statusWord_eq, BitVec.getLsbD_ofNat, Nat.testBit_zero]
  cases s.busy <;> simp <;> omega

section
variable {s : State} {n p l t : Nat} {m : Master} (hn : nextTurn s = .master n) (hm : s.masters[n]? = some m)
  (hw : HoldsWait m p l t)
include hn hm hw

/-- The label takes one turn. -/
theorem step_wait_label (hpos : m.pos = p) :
    step s = .next ((takeTurn s).setMaster n { m with pos := p + 1 }) := by
  have hst : m.program[m.pos]? = some (.label l) := by rw [hpos]; exact statement_of_holdsWait hw (i := 0) rfl
  rw [step_of_nextTurn_eq_master hn, masterTurn_eq_hostStmt (s := takeTurn s) hm hst, hostStmt, Master.advance, hpos]

/-- Both polls read STATUS as it stands. -/
theorem step_wait_poll (hpos : m.pos = p + 1 ∨ m.pos = p + 3) :
    step s = .next ((takeTurn s).setMaster n (m.afterRead (some t) ⟨statusWord s, .okay⟩)) := by
  have hst : m.program[m.pos]? = some (hostRdTo .status t) := by
    rcases hpos with hpos | hpos <;> rw [hpos]
    · exact statement_of_holdsWait hw (i := 1) rfl
    · exact statement_of_holdsWait hw (i := 3) rfl
  have hread : memRead (takeTurn s) .b32 Slot.status.off = ⟨statusWord s, .okay⟩ :=
    memRead_of_not_inWriteSet (slotAt_off .status) (inWriteSet_eq_false fun _ _ _ _ => rfl)
  rw [step_of_nextTurn_eq_master hn, masterTurn_eq_hostStmt (s := takeTurn s) hm hst, hostRdTo, hostStmt, hread]

/-- The branch goes back to the label exactly if the word shows BUSY = 1. -/
theorem step_wait_branch (hpos : m.pos = p + 2) {w : Word} (ht : readTemp m.temps t = some w) :
    step s = .next ((takeTurn s).setMaster n { m with pos := if w.getLsbD 0 then p else p + 3 }) := by
  have hst : m.program[m.pos]? = some (.bnz t 0x1#32 l) := by rw [hpos]; exact statement_of_holdsWait hw (i := 2) rfl
  obtain ⟨-, hlabel⟩ := hw
  rw [step_of_nextTurn_eq_master hn, masterTurn_eq_hostStmt (s := takeTurn s) hm hst]
  simp only [hostStmt, ht, hostBranch, bit_of_mask, hlabel, Master.advance, hpos]
  split <;> rfl

end

/-! ### How far a master still is from the end of its `wait` -/

/-- On an idle core, the master stands k of its own turns before the end of the `wait` at position p. -/
def TurnsLeft (m : Master) (p t : Nat) : Nat → Prop
  | 0 => m.pos = p + 4
  | 1 => m.pos = p + 3
  | 2 => m.pos = p + 2 ∧ ∃ w, readTemp m.temps t = some w ∧ w.getLsbD 0 = false
  | 3 => m.pos = p + 1
  | 4 => m.pos = p
  | 5 => m.pos = p + 2 ∧ ∃ w, readTemp m.temps t = some w ∧ w.getLsbD 0 = true
  | _ => False

theorem TurnsLeft.le {m : Master} {p t k : Nat} (h : TurnsLeft m p t k) : k ≤ 5 := by
  match k, h with
  | 0, _ | 1, _ | 2, _ | 3, _ | 4, _ | 5, _ => omega

/-- The poll of STATUS leads to the branch, with BUSY as it is. -/
theorem turnsLeft_afterRead {m : Master} {p t : Nat} {s : State} (hpos : m.pos = p + 1) :
    TurnsLeft (m.afterRead (some t) ⟨statusWord s, .okay⟩) p t (if s.busy then 5 else 2) := by
  have hpos' : (m.afterRead (some t) ⟨statusWord s, .okay⟩).pos = p + 2 := by
    simp only [Master.afterRead, Master.afterWrite, hpos]
  have hread : readTemp (m.afterRead (some t) ⟨statusWord s, .okay⟩).temps t = some (statusWord s) := by
    simp only [Master.afterRead, readTemp_bindTemp, if_true]
  cases hb : s.busy with
  | false => exact ⟨hpos', _, hread, (statusWord_getLsbD_zero s).trans hb⟩
  | true => exact ⟨hpos', _, hread, (statusWord_getLsbD_zero s).trans hb⟩

/-- Master n stands in the `wait` at position p, or right behind it, with k turns to go. -/
def StandsInWait (s : State) (n p l t k : Nat) : Prop :=
  ∃ m, s.masters[n]? = some m ∧ HoldsWait m p l t ∧ TurnsLeft m p t k

/-- After its turn, the master is where its statement leads. -/
theorem standsInWait_setMaster {s : State} {n p l t k : Nat} {m m' : Master} (hm : s.masters[n]? = some m)
    (hw : HoldsWait m p l t) (hprogram : m'.program = m.program) (hleft : TurnsLeft m' p t k) :
    StandsInWait ((takeTurn s).setMaster n m') n p l t k := by
  refine ⟨m', List.getElem?_set_self (List.getElem?_eq_some_iff.1 hm).1, ?_, hleft⟩
  unfold HoldsWait
  rw [hprogram]
  exact hw

/-- A turn of a master in its `wait` is never a fault, leaves BUSY as it is, and on an idle core brings the master one
turn nearer to the end. -/
theorem step_standsInWait {s : State} {n p l t k : Nat} (hn : nextTurn s = .master n)
    (h : StandsInWait s n p l t (k + 1)) :
    ∃ u j, step s = .next u ∧ u.busy = s.busy ∧ StandsInWait u n p l t j ∧ (s.busy = false → j = k) := by
  obtain ⟨m, hm, hw, hleft⟩ := h
  match k, hleft with
  | 0, hpos =>
    exact ⟨_, 0, step_wait_poll hn hm hw (.inr hpos), rfl, standsInWait_setMaster hm hw rfl
      (congrArg (· + 1) hpos), fun _ => rfl⟩
  | 1, ⟨hpos, w, ht, hbit⟩ =>
    exact ⟨_, 1, step_wait_branch hn hm hw hpos ht, rfl, standsInWait_setMaster hm hw rfl (by rw [hbit]; rfl),
      fun _ => rfl⟩
  | 2, hpos =>
    exact ⟨_, _, step_wait_poll hn hm hw (.inl hpos), rfl,
      standsInWait_setMaster hm hw rfl (turnsLeft_afterRead hpos), fun hb => by rw [hb]; rfl⟩
  | 3, hpos =>
    exact ⟨_, 3, step_wait_label hn hm hw hpos, rfl, standsInWait_setMaster hm hw rfl rfl, fun _ => rfl⟩
  | 4, ⟨hpos, w, ht, hbit⟩ =>
    exact ⟨_, 4, step_wait_branch hn hm hw hpos ht, rfl, standsInWait_setMaster hm hw rfl (by rw [hbit]; rfl),
      fun _ => rfl⟩

/-! ### The end of a `wait` -/

section
variable {s u : State} {n p l t k j : Nat}

theorem waitEndsWithin_of_behind (h : StandsInWait s n p l t 0) : WaitEndsWithin s n p k := by
  obtain ⟨m, hm, -, hpos⟩ := h
  exact ⟨0, Nat.zero_le k, .inl ⟨s, m, rfl, hm, hpos⟩⟩

theorem waitEndsWithin_mono (h : WaitEndsWithin s n p j) (hjk : j ≤ k) : WaitEndsWithin s n p k := by
  obtain ⟨i, hi, hend⟩ := h
  exact ⟨i, hi.trans hjk, hend⟩

theorem waitEndsWithin_of_step (h : step s = .next u) (hu : WaitEndsWithin u n p k) :
    WaitEndsWithin s n p (k + 1) := by
  obtain ⟨i, hi, hend⟩ := hu
  refine ⟨i + 1, by omega, ?_⟩
  rw [run_succ_of_next h, ← step_masters_length h]
  exact hend

/-- Another master's faulty program stops the run. -/
theorem waitEndsWithin_of_fault {f : Fault} {n' : Nat} {m' : Master} (h : step s = .fault f) (hne : n' ≠ n)
    (hm' : s.masters[n']? = some m') (hs : StandsInWait s n p l t j) : WaitEndsWithin s n p (k + 1) := by
  obtain ⟨m, hm, -⟩ := hs
  have hlt := (List.getElem?_eq_some_iff.1 hm).1
  have hlt' := (List.getElem?_eq_some_iff.1 hm').1
  exact ⟨1, by omega, .inr ⟨by omega, f, run_succ_of_fault h 0⟩⟩

/-- Whoever moves, the master stays in its `wait`, or gets behind it, unless another master's program faults. -/
theorem waitEndsWithin_of_turn (hs : StandsInWait s n p l t j)
    (hnext : ∀ u i, step s = .next u → StandsInWait u n p l t i → WaitEndsWithin u n p k) :
    WaitEndsWithin s n p (k + 1) := by
  cases j with
  | zero => exact waitEndsWithin_of_behind hs
  | succ j =>
    by_cases hn : nextTurn s = .master n
    · obtain ⟨u, i, hu, -, hstands, -⟩ := step_standsInWait hn hs
      exact waitEndsWithin_of_step hu (hnext u i hu hstands)
    · rcases step_answers s with ⟨u, hu⟩ | ⟨n', m', f, hn', hm', hf⟩
      · obtain ⟨m, hm, hrest⟩ := hs
        exact waitEndsWithin_of_step hu (hnext u _ hu ⟨m, (step_masters_of_ne hu hn).trans hm, hrest⟩)
      · exact waitEndsWithin_of_fault hf (by rintro rfl; exact hn hn') hm' hs

end

/-- Some placed turns, whosever they are, leave the master in its `wait`, or bring it behind. -/
theorem waitEndsWithin_of_turns {n p l t k : Nat} {rest : List Turn}
    (hrest : ∀ u j, StandsInWait u n p l t j → u.turns = rest → WaitEndsWithin u n p k) (before : List Turn)
    (s : State) (j : Nat) (hs : StandsInWait s n p l t j) (ht : s.turns = before ++ rest) :
    WaitEndsWithin s n p (before.length + k) := by
  induction before generalizing s j with
  | nil => rw [List.length_nil, Nat.zero_add]; exact hrest s j hs ht
  | cons turn before ih =>
    rw [List.length_cons, Nat.add_right_comm]
    exact waitEndsWithin_of_turn hs fun u i hu hstands => ih u i hstands (by rw [step_turns hu, ht]; rfl)

/-- The core is idle and the next k turns are master n's: they are placed, or none is and it is master 0 (log 5). -/
def ServesNext (s : State) (n k : Nat) : Prop :=
  s.busy = false ∧ ((∃ rest, s.turns = List.replicate k (.master n) ++ rest) ∨ s.turns = [] ∧ n = 0)

/-- A master that is served on an idle core gets behind its `wait` in the turns it has left. -/
theorem waitEndsWithin_of_serves {n p l t k j : Nat} {s : State} (hs : StandsInWait s n p l t j)
    (hserves : ServesNext s n k) (hjk : j ≤ k) : WaitEndsWithin s n p k := by
  induction k generalizing s j with
  | zero => rw [Nat.le_zero.1 hjk] at hs; exact waitEndsWithin_of_behind hs
  | succ k ih =>
    cases j with
    | zero => exact waitEndsWithin_of_behind hs
    | succ j =>
      obtain ⟨hidle, hturns⟩ := hserves
      have hn : nextTurn s = .master n := by
        rcases hturns with ⟨rest, ht⟩ | ⟨ht, rfl⟩
        · simp only [nextTurn, ht, List.replicate_succ, List.cons_append]
        · simp only [nextTurn, ht, hidle, Bool.false_eq_true, if_false]
      obtain ⟨u, i, hu, hbusy, hstands, hi⟩ := step_standsInWait hn hs
      refine waitEndsWithin_of_step hu (ih hstands ⟨hbusy.trans hidle, ?_⟩ (by have := hi hidle; omega))
      rw [step_turns hu]
      exact hturns.imp (fun ⟨rest, ht⟩ => ⟨rest, by rw [ht]; rfl⟩) fun ⟨ht, h0⟩ => ⟨by rw [ht]; rfl, h0⟩

/-- Five turns on an idle core are enough from anywhere in the `wait`. -/
theorem waitEndsWithin_five {n p l t j : Nat} {s : State} (hs : StandsInWait s n p l t j)
    (hserves : ServesNext s n 5) : WaitEndsWithin s n p 5 := by
  have hle : j ≤ 5 := by obtain ⟨m, -, -, hleft⟩ := hs; exact hleft.le
  exact waitEndsWithin_of_serves hs hserves hle

/-- An engine's turn makes the core idle, so that five more are enough. -/
theorem waitEndsWithin_of_engine {n p l t j : Nat} {s : State} (hs : StandsInWait s n p l t j)
    (hn : nextTurn s = .engine)
    (hturns : (∃ rest, s.turns.tail = List.replicate 5 (.master n) ++ rest) ∨ s.turns.tail = [] ∧ n = 0) :
    WaitEndsWithin s n p 6 := by
  obtain ⟨u, hu, hidle, hmasters, htail⟩ := step_of_engine hn
  refine waitEndsWithin_of_step hu (waitEndsWithin_five (l := l) (t := t) (j := j) ?_ ⟨hidle, by rwa [htail]⟩)
  unfold StandsInWait
  rwa [hmasters]

end Sys2Proof.Machine
end

section
namespace Sys2Proof.Proofs
open Sys2Proof.Machine Sys2Proof.Safety

/-- What a master's own turn does at each statement of its `wait`. -/
theorem step_in_wait {s : State} {n : Nat} {m : Master} {p l t : Nat} (hn : nextTurn s = .master n)
    (hm : s.masters[n]? = some m) (hw : HoldsWait m p l t) :
    (m.pos = p → ∃ u, step s = .next u ∧ u.masters[n]? = some { m with pos := p + 1 }) ∧
    (m.pos = p + 1 ∨ m.pos = p + 3 → ∃ u m', step s = .next u ∧ u.masters[n]? = some m' ∧ m'.program = m.program ∧
      m'.pos = m.pos + 1 ∧ readTemp m'.temps t = some (statusWord s)) ∧
    ∀ w, m.pos = p + 2 → readTemp m.temps t = some w → ∃ u, step s = .next u ∧
      u.masters[n]? = some { m with pos := if w.getLsbD 0 then p else p + 3 } := by
  have hset : ∀ m' : Master, ((takeTurn s).setMaster n m').masters[n]? = some m' := fun m' =>
    List.getElem?_set_self (List.getElem?_eq_some_iff.1 hm).1
  refine ⟨fun hpos => ⟨_, step_wait_label hn hm hw hpos, hset _⟩,
    fun hpos => ⟨_, _, step_wait_poll hn hm hw hpos, hset _, rfl, rfl, ?_⟩,
    fun w hpos ht => ⟨_, step_wait_branch hn hm hw hpos ht, hset _⟩⟩
  simp only [Master.afterRead, readTemp_bindTemp, if_true]

/-- Settles O10: every placed turn is a step and after them the engine completes the command; a master in its `wait`
stays there through the placed turns, and on the idle core it needs five turns at most (`TurnsLeft`), the stale word at
the branch included. -/
theorem runningCommandEventuallyCompletes : Obligations.RunningCommandEventuallyCompletes := by
  refine ⟨fun s _ => idleWithin_turns s.turns s rfl, fun s u n => step_masters_of_ne,
    fun s n m p l t => step_in_wait, fun s m p l t hm hw hpos => ?_, fun s n m p l t before rest hm hw hpos hturns => ?_⟩
  · refine waitEndsWithin_of_turns (l := l) (t := t) (rest := []) (fun u j hs ht => ?_) s.turns s 4 ⟨m, hm, hw, hpos⟩
      (List.append_nil _).symm
    cases hb : u.busy with
    | false => exact waitEndsWithin_mono (waitEndsWithin_five hs ⟨hb, .inr ⟨ht, rfl⟩⟩) (by omega)
    | true => exact waitEndsWithin_of_engine hs (by rw [nextTurn, ht, hb]; rfl) (.inr ⟨by rw [ht]; rfl, rfl⟩)
  · exact waitEndsWithin_of_turns (l := l) (t := t) (fun u j hs ht => waitEndsWithin_of_engine hs
      (by rw [nextTurn, ht]) (.inl ⟨rest, by rw [ht]; rfl⟩)) before s 4 ⟨m, hm, hw, hpos⟩ hturns

end Sys2Proof.Proofs
end
